-- ==== Sys2Proof/Word.lean ====
section
/-! DEFINITION. The data types of spec/00_scope.md rule R7: a byte, and a finite sequence of bytes. -/

namespace Sys2Proof

/-- A byte, an integer in 0..255 (rule R7). -/
abbrev Byte := BitVec 8

/-- A finite sequence of bytes, index 0 first: the byte sent first, and the most significant one when the sequence is
read as a number (rules R7, R63). `Bytes(n)` of the spec is a `Bytes` of length `n`. -/
abbrev Bytes := List Byte

end Sys2Proof
end

