-- ==== Sys2Proof/Syntax.lean ====
section
/-! DEFINITION. The commands of the engine (spec/30_encoding.md rule R104), one constructor a row of
spec/opcode_table.json, and what the engine answers (rules R110, R111, R350). -/

namespace Sys2Proof

/-- The seven modes of operation (spec/30_encoding.md rule R106; spec/42_mode_common.md rule R201). -/
inductive Mode where
  | ecb | cbc | pcbc | cfb | ofb | ctr
  /-- Random-Delta, the counter mode whose stride travels in a header block (spec/45_mode_rd.md). -/
  | rd
  deriving DecidableEq, Repr, Inhabited

/-- A byte-sequence operand: `none` is the spec's `null`, `some []` its `empty`; the two differ (rules R7, R103). -/
abbrev Operand := Option Bytes

/-- The command set, in the order of the opcode table (rule R104). -/
inductive Instr where
  /-- `SYS_RESET` (spec/70_reset_and_hazards.md rule R391). -/
  | sysReset
  /-- `FN_INIT key` (spec/41_feistel.md rule R172). -/
  | fnInit (key : Operand)
  /-- `FN_ENC block` (rule R178). -/
  | fnEnc (block : Operand)
  /-- `FN_DEC block` (rule R179). -/
  | fnDec (block : Operand)
  /-- `FN_CAPS` (rule R183). -/
  | fnCaps
  /-- `ME_INIT mode iv [seed]` (spec/42_mode_common.md rule R202): the `SEL` byte as the frame carries it, the IV, and
  the 64 bits of `SEED` when `SV = 1` (rule R103). -/
  | meInit (sel : Byte) (iv : Operand) (seed : Option (BitVec 64))
  /-- `ME_ENC data` (rule R212). -/
  | meEnc (data : Operand)
  /-- `ME_DEC data` (rule R213). -/
  | meDec (data : Operand)
  /-- `ME_CAPS mode` (rule R206), the `SEL` byte. -/
  | meCaps (sel : Byte)
  deriving DecidableEq, Repr

/-- The five failure kinds, in the order of their status codes (spec/60_exceptions.md rule R350). The last two arise on
the host side only (rules R354, R355). -/
inductive FailKind where
  | invalidArgument | invalidState | unsupported | dataIntegrity | io
  deriving DecidableEq, Repr

/-- What a command answers (rules R10, R110): OK with its result bytes, or one failure kind and no bytes. -/
inductive Response where
  | ok (payload : Bytes)
  | failure (kind : FailKind)
  deriving DecidableEq, Repr

end Sys2Proof
end

