-- ==== Sys2Proof/Config.lean ====
section
/-! DEFINITION. The parameters of an MCFE instance (spec/00_scope.md rule R4) and the values the spec leaves open
(spec/93_implementation_defined.md). They are fixed before reset and no command changes them. -/

namespace Sys2Proof

/-- One instance of the hardware. The record is so shaped that every record is a well-formed instance and every
well-formed instance is some record (rules R4, R5; log entries 1 and 2); `Machine/Plugins.lean` reads the spec's
parameters off it. -/
structure Params where
  /-- `h - 1`, with `h` the half-block size: `B = 2 * h` is then positive and even, as rule R5 has it. -/
  halfPred : Nat
  /-- `R`, the round count; 0 is allowed (rule R5). -/
  rounds : Nat
  /-- `KS`, the key schedule; it may return a wrong number of round keys (rule R172). -/
  keySchedule : Bytes → List Bytes
  /-- `RF(x, k)[j]`, byte `j` of the round function's result: a round function is given byte by byte, so that its result
  has the half-block's length (93 U3). -/
  roundByte : Bytes → Bytes → Nat → Byte
  /-- `KEY_LEN_OK(n)` for `n > 0`; `KEY_LEN_OK(0) = false` is added where it is read. -/
  lenOk : Nat → Bool
  /-- `ADAPT_SWAP`. -/
  adaptSwap : Bool
  /-- `RD_DELTA_FROM_SEED(seed, B)[j]`, open (spec/92_eei_decisions.md D20). -/
  seedDeltaByte : Int → Nat → Nat → Byte
  /-- Which byte of the IV is the `j`-th of the half the IV-derived delta depends on, open (D20). -/
  ivHalfPos : Nat → Nat
  /-- Byte `j` of the IV-derived delta, from those `h` bytes, open (D20). -/
  ivDeltaByte : Bytes → Nat → Byte
  /-- `OFF_W`, open, default 64 (D19). -/
  offWidth : Nat
  /-- FREE VALUE (log entry 14): byte `j` of what `FN_CAPS` answers when `B` does not fit 32 bits. -/
  wideCapsByte : Nat → Byte
  /-- FREE VALUE (log entry 5): byte `j` of `FN.L` at the `n`-th draw. -/
  freeL : Nat → Nat → Byte
  /-- FREE VALUE (log entry 5): byte `j` of `FN.R` at the `n`-th draw. -/
  freeR : Nat → Nat → Byte
  /-- FREE VALUE (log entry 5): `FN.i` at the `n`-th draw, before it is brought below `R`. -/
  freeRound : Nat → Nat
  /-- FREE VALUE (log entry 5): `ME.MODE` at the `n`-th draw. -/
  freeMode : Nat → Mode
  /-- FREE VALUE (log entry 5): byte `j` of `ME.IV` at the `n`-th draw. -/
  freeIv : Nat → Nat → Byte
  /-- FREE VALUE (log entry 5): byte `j` of `ME.FB` at the `n`-th draw. -/
  freeFb : Nat → Nat → Byte
  /-- FREE VALUE (log entry 5): byte `j` of `ME.DELTA` at the `n`-th draw. -/
  freeDelta : Nat → Nat → Byte
  /-- FREE VALUE (log entry 5): `ME.FIRST` at the `n`-th draw. -/
  freeFirst : Nat → Bool
  deriving Inhabited

/-- The instance the machine is: uninterpreted, so whatever is proved of it holds of every instance. -/
opaque Config.params : Params

end Sys2Proof
end

