-- ==== Sys2Proof/Machine/ByteArith.lean ====
section
/-! DEFINITION. The byte-arithmetic unit BA (spec/40_byte_arith.md) and the big-endian reading of byte sequences
(spec/00_scope.md rule R8; spec/20_memory.md rule R63). A BA function answers `none` on operand shapes for which the spec
gives it no value (rule R140; spec/93_implementation_defined.md U6): it never truncates and never pads. -/

namespace Sys2Proof.Machine

/-- `be(a)`: the unsigned integer a byte sequence stands for, byte 0 the most significant (rule R8). -/
def be : Bytes → Nat
  | [] => 0
  | b :: bs => b.toNat * 256 ^ bs.length + be bs

/-- `be_n(v)` of rule R8 for `v < 256^n`. -/
def beBytes : Nat → Nat → Bytes
  | 0, _ => []
  | n + 1, v => BitVec.ofNat 8 (v / 256 ^ n) :: beBytes n v

/-- The `n` bytes `f 0, f 1, …`. -/
def tabulate (n : Nat) (f : Nat → Byte) : Bytes := (List.range n).map f

/-- `n` bytes of 00. -/
def zeros (n : Nat) : Bytes := List.replicate n 0

/-- The byte-wise exclusive-or behind `xor`, for operands of one length. -/
def zipXor (a b : Bytes) : Bytes := List.zipWith (· ^^^ ·) a b

/-- `Xor(a, b)` (rule R141). -/
def xor (a b : Bytes) : Option Bytes := if a.length = b.length then some (zipXor a b) else none

/-- `n` blocks of `size` bytes off the front of `d`. -/
def takeBlocks (size : Nat) : Nat → Bytes → List Bytes
  | 0, _ => []
  | n + 1, d => d.take size :: takeBlocks size n (d.drop size)

/-- `Split(d, B)` (rule R143). -/
def split (size : Nat) (d : Bytes) : Option (List Bytes) :=
  if d.length % size = 0 then some (takeBlocks size (d.length / size) d) else none

/-- `SplitHalves(b)` with half size `h` (rule R144): the first `h` bytes and the other `h`. -/
def splitHalves (h : Nat) (b : Bytes) : Option (Bytes × Bytes) :=
  if b.length = 2 * h then some (b.take h, b.drop h) else none

/-- The loop of `AddMod` (rule R145): the last byte first, answering the bytes and the carry out of them. -/
def addLoop : Bytes → Bytes → Bytes × Nat
  | a :: as, b :: bs =>
    let (out, carry) := addLoop as bs
    let t := a.toNat + b.toNat + carry
    (BitVec.ofNat 8 t :: out, t / 256)
  | _, _ => ([], 0)

/-- `AddMod(a, b)` (rule R145): the final carry is dropped. -/
def addMod (a b : Bytes) : Option Bytes :=
  if a.length = b.length ∧ 1 ≤ a.length then some (addLoop a b).1 else none

/-- The loop of `MulMod32` (rule R146). -/
def mulLoop (m : Nat) : Bytes → Bytes × Nat
  | [] => ([], 0)
  | a :: as =>
    let (out, carry) := mulLoop m as
    let t := a.toNat * m + carry
    (BitVec.ofNat 8 t :: out, t / 256)

/-- `MulMod32(a, m)` (rule R146), for a 32-bit multiplier. -/
def mulMod32 (a : Bytes) (m : Nat) : Option Bytes :=
  if 1 ≤ a.length ∧ m < 2 ^ 32 then some (mulLoop m a).1 else none

/-- `CtrAdd(iv, i)` (rule R148): the last 8 bytes count, the bytes before them pass through. -/
def ctrAdd (iv : Bytes) (i : Nat) : Option Bytes :=
  if 8 ≤ iv.length then
    some (iv.take (iv.length - 8) ++ beBytes 8 ((be (iv.drop (iv.length - 8)) + i) % 2 ^ 64))
  else none

end Sys2Proof.Machine
end

