-- ==== Sys2Proof/Machine/Plugins.lean ====
section
/-! DEFINITION. The parameters of spec/00_scope.md rule R4 under the spec's names, read off an instance's record; the two
plug-in ports (spec/41_feistel.md rule R171); the free values an instance draws (spec/93_implementation_defined.md U10,
U11). -/

namespace Sys2Proof

open Machine (tabulate)

/-- `h`, the half-block size in bytes. -/
def Params.half (c : Params) : Nat := c.halfPred + 1

/-- `B`, the block size in bytes: positive and even (rule R5). -/
def Params.blockSize (c : Params) : Nat := 2 * c.half

/-- `KEY_LEN_OK(n)`, with `KEY_LEN_OK(0) = false` (rule R4). -/
def Params.keyLenOk (c : Params) (n : Nat) : Bool := decide (0 < n) && c.lenOk n

/-- `KS(key)` (rule R171). -/
def Params.ks (c : Params) (key : Bytes) : List Bytes := c.keySchedule key

/-- `RF(x, k)`, of the half-block's length (rule R171). -/
def Params.rf (c : Params) (x k : Bytes) : Bytes := tabulate c.half (c.roundByte x k)

/-- `RD_DELTA_FROM_SEED(seed, B)`, a block (spec/45_mode_rd.md rule R282). -/
def Params.deltaFromSeed (c : Params) (seed : Int) : Bytes :=
  tabulate c.blockSize (c.seedDeltaByte seed c.blockSize)

/-- The `h` bytes of an IV that the IV-derived delta depends on (rule R282: "half the IV's bytes"). -/
def Params.ivHalf (c : Params) (iv : Bytes) : Bytes :=
  tabulate c.half fun j => iv.getD (c.ivHalfPos j % c.blockSize) 0

/-- `RD_DELTA_FROM_IV(iv)`, a block (rule R282). -/
def Params.deltaFromIv (c : Params) (iv : Bytes) : Bytes := tabulate c.blockSize (c.ivDeltaByte (c.ivHalf iv))

/-- `2^OFF_W - 1`, the largest offset the counter holds (spec/10_state.md rule R36). -/
def Params.maxOff (c : Params) : Nat := 2 ^ c.offWidth - 1

/-- The `n`-th draw of `FN.i`, a natural below `R` where there is one (spec/10_state.md section 1). -/
def Params.drawRound (c : Params) (n : Nat) : Nat := if c.rounds = 0 then 0 else c.freeRound n % c.rounds

end Sys2Proof
end

