-- ==== Sys2Proof/Machine/State.lean ====
section
/-! DEFINITION. The state of the engine (spec/10_state.md section 1), the two byte streams of its interface
(spec/20_memory.md rule R60; spec/30_encoding.md rule R100), and what a step can stop with. There is no addressable memory,
no program counter and no general register (rules R24, R27, R60). -/

namespace Sys2Proof.Machine

/-- `ME.DIR`: the direction of the session's first transform, ghost state (spec/10_state.md rule R39). -/
inductive Dir where
  | none | enc | dec
  deriving DecidableEq, Repr

/-- The engine's registers, its two streams, and the model's draw counter. -/
structure State where
  /-- `FN.INIT` (rule R23). -/
  fnInit : Bool
  /-- `FN.RK`, the round-key store (rule R20). -/
  fnRk : List Bytes
  /-- `FN.L`, the left half during a block transform; unspecified between transforms (rule R22). -/
  fnL : Bytes
  /-- `FN.R`, the right half, likewise. -/
  fnR : Bytes
  /-- `FN.i`, the round index, likewise. -/
  fnI : Nat
  /-- `ME.INIT` (rule R30). -/
  meInit : Bool
  /-- `ME.MODE` (rule R33). -/
  meMode : Mode
  /-- `ME.IV` (rule R34). -/
  meIv : Bytes
  /-- `ME.FB`, the feedback register (rule R35). -/
  meFb : Bytes
  /-- `ME.OFF`, the byte offset (rule R36). -/
  meOff : Nat
  /-- `ME.DELTA` (rule R38). -/
  meDelta : Bytes
  /-- `ME.FIRST` (rule R38). -/
  meFirst : Bool
  /-- `ME.DIR` (rule R39). -/
  meDir : Dir
  /-- The command stream: bytes the host has sent and the engine has not yet taken (rule R100). -/
  cmdStream : Bytes
  /-- The response stream: every response sent, oldest first (rule R100). -/
  responses : List Response
  /-- The MODEL'S own: how many draws of free values have been made (log entry 5). -/
  draws : Nat
  deriving DecidableEq, Repr

/-- Why the machine could stop with a fault. It never does: the spec has no trap and no stuck state
(spec/60_exceptions.md), its failures are responses after which the engine takes the next command (rule R365). -/
inductive Fault : Type
  deriving DecidableEq, Repr

/-- Why a step is refused. Each but the first is a case that spec/93_implementation_defined.md says a model refuses
(spec/60_exceptions.md rule R366); all are safe: the model stops where the hardware goes on. -/
inductive Refusal where
  /-- An instruction without a meaning; `exec` would raise it, and no arm does. Safe. -/
  | notModelled (mnemonic : String)
  /-- U1: `ME_ENC` or `ME_DEC` against the session's direction, in a mode other than ECB. Raised by both. Safe. -/
  | directionMixed
  /-- U2: a session whose body byte count would pass `2^OFF_W - 1`. Raised by `ME_ENC`, `ME_DEC`. Safe. -/
  | offsetOverflow
  /-- U4: CTR on an instance with `B < 8`. Raised by `ME_INIT`, and by `ME_ENC`, `ME_DEC` in a CTR session. Safe. -/
  | ctrBlockTooSmall
  /-- U5: an RD keystream block with index `2^32` or more. Raised by `ME_ENC`, `ME_DEC`. Safe. -/
  | rdIndexTooLarge
  /-- U9: an RD first `ME_ENC` whose result is longer than `MAX_LEN`. Safe. -/
  | resultTooLong
  /-- U6: a BA function on operand shapes for which it has no value; only in states in which a block register does not
  hold `B` bytes, which no run reaches. Raised by `ME_ENC`, `ME_DEC`. Safe. -/
  | outsideDomain
  deriving DecidableEq, Repr

/-- The engine after power-on reset (spec/10_state.md rule R45; spec/70_reset_and_hazards.md rule R390). The spec gives
`FN.INIT`, `FN.RK`, `ME.INIT`, `ME.OFF` and `ME.DIR`; the other registers' values are the model's (DESIGN CHOICE, log
entry 4: zero). -/
def State.reset : State where
  fnInit := false
  fnRk := []
  fnL := zeros Config.params.half
  fnR := zeros Config.params.half
  fnI := 0
  meInit := false
  meMode := .ecb
  meIv := zeros Config.params.blockSize
  meFb := zeros Config.params.blockSize
  meOff := 0
  meDelta := zeros Config.params.blockSize
  meFirst := false
  meDir := .none
  cmdStream := []
  responses := []
  draws := 0

end Sys2Proof.Machine
end

