-- ==== Sys2Proof/Machine/Ops.lean ====
section
/-! DEFINITION. The shared operations on the state: answering, failing, the transient registers, and how a command that
may stop part-way ends. -/

namespace Sys2Proof.Machine

/-- What a step answers. -/
abbrev Result := Host.Outcome State Fault Refusal

/-- Why a command's pseudocode stops before its `return`: `raise K` (spec/00_scope.md rule R9), or a case a model refuses
(spec/93_implementation_defined.md). -/
inductive Stop where
  | failure (kind : FailKind)
  | refusal (why : Refusal)
  deriving DecidableEq, Repr

/-- Send a response (spec/30_encoding.md rule R100: one per command, in order). -/
def State.respond (s : State) (r : Response) : State := { s with responses := s.responses ++ [r] }

/-- `return v`: status OK and the bytes `v` (spec/00_scope.md rule R9). -/
def finish (out : Bytes) (s : State) : Result := .next (s.respond (.ok out))

/-- FAILURE ENTRY (spec/60_exceptions.md rule R362): the response carries the kind and nothing else, no register changes,
and the engine is ready for the next command (rule R365: there is nothing to return from). -/
def fail (kind : FailKind) (s : State) : Result := .next (s.respond (.failure kind))

/-- How a command stopped in state `s` ends: `s` is the state before the command, so nothing its pseudocode wrote is kept
(rule R362; spec/42_mode_common.md rule R214). -/
def stopIn (s : State) : Stop → Result
  | .failure kind => fail kind s
  | .refusal why => .refused why

/-- Bring a partial function's value into a command: where the function has no value a model refuses (93 U6). -/
def inDomain {α : Type} : Option α → Except Stop α
  | some v => .ok v
  | none => .error (.refusal .outsideDomain)

/-- `b[q]`, a byte of a block. -/
def byteAt (b : Bytes) (q : Nat) : Except Stop Byte := inDomain b[q]?

/-- `FN.L`, `FN.R` and `FN.i` after block transforms have run: the spec leaves their values between transforms unspecified
(spec/10_state.md rule R22), so they are drawn. -/
def State.drawTransients (c : Params) (s : State) : State :=
  { s with
    fnL := tabulate c.half (c.freeL s.draws)
    fnR := tabulate c.half (c.freeR s.draws)
    fnI := c.drawRound s.draws
    draws := s.draws + 1 }

/-- `ME.IV` and `ME.FB` where the spec leaves them unspecified (rules R34, R35, R45; 93 U10). The draw is not counted
here. -/
def State.drawIv (c : Params) (s : State) : State :=
  { s with meIv := tabulate c.blockSize (c.freeIv s.draws), meFb := tabulate c.blockSize (c.freeFb s.draws) }

/-- `ME.DELTA` and `ME.FIRST` where the spec leaves them unspecified (rules R38, R45; 93 U10). The draw is not counted
here. -/
def State.drawDelta (c : Params) (s : State) : State :=
  { s with meDelta := tabulate c.blockSize (c.freeDelta s.draws), meFirst := c.freeFirst s.draws }

/-- One draw more has been made. -/
def State.countDraw (s : State) : State := { s with draws := s.draws + 1 }

/-- The transient registers after a command that ran `n` block transforms. -/
def State.afterTransforms (c : Params) (n : Nat) (s : State) : State := if n = 0 then s else s.drawTransients c

/-- Take the bytes of a frame off the command stream: `rest` is what follows them. -/
def State.consume (rest : Bytes) (s : State) : State := { s with cmdStream := rest }

end Sys2Proof.Machine
end

