-- ==== Sys2Proof/Machine/Flags.lean ====
section
/-! DEFINITION. The capability booleans of a mode (spec/10_state.md rule R31) and the flag the transform commands write
(rule R39). There are no condition codes (rule R30). -/

namespace Sys2Proof

/-- `RequiresPadding` (rule R31): the block-aligned modes. -/
def Mode.requiresPadding : Mode → Bool
  | .ecb => true
  | .cbc => true
  | .pcbc => true
  | .cfb => true
  | .ofb => false
  | .ctr => false
  | .rd => false

/-- `RequiresIV` (rule R31). -/
def Mode.requiresIv : Mode → Bool
  | .ecb => false
  | .cbc => true
  | .pcbc => true
  | .cfb => true
  | .ofb => true
  | .ctr => true
  | .rd => true

/-- The byte `ME_CAPS` answers: bit 0 `RequiresPadding`, bit 1 `RequiresIV` (spec/42_mode_common.md rule R206). -/
def Mode.capsByte (m : Mode) : Byte :=
  (if m.requiresPadding then 1 else 0) ||| (if m.requiresIv then 2 else 0)

namespace Machine

/-- `ME.DIR` after a successful transform of direction `d`: set if it was NONE (rule R39). -/
def Dir.latch (d : Dir) : Dir → Dir
  | .none => d
  | .enc => .enc
  | .dec => .dec

/-- The session is bound to the direction opposite to `d`. -/
def Dir.opposes (old d : Dir) : Bool :=
  match old, d with
  | .enc, .dec => true
  | .dec, .enc => true
  | _, _ => false

end Machine

end Sys2Proof
end

