-- ==== Sys2Proof/Machine/Operands.lean ====
section
/-! DEFINITION. The operands of the commands: the mode identifier, the seed (spec/30_encoding.md rules R103, R106), and
the checks each command makes of its state and operand before it does anything (spec/41_feistel.md rule R174;
spec/42_mode_common.md rule R210; spec/60_exceptions.md rule R360). -/

namespace Sys2Proof

/-- The mode a `SEL` byte names (rule R106); 7..255 name none. -/
def Mode.ofSel (sel : Byte) : Option Mode :=
  match sel.toNat with
  | 0 => some .ecb
  | 1 => some .cbc
  | 2 => some .pcbc
  | 3 => some .cfb
  | 4 => some .ofb
  | 5 => some .ctr
  | 6 => some .rd
  | _ => none

/-- The `SEL` byte of a mode (rule R106). -/
def Mode.sel : Mode → Byte
  | .ecb => 0
  | .cbc => 1
  | .pcbc => 2
  | .cfb => 3
  | .ofb => 4
  | .ctr => 5
  | .rd => 6

namespace Machine

/-- The seed as an integer, `sext_64(SEED)` (rule R103). -/
def seedInt (seed : BitVec 64) : Int := seed.toInt

/-- The key checks of `FN_INIT`: null, empty, wrong length (spec/41_feistel.md rule R172). -/
def keyCheck (c : Params) : Operand → Except Stop Bytes
  | none => .error (.failure .invalidArgument)
  | some key =>
    if key.length = 0 then .error (.failure .invalidArgument)
    else if ! c.keyLenOk key.length then .error (.failure .invalidArgument)
    else .ok key

/-- `FnCheck(block)` (spec/41_feistel.md rule R174). -/
def fnCheck (c : Params) (s : State) (block : Operand) : Except Stop Bytes :=
  if ! s.fnInit then .error (.failure .invalidState)
  else if s.fnRk.length ≠ c.rounds then .error (.failure .invalidState)
  else match block with
    | none => .error (.failure .invalidArgument)
    | some b => if b.length ≠ c.blockSize then .error (.failure .invalidArgument) else .ok b

/-- The IV checks of `ME_INIT` for a mode that requires one (spec/42_mode_common.md rule R202). -/
def ivCheck (c : Params) : Operand → Except Stop Bytes
  | none => .error (.failure .invalidArgument)
  | some iv => if iv.length ≠ c.blockSize then .error (.failure .invalidArgument) else .ok iv

/-- `MeCheck(data)` (spec/42_mode_common.md rule R210). -/
def meCheck (c : Params) (s : State) (data : Operand) : Except Stop Bytes :=
  if ! s.meInit then .error (.failure .invalidState)
  else if ! s.fnInit then .error (.failure .invalidState)
  else match data with
    | none => .error (.failure .invalidArgument)
    | some d =>
      if s.meMode.requiresPadding ∧ d.length % c.blockSize ≠ 0 then .error (.failure .invalidArgument) else .ok d

end Machine

end Sys2Proof
end

