-- ==== Sys2Proof/Machine/Feistel.lean ====
section
/-! DEFINITION. The Feistel network core FN (spec/41_feistel.md): the two networks, the block-cipher port, and the
meanings of `FN_INIT`, `FN_ENC`, `FN_DEC`, `FN_CAPS`. -/

namespace Sys2Proof.Machine

/-- One forward round on (`FN.L`, `FN.R`) with round key `k` (rule R176). -/
def encRound (c : Params) (p : Bytes × Bytes) (k : Bytes) : Option (Bytes × Bytes) := do
  let right ← xor p.1 (c.rf p.2 k)
  return (p.2, right)

/-- One backward round (rule R177). -/
def decRound (c : Params) (k : Bytes) (p : Bytes × Bytes) : Option (Bytes × Bytes) := do
  let left ← xor p.2 (c.rf p.1 k)
  return (left, p.1)

/-- The rounds of `FeistelEnc`: round keys first to last. -/
def encRounds (c : Params) : List Bytes → Bytes × Bytes → Option (Bytes × Bytes)
  | [], p => some p
  | k :: ks, p => do
    let q ← encRound c p k
    encRounds c ks q

/-- The rounds of `FeistelDec`: round keys last to first. -/
def decRounds (c : Params) : List Bytes → Bytes × Bytes → Option (Bytes × Bytes)
  | [], p => some p
  | k :: ks, p => do
    let q ← decRounds c ks p
    decRound c k q

/-- `FeistelEnc(block)` (rule R176); it has a value on blocks (rule R140). -/
def feistelEnc (c : Params) (rks : List Bytes) (block : Bytes) : Option Bytes := do
  let p ← splitHalves c.half block
  let q ← encRounds c rks p
  return q.1 ++ q.2

/-- `FeistelDec(block)` (rule R177); it has a value on blocks (rule R140). -/
def feistelDec (c : Params) (rks : List Bytes) (block : Bytes) : Option Bytes := do
  let p ← splitHalves c.half block
  let q ← decRounds c rks p
  return q.1 ++ q.2

/-- The block cipher's Encrypt after its checks: `ADAPT_SWAP` swaps the two networks and nothing else (rules R180,
R184). -/
def blockEnc (c : Params) (rks : List Bytes) (block : Bytes) : Option Bytes :=
  if c.adaptSwap then feistelDec c rks block else feistelEnc c rks block

/-- The block cipher's Decrypt after its checks (rules R181, R184). -/
def blockDec (c : Params) (rks : List Bytes) (block : Bytes) : Option Bytes :=
  if c.adaptSwap then feistelEnc c rks block else feistelDec c rks block

/-- `BC.E(block)` (rule R180). -/
def bcE (c : Params) (s : State) (block : Operand) : Except Stop Bytes :=
  match fnCheck c s block with
  | .error stop => .error stop
  | .ok b => inDomain (blockEnc c s.fnRk b)

/-- `BC.D(block)` (rule R181). -/
def bcD (c : Params) (s : State) (block : Operand) : Except Stop Bytes :=
  match fnCheck c s block with
  | .error stop => .error stop
  | .ok b => inDomain (blockDec c s.fnRk b)

/-- `FN_INIT key` (rule R172). -/
def fnInit (c : Params) (key : Operand) (s : State) : Result :=
  match keyCheck c key with
  | .error stop => stopIn s stop
  | .ok k =>
    if (c.ks k).length ≠ c.rounds then fail .invalidState s
    else finish [] { s with fnRk := c.ks k, fnInit := true }

/-- `FN_ENC block` (rule R178): the only registers a block transform touches are the transient ones. -/
def fnEnc (c : Params) (block : Operand) (s : State) : Result :=
  match bcE c s block with
  | .error stop => stopIn s stop
  | .ok out => finish out (s.drawTransients c)

/-- `FN_DEC block` (rule R179). -/
def fnDec (c : Params) (block : Operand) (s : State) : Result :=
  match bcD c s block with
  | .error stop => stopIn s stop
  | .ok out => finish out (s.drawTransients c)

/-- `be_4(B)`; where `B` does not fit 32 bits the spec gives the bytes no value and they are free (log entry 14). -/
def capsBlockSize (c : Params) : Bytes :=
  if c.blockSize < 2 ^ 32 then beBytes 4 c.blockSize else tabulate 4 c.wideCapsByte

/-- `FN_CAPS` (rule R183). -/
def fnCaps (c : Params) (s : State) : Result := finish (capsBlockSize c) s

/-- The meaning of `FN_INIT`. -/
def execFnInit (key : Operand) (s : State) : Result := fnInit Config.params key s

/-- The meaning of `FN_ENC`. -/
def execFnEnc (block : Operand) (s : State) : Result := fnEnc Config.params block s

/-- The meaning of `FN_DEC`. -/
def execFnDec (block : Operand) (s : State) : Result := fnDec Config.params block s

/-- The meaning of `FN_CAPS`. -/
def execFnCaps (s : State) : Result := fnCaps Config.params s

end Sys2Proof.Machine
end

