-- ==== Sys2Proof/Machine/BlockModes.lean ====
section
/-! DEFINITION. The block-aligned modes ECB, CBC, PCBC, CFB (spec/43_modes_block.md). A mode function answers the output
bytes and the state with the session registers it wrote; the command commits that state only if it ends OK
(spec/42_mode_common.md rule R214). -/

namespace Sys2Proof.Machine

/-- `Xor` on two blocks inside a command. -/
def xorIn (a b : Bytes) : Except Stop Bytes := inDomain (xor a b)

/-- One block step of a mode: from the input block `X_i` and `ME.FB`, the output block and the new `ME.FB`. -/
abbrev BlockStep := Bytes → Bytes → Except Stop (Bytes × Bytes)

/-- The loop `for i = 0 .. n-1` of every block-aligned mode: the outputs joined, and the last `ME.FB`. -/
def blockLoop (step : BlockStep) : List Bytes → Bytes → Except Stop (Bytes × Bytes)
  | [], fb => .ok ([], fb)
  | x :: xs, fb => do
    let (y, fb1) ← step x fb
    let (ys, fb2) ← blockLoop step xs fb1
    return (y ++ ys, fb2)

/-- `EcbEnc` (rule R230). -/
def ecbEncStep (c : Params) (s : State) : BlockStep := fun x fb => do
  let y ← bcE c s (some x)
  return (y, fb)

/-- `EcbDec` (rule R231). -/
def ecbDecStep (c : Params) (s : State) : BlockStep := fun x fb => do
  let y ← bcD c s (some x)
  return (y, fb)

/-- `CbcEnc` (rule R233). -/
def cbcEncStep (c : Params) (s : State) : BlockStep := fun x fb => do
  let y ← bcE c s (some (← xorIn x fb))
  return (y, y)

/-- `CbcDec` (rule R234): the feedback is the ciphertext block just consumed. -/
def cbcDecStep (c : Params) (s : State) : BlockStep := fun x fb => do
  let y ← xorIn (← bcD c s (some x)) fb
  return (y, x)

/-- `PcbcEnc` (rule R236). -/
def pcbcEncStep (c : Params) (s : State) : BlockStep := fun x fb => do
  let y ← bcE c s (some (← xorIn x fb))
  return (y, ← xorIn x y)

/-- `PcbcDec` (rule R237). -/
def pcbcDecStep (c : Params) (s : State) : BlockStep := fun x fb => do
  let y ← xorIn (← bcD c s (some x)) fb
  return (y, ← xorIn y x)

/-- `CfbEnc` (rule R240). -/
def cfbEncStep (c : Params) (s : State) : BlockStep := fun x fb => do
  let y ← xorIn x (← bcE c s (some fb))
  return (y, y)

/-- `CfbDec` (rule R241): `BC.E` again, never `BC.D`. -/
def cfbDecStep (c : Params) (s : State) : BlockStep := fun x fb => do
  let y ← xorIn x (← bcE c s (some fb))
  return (y, x)

/-- A block-aligned mode on whole input: `Split`, the loop, and `ME.OFF` advanced by `B` a block. -/
def blockMode (c : Params) (step : BlockStep) (data : Bytes) (s : State) : Except Stop (Bytes × State) := do
  let blocks ← inDomain (split c.blockSize data)
  let (out, fb) ← blockLoop step blocks s.meFb
  return (out, { s.afterTransforms c blocks.length with meFb := fb, meOff := s.meOff + c.blockSize * blocks.length })

end Sys2Proof.Machine
end

