-- ==== Sys2Proof/Machine/StreamModes.lean ====
section
/-! DEFINITION. The stream modes OFB and CTR (spec/44_modes_stream.md). -/

namespace Sys2Proof.Machine

/-- The keystream block in force at offset `off`: the next one on a block boundary, else `ME.FB` as it is (rule R262). -/
def ofbNext (c : Params) (s : State) (fb : Bytes) (off : Nat) : Except Stop Bytes :=
  if off % c.blockSize = 0 then bcE c s (some fb) else .ok fb

/-- The loop of `OfbXform` (rule R262) from feedback `fb` and offset `off`: the outputs, and the last `ME.FB`. -/
def ofbLoop (c : Params) (s : State) : Bytes → Bytes → Nat → Except Stop (Bytes × Bytes)
  | [], fb, _ => .ok ([], fb)
  | d :: ds, fb, off => do
    let fb1 ← ofbNext c s fb off
    let k ← byteAt fb1 (off % c.blockSize)
    let (out, fb2) ← ofbLoop c s ds fb1 (off + 1)
    return ((d ^^^ k) :: out, fb2)

/-- How many of the `n` offsets from `off` on lie on a block boundary: the keystream blocks `OfbXform` generates. -/
def boundaries (size off n : Nat) : Nat := ((List.range n).filter fun j => (off + j) % size = 0).length

/-- `OfbXform(data)` (rule R262). -/
def ofbXform (c : Params) (data : Bytes) (s : State) : Except Stop (Bytes × State) := do
  let (out, fb) ← ofbLoop c s data s.meFb s.meOff
  return (out, { s.afterTransforms c (boundaries c.blockSize s.meOff data.length) with
    meFb := fb, meOff := s.meOff + data.length })

/-- The loop of `CtrXform` and `RdBody` (rules R265, R287): byte `off` of the body under keystream block
`off div B`, `ks` giving the blocks. -/
def keystreamLoop (size : Nat) (ks : Nat → Except Stop Bytes) : Bytes → Nat → Except Stop Bytes
  | [], _ => .ok []
  | d :: ds, off => do
    let k ← byteAt (← ks (off / size)) (off % size)
    let out ← keystreamLoop size ks ds (off + 1)
    return (d ^^^ k) :: out

/-- `CtrKs(i)` (rule R265). -/
def ctrKs (c : Params) (s : State) (i : Nat) : Except Stop Bytes := do
  let block ← inDomain (ctrAdd s.meIv i)
  bcE c s (some block)

/-- `CtrXform(data)` (rule R265); on an instance with `B < 8` a model refuses (rule R268). -/
def ctrXform (c : Params) (data : Bytes) (s : State) : Except Stop (Bytes × State) := do
  if c.blockSize < 8 then .error (.refusal .ctrBlockTooSmall)
  else
    let out ← keystreamLoop c.blockSize (ctrKs c s) data s.meOff
    return (out, { s.afterTransforms c data.length with meOff := s.meOff + data.length })

end Sys2Proof.Machine
end

