-- ==== Sys2Proof/WellFormed.lean ====
section
/-! DEFINITION. Which commands a frame can carry: an operand is at most `MAX_LEN` bytes (spec/00_scope.md rule R4;
spec/30_encoding.md rule R102). -/

namespace Sys2Proof

/-- `MAX_LEN`, the largest payload length (rules R4, R102). -/
def maxLen : Nat := 2 ^ 32 - 1

/-- An operand fits the 32-bit `LEN` field. -/
def Operand.wf : Operand → Bool
  | none => true
  | some pay => pay.length ≤ maxLen

/-- A command some frame carries. -/
def Instr.wf : Instr → Bool
  | .sysReset => true
  | .fnInit key => Operand.wf key
  | .fnEnc block => Operand.wf block
  | .fnDec block => Operand.wf block
  | .fnCaps => true
  | .meInit _ iv _ => Operand.wf iv
  | .meEnc data => Operand.wf data
  | .meDec data => Operand.wf data
  | .meCaps _ => true

end Sys2Proof
end

