-- ==== Sys2Proof/Machine/RandomDelta.lean ====
section
/-! DEFINITION. The Random-Delta mode (spec/45_mode_rd.md). -/

namespace Sys2Proof.Machine

/-- `RdInitialDelta(iv, seed)` (rule R282). -/
def rdInitialDelta (c : Params) (iv : Bytes) : Option (BitVec 64) → Bytes
  | some seed => c.deltaFromSeed (seedInt seed)
  | none => c.deltaFromIv iv

/-- The counter block `IV +_mod delta *_mod i` (rule R284). -/
def rdCounter (iv delta : Bytes) (i : Nat) : Option Bytes := do
  let product ← mulMod32 delta i
  addMod iv product

/-- `RdKs(i)` under stride `delta` (rule R284); from index `2^32` on a model refuses (rule R285). -/
def rdKs (c : Params) (s : State) (delta : Bytes) (i : Nat) : Except Stop Bytes := do
  if 2 ^ 32 ≤ i then .error (.refusal .rdIndexTooLarge)
  else
    let block ← inDomain (rdCounter s.meIv delta i)
    bcE c s (some block)

/-- `RdBody(data)` under stride `delta` (rule R287). -/
def rdBody (c : Params) (s : State) (delta data : Bytes) : Except Stop Bytes :=
  keystreamLoop c.blockSize (rdKs c s delta) data s.meOff

/-- The header block of the first encryption, empty on later ones (rule R286). -/
def rdHeader (c : Params) (s : State) : Except Stop Bytes :=
  if s.meFirst then bcE c s (some s.meDelta) else .ok []

/-- `RdEnc(data)` (rule R286); a first result longer than `MAX_LEN` a model refuses (spec/30_encoding.md rule R112). -/
def rdEnc (c : Params) (data : Bytes) (s : State) : Except Stop (Bytes × State) := do
  let hdr ← rdHeader c s
  if s.meFirst ∧ maxLen < data.length + c.blockSize then .error (.refusal .resultTooLong)
  else
    let body ← rdBody c s s.meDelta data
    return (hdr ++ body, { s.afterTransforms c ((if s.meFirst then 1 else 0) + data.length) with
      meFirst := false, meOff := s.meOff + data.length })

/-- What the first decryption takes off the front of its input, and the stride it recovers (rule R288): the stride in force
and the body. -/
def rdOpen (c : Params) (s : State) (data : Bytes) : Except Stop (Bytes × Bytes) :=
  if s.meFirst then
    if data.length < c.blockSize then .error (.failure .invalidArgument)
    else do
      let delta ← bcD c s (some (data.take c.blockSize))
      return (delta, data.drop c.blockSize)
  else .ok (s.meDelta, data)

/-- `RdDec(data)` (rule R288). -/
def rdDec (c : Params) (data : Bytes) (s : State) : Except Stop (Bytes × State) := do
  let (delta, body) ← rdOpen c s data
  let out ← rdBody c s delta body
  return (out, { s.afterTransforms c ((if s.meFirst then 1 else 0) + body.length) with
    meDelta := delta, meFirst := false, meOff := s.meOff + body.length })

end Sys2Proof.Machine
end

