-- ==== Sys2Proof/Machine/ModeEngine.lean ====
section
/-! DEFINITION. The mode engine's commands `ME_INIT`, `ME_ENC`, `ME_DEC`, `ME_CAPS` (spec/42_mode_common.md). -/

namespace Sys2Proof.Machine

/-- The registers every successful `ME_INIT` writes, whatever the mode (rule R202). -/
def State.openSession (m : Mode) (s : State) : State :=
  { s with meMode := m, meOff := 0, meDir := .none, meInit := true }

/-- `ME.IV` and `ME.FB` from the IV (rule R202). -/
def State.loadIv (iv : Bytes) (s : State) : State := { s with meIv := iv, meFb := iv }

/-- `ME.DELTA` and `ME.FIRST` at the opening of an RD session (rule R202). -/
def State.loadDelta (delta : Bytes) (s : State) : State := { s with meDelta := delta, meFirst := true }

/-- The session of a mode that requires an IV, the IV checked. Outside RD `ME.DELTA` and `ME.FIRST` are unspecified, hence
drawn (rule R38; 93 U10; log entry 7). -/
def openWithIv (c : Params) (m : Mode) (iv : Bytes) (seed : Option (BitVec 64)) (s : State) : State :=
  let t := (s.openSession m).loadIv iv
  if m = .rd then t.loadDelta (rdInitialDelta c iv seed) else (t.drawDelta c).countDraw

/-- The session of a mode that requires no IV: the IV operand is not looked at, and the registers that the mode does not use
are unspecified, hence drawn (rules R34, R35, R38; 93 U10; log entry 7). -/
def openWithoutIv (c : Params) (m : Mode) (s : State) : State :=
  (((s.openSession m).drawIv c).drawDelta c).countDraw

/-- `ME_INIT mode iv [seed]` (rule R202). CTR on an instance with `B < 8` a model refuses (spec/44_modes_stream.md
rule R268; log entry 10). -/
def meInit (c : Params) (sel : Byte) (iv : Operand) (seed : Option (BitVec 64)) (s : State) : Result :=
  match Mode.ofSel sel with
  | none => fail .unsupported s
  | some m =>
    if m = .ctr ∧ c.blockSize < 8 then .refused .ctrBlockTooSmall
    else if m.requiresIv then
      match ivCheck c iv with
      | .error stop => stopIn s stop
      | .ok v => finish [] (openWithIv c m v seed s)
    else finish [] (openWithoutIv c m s)

/-- `ME_CAPS mode` (rule R206). -/
def meCaps (sel : Byte) (s : State) : Result :=
  match Mode.ofSel sel with
  | none => fail .unsupported s
  | some m => finish [m.capsByte] s

/-- The encrypting mode function of a session (the case list of rule R212). -/
def modeEnc (c : Params) (data : Bytes) (s : State) : Except Stop (Bytes × State) :=
  match s.meMode with
  | .ecb => blockMode c (ecbEncStep c s) data s
  | .cbc => blockMode c (cbcEncStep c s) data s
  | .pcbc => blockMode c (pcbcEncStep c s) data s
  | .cfb => blockMode c (cfbEncStep c s) data s
  | .ofb => ofbXform c data s
  | .ctr => ctrXform c data s
  | .rd => rdEnc c data s

/-- The decrypting mode function of a session (the case list of rule R213). -/
def modeDec (c : Params) (data : Bytes) (s : State) : Except Stop (Bytes × State) :=
  match s.meMode with
  | .ecb => blockMode c (ecbDecStep c s) data s
  | .cbc => blockMode c (cbcDecStep c s) data s
  | .pcbc => blockMode c (pcbcDecStep c s) data s
  | .cfb => blockMode c (cfbDecStep c s) data s
  | .ofb => ofbXform c data s
  | .ctr => ctrXform c data s
  | .rd => rdDec c data s

/-- The direction rule: in every mode but ECB a transform against the session's direction is refused (rules R39, R212,
R213; 93 U1). -/
def directionCheck (s : State) (d : Dir) : Except Stop Unit :=
  if s.meMode ≠ .ecb ∧ Dir.opposes s.meDir d then .error (.refusal .directionMixed) else .ok ()

/-- The offset limit (93 U2). -/
def offsetCheck (c : Params) (s : State) : Except Stop Unit :=
  if c.maxOff < s.meOff then .error (.refusal .offsetOverflow) else .ok ()

/-- `ME_ENC` and `ME_DEC` up to their `return`, `run` being the mode function: the output and the state to commit. -/
def transform (c : Params) (d : Dir) (run : Bytes → State → Except Stop (Bytes × State)) (data : Operand) (s : State) :
    Except Stop (Bytes × State) := do
  let input ← meCheck c s data
  directionCheck s d
  let (out, t) ← run input s
  offsetCheck c t
  return (out, { t with meDir := Dir.latch d t.meDir })

/-- End a transform: commit and answer, or stop with the state as it was (rule R214). -/
def commit (s : State) : Except Stop (Bytes × State) → Result
  | .error stop => stopIn s stop
  | .ok (out, t) => finish out t

/-- `ME_ENC data` (rule R212). -/
def meEnc (c : Params) (data : Operand) (s : State) : Result := commit s (transform c .enc (modeEnc c) data s)

/-- `ME_DEC data` (rule R213). -/
def meDec (c : Params) (data : Operand) (s : State) : Result := commit s (transform c .dec (modeDec c) data s)

/-- The meaning of `ME_INIT`. -/
def execMeInit (sel : Byte) (iv : Operand) (seed : Option (BitVec 64)) (s : State) : Result :=
  meInit Config.params sel iv seed s

/-- The meaning of `ME_ENC`. -/
def execMeEnc (data : Operand) (s : State) : Result := meEnc Config.params data s

/-- The meaning of `ME_DEC`. -/
def execMeDec (data : Operand) (s : State) : Result := meDec Config.params data s

/-- The meaning of `ME_CAPS`. -/
def execMeCaps (sel : Byte) (s : State) : Result := meCaps sel s

end Sys2Proof.Machine
end

