-- ==== Sys2Proof/Machine/System.lean ====
section
/-! DEFINITION. `SYS_RESET` (spec/70_reset_and_hazards.md rule R391). -/

namespace Sys2Proof.Machine

/-- The registers after `SYS_RESET`: those of rule R45 at their reset values, the others unspecified, hence drawn
(rule R391; 93 U10, U11). The two streams are the interface's, not the engine's, and stand
(log entry 20). -/
def State.sysReset (c : Params) (s : State) : State :=
  { ((s.drawIv c).drawDelta c).drawTransients c with
    fnInit := false
    fnRk := []
    meInit := false
    meMode := c.freeMode s.draws
    meOff := 0
    meDir := .none }

/-- `SYS_RESET` (rule R391). -/
def sysReset (c : Params) (s : State) : Result := finish [] (s.sysReset c)

/-- The meaning of `SYS_RESET`. -/
def execSysReset (s : State) : Result := sysReset Config.params s

end Sys2Proof.Machine
end

