-- ==== Sys2Proof/Machine/Dispatch.lean ====
section
/-! DEFINITION. `exec`: one arm a command, each one direct call of that command's meaning. -/

namespace Sys2Proof.Machine

def exec (i : Instr) (s : State) : Host.Outcome State Fault Refusal :=
  match i with
  | .sysReset => Sys2Proof.Machine.execSysReset s
  | .fnInit key => Sys2Proof.Machine.execFnInit key s
  | .fnEnc block => Sys2Proof.Machine.execFnEnc block s
  | .fnDec block => Sys2Proof.Machine.execFnDec block s
  | .fnCaps => Sys2Proof.Machine.execFnCaps s
  | .meInit sel iv seed => Sys2Proof.Machine.execMeInit sel iv seed s
  | .meEnc data => Sys2Proof.Machine.execMeEnc data s
  | .meDec data => Sys2Proof.Machine.execMeDec data s
  | .meCaps sel => Sys2Proof.Machine.execMeCaps sel s

end Sys2Proof.Machine
end

