-- ==== Sys2Proof/Decode.lean ====
section
/-! DEFINITION. Command frames (spec/30_encoding.md rules R101 to R108): reading one off the front of the command stream,
rejecting a malformed one by name, and writing one; response frames (rules R110, R111). -/

namespace Sys2Proof

open Machine (be beBytes)

/-- The nine commands as `OPC` names them (rule R104). -/
inductive Opcode where
  | sysReset | fnInit | fnEnc | fnDec | fnCaps | meInit | meEnc | meDec | meCaps
  deriving DecidableEq, Repr

/-- Every command, in the table's order. -/
def Opcode.all : List Opcode :=
  [.sysReset, .fnInit, .fnEnc, .fnDec, .fnCaps, .meInit, .meEnc, .meDec, .meCaps]

/-- `OPC`, frame byte 0 (rule R104). -/
def Opcode.code : Opcode → Byte
  | .sysReset => 0x01
  | .fnInit => 0x10
  | .fnEnc => 0x11
  | .fnDec => 0x12
  | .fnCaps => 0x13
  | .meInit => 0x20
  | .meEnc => 0x21
  | .meDec => 0x22
  | .meCaps => 0x23

/-- The bits of `CW` that must be 0 (rule R105). -/
def Opcode.mbz : Opcode → BitVec 32
  | .sysReset => 0x00FFFFFF
  | .fnInit => 0x00FEFFFF
  | .fnEnc => 0x00FEFFFF
  | .fnDec => 0x00FEFFFF
  | .fnCaps => 0x00FFFFFF
  | .meInit => 0x00FC00FF
  | .meEnc => 0x00FEFFFF
  | .meDec => 0x00FEFFFF
  | .meCaps => 0x00FF00FF

/-- Commands that take no payload: their `LEN` must be 0 (rule R105). -/
def Opcode.noPayload : Opcode → Bool
  | .sysReset => true
  | .fnCaps => true
  | .meCaps => true
  | .fnInit => false
  | .fnEnc => false
  | .fnDec => false
  | .meInit => false
  | .meEnc => false
  | .meDec => false

/-- The command an `OPC` byte names, if any (rule R108 step 1). -/
def Opcode.ofByte (b : Byte) : Option Opcode := Opcode.all.find? fun op => op.code == b

/-- A command frame as its fields (rule R101). -/
structure Frame where
  /-- `CW`, frame bytes 0..3 as one big-endian word: `OPC`, `FLG`, `SEL`, `RSV`. -/
  cw : BitVec 32
  /-- `SEED`, frame bytes 8..15. -/
  seed : BitVec 64
  /-- `PAY`, `LEN` bytes. -/
  pay : Bytes
  deriving DecidableEq, Repr

/-- `OPC`, `CW[31:24]`. -/
def Frame.opc (f : Frame) : Byte := f.cw.extractLsb' 24 8
/-- `NP`, bit 0 of `FLG`: the operand is null. -/
def Frame.np (f : Frame) : Bool := f.cw.getLsbD 16
/-- `SV`, bit 1 of `FLG`: the seed is valid. -/
def Frame.sv (f : Frame) : Bool := f.cw.getLsbD 17
/-- `SEL`, `CW[15:8]`. -/
def Frame.sel (f : Frame) : Byte := f.cw.extractLsb' 8 8

/-- The first whole frame of a byte stream and the bytes after it (rule R102: a frame is `16 + LEN` bytes); `none` while
the frame has not wholly arrived (rule R100). -/
def readFrame : Bytes → Option (Frame × Bytes)
  | b0 :: b1 :: b2 :: b3 :: l0 :: l1 :: l2 :: l3 ::
    s0 :: s1 :: s2 :: s3 :: s4 :: s5 :: s6 :: s7 :: tail =>
    let len := be [l0, l1, l2, l3]
    if tail.length < len then none
    else
      some (⟨BitVec.ofNat 32 (be [b0, b1, b2, b3]), BitVec.ofNat 64 (be [s0, s1, s2, s3, s4, s5, s6, s7]),
        tail.take len⟩, tail.drop len)
  | _ => none

/-- Why a frame names no command (rule R108). -/
inductive FrameError where
  /-- Step 1: `OPC` is none of the nine. -/
  | unknownOpcode
  /-- Step 2: a must-be-zero bit is 1. -/
  | reservedBitSet
  /-- Step 3: `NP = 1` and `LEN != 0`. -/
  | nullWithPayload
  /-- Step 3: a payload where the command takes none. -/
  | unexpectedPayload
  deriving DecidableEq, Repr

/-- The failure kind a malformed frame is answered with (rule R108). -/
def FrameError.kind : FrameError → FailKind
  | .unknownOpcode => .unsupported
  | .reservedBitSet => .invalidArgument
  | .nullWithPayload => .invalidArgument
  | .unexpectedPayload => .invalidArgument

/-- The frame checks, in their order (rule R108). -/
def checkFrame (f : Frame) : Except FrameError Opcode :=
  match Opcode.ofByte f.opc with
  | none => .error .unknownOpcode
  | some op =>
    if f.cw &&& op.mbz ≠ 0 then .error .reservedBitSet
    else if f.np ∧ f.pay.length ≠ 0 then .error .nullWithPayload
    else if op.noPayload ∧ f.pay.length ≠ 0 then .error .unexpectedPayload
    else .ok op

/-- The operand: null when `NP = 1`, else the payload (rule R103). -/
def Frame.operand (f : Frame) : Operand := if f.np then none else some f.pay

/-- The command of a frame that passed the checks (rules R103, R104). -/
def Frame.instr (f : Frame) : Opcode → Instr
  | .sysReset => .sysReset
  | .fnInit => .fnInit f.operand
  | .fnEnc => .fnEnc f.operand
  | .fnDec => .fnDec f.operand
  | .fnCaps => .fnCaps
  | .meInit => .meInit f.sel f.operand (if f.sv then some f.seed else none)
  | .meEnc => .meEnc f.operand
  | .meDec => .meDec f.operand
  | .meCaps => .meCaps f.sel

/-- What stands at the front of a command stream. -/
inductive Decoded where
  /-- No whole frame yet (rule R100). -/
  | waiting
  /-- A whole frame that names no command, and the bytes after it (rule R108). -/
  | rejected (why : FrameError) (rest : Bytes)
  /-- A command, and the bytes after its frame. -/
  | command (i : Instr) (rest : Bytes)
  deriving DecidableEq, Repr

/-- The decoder, total on any bytes. -/
def decode (stream : Bytes) : Decoded :=
  match readFrame stream with
  | none => .waiting
  | some (f, rest) =>
    match checkFrame f with
    | .error why => .rejected why rest
    | .ok op => .command (f.instr op) rest

/-- The opcode of a command. -/
def Instr.opcode : Instr → Opcode
  | .sysReset => .sysReset
  | .fnInit _ => .fnInit
  | .fnEnc _ => .fnEnc
  | .fnDec _ => .fnDec
  | .fnCaps => .fnCaps
  | .meInit _ _ _ => .meInit
  | .meEnc _ => .meEnc
  | .meDec _ => .meDec
  | .meCaps _ => .meCaps

/-- The operand of a command; a command that takes none has the empty payload and `NP = 0`. -/
def Instr.operand : Instr → Operand
  | .sysReset => some []
  | .fnInit key => key
  | .fnEnc block => block
  | .fnDec block => block
  | .fnCaps => some []
  | .meInit _ iv _ => iv
  | .meEnc data => data
  | .meDec data => data
  | .meCaps _ => some []

/-- The payload bytes of a command's frame. -/
def Instr.payload (i : Instr) : Bytes := i.operand.getD []

/-- The `SEL` byte of a command's frame: 0 where the command does not use it (rule R101). -/
def Instr.sel : Instr → Byte
  | .meInit sel _ _ => sel
  | .meCaps sel => sel
  | .sysReset => 0
  | .fnInit _ => 0
  | .fnEnc _ => 0
  | .fnDec _ => 0
  | .fnCaps => 0
  | .meEnc _ => 0
  | .meDec _ => 0

/-- The seed of a command, if it carries one. -/
def Instr.seed : Instr → Option (BitVec 64)
  | .meInit _ _ seed => seed
  | .sysReset => none
  | .fnInit _ => none
  | .fnEnc _ => none
  | .fnDec _ => none
  | .fnCaps => none
  | .meEnc _ => none
  | .meDec _ => none
  | .meCaps _ => none

/-- `FLG`, frame byte 1: bit 0 `NP`, bit 1 `SV` (rule R101). -/
def Instr.flags (i : Instr) : Byte :=
  (if i.operand.isNone then 1 else 0) ||| (if i.seed.isSome then 2 else 0)

/-- The frame of a command (rules R101, R103): `OPC FLG SEL RSV | LEN | SEED | PAY`. -/
def encode (i : Instr) : Bytes :=
  [i.opcode.code, i.flags, i.sel, 0] ++ beBytes 4 i.payload.length ++ beBytes 8 (i.seed.getD 0).toNat ++ i.payload

/-- The status codes (rule R111). -/
def FailKind.code : FailKind → Byte
  | .invalidArgument => 1
  | .invalidState => 2
  | .unsupported => 3
  | .dataIntegrity => 4
  | .io => 5

/-- The failure kind of a status code; 0 is OK and 6..255 are reserved (rule R111). -/
def FailKind.ofCode (b : Byte) : Option FailKind :=
  [FailKind.invalidArgument, .invalidState, .unsupported, .dataIntegrity, .io].find? fun k => k.code == b

/-- The frame of a response (rule R110): `STATUS 0 0 0 | LEN | PAY`. -/
def Response.encode : Response → Bytes
  | .ok pay => [0, 0, 0, 0] ++ beBytes 4 pay.length ++ pay
  | .failure k => [k.code, 0, 0, 0] ++ beBytes 4 0

/-- A response read off the front of a response stream, as a host reads it (rules R102, R110, R111). -/
def Response.decode : Bytes → Option (Response × Bytes)
  | st :: r1 :: r2 :: r3 :: l0 :: l1 :: l2 :: l3 :: tail =>
    let len := be [l0, l1, l2, l3]
    if r1 ≠ 0 ∨ r2 ≠ 0 ∨ r3 ≠ 0 ∨ tail.length < len then none
    else if st = 0 then some (.ok (tail.take len), tail.drop len)
    else match FailKind.ofCode st with
      | some k => if len = 0 then some (.failure k, tail) else none
      | none => none
  | _ => none

/-- Byte `k` of a frame whose bits stand in `w` as spec/opcode_table.json numbers them: 32-bit big-endian words, the first
(`CW`) in bits 31..0, a later word's bits counting on from it. -/
def tableByte (w k : Nat) : Byte := BitVec.ofNat 8 (w / 2 ^ (32 * (k / 4) + 8 * (3 - k % 4)))

/-- The frame whose first `nbits` bits are `w` and whose other bits are 0: header, then the payload its `LEN` counts. -/
def tableFrame (nbits w : Nat) : Bytes :=
  let v := w % 2 ^ nbits
  let hdr := (List.range 16).map (tableByte v)
  hdr ++ (List.range (be ((hdr.drop 4).take 4))).map fun k => tableByte v (16 + k)

/-- The instruction the decoder reads from a table word. -/
def decodeTableWord (nbits w : Nat) : Option Instr :=
  match decode (tableFrame nbits w) with
  | .command i _ => some i
  | .rejected _ _ => none
  | .waiting => none

end Sys2Proof
end

