-- ==== Sys2Proof/Machine/Fetch.lean ====
section
/-! DEFINITION. Taking the next command off the command stream (spec/20_memory.md rule R70; spec/30_encoding.md rules
R100, R108), and the commands on an instance that is given, for claims about a named instance. -/

namespace Sys2Proof.Machine

/-- Take one command frame and run its command with `run`. With no whole frame in the stream the engine waits and nothing
changes (rule R100; log entry 3); a malformed frame is consumed whole and answered with its failure (rule R108). -/
def runNext (run : Instr → State → Result) (s : State) : Result :=
  match decode s.cmdStream with
  | .waiting => .next s
  | .rejected why rest => fail why.kind (s.consume rest)
  | .command i rest => run i (s.consume rest)

/-- The commands on the instance `c`. `exec` is this at the machine's own instance. -/
def execOn (c : Params) : Instr → State → Result
  | .sysReset, s => sysReset c s
  | .fnInit key, s => fnInit c key s
  | .fnEnc block, s => fnEnc c block s
  | .fnDec block, s => fnDec c block s
  | .fnCaps, s => fnCaps c s
  | .meInit sel iv seed, s => meInit c sel iv seed s
  | .meEnc data, s => meEnc c data s
  | .meDec data, s => meDec c data s
  | .meCaps sel, s => meCaps sel s

end Sys2Proof.Machine
end

