-- ==== Sys2Proof/Machine/Step.lean ====
section
/-! DEFINITION. One step: the engine takes the next command of its command stream and runs it to completion
(spec/20_memory.md rules R69, R70). -/

namespace Sys2Proof.Machine

/-- One step of the machine. -/
def step (s : State) : Host.Outcome State Fault Refusal := runNext exec s

/-- `s` with the frame of a table word as the next one in its command stream. -/
def State.withFetchWord (s : State) (nbits w : Nat) : State := { s with cmdStream := tableFrame nbits w ++ s.cmdStream }

end Sys2Proof.Machine
end

