-- ==== Sys2Proof/Machine/HostPadding.lean ====
section
/-! DEFINITION. The padding provider of the host side (spec/46_host_padding_context.md section 1). It is software around the
engine, not part of it (rule R310); no command runs it. -/

namespace Sys2Proof.Machine

/-- The four schemes (rule R311). -/
inductive PadScheme where
  | zeros | pkcs7 | ansiX923 | iso10126
  deriving DecidableEq, Repr

/-- How a host-side call ends without a result: a failure kind, or a case a model refuses. -/
inductive HostStop where
  | failure (kind : FailKind)
  /-- U8: a scheme with a length byte and `B > 255`. Safe. -/
  | padBlockTooLarge
  /-- A chunk buffer smaller than a block: the spec does not say what happens (rule R335; 91 N14). Safe. -/
  | bufferTooSmall
  /-- An operand longer than `MAX_LEN`, which no frame carries (spec/30_encoding.md rule R102; log entry 25). Safe. -/
  | operandTooLong
  /-- A command of the call is one that the model of the engine refuses (spec/93_implementation_defined.md). The stop is
  safe; the engine state given back beside it is a DESIGN CHOICE and unsafe (log entry 25). -/
  | refused (why : Refusal)
  /-- The engine took the command and sent no response, which rule R100 excludes; no command ends so. Safe. -/
  | noResponse
  deriving DecidableEq, Repr

/-- The scheme of a padding identifier, Unsupported for an unknown one (spec/30_encoding.md rule R107; rule R311). -/
def PadScheme.ofId (id : Nat) : Except HostStop PadScheme :=
  match id with
  | 0 => .ok .zeros
  | 1 => .ok .pkcs7
  | 2 => .ok .ansiX923
  | 3 => .ok .iso10126
  | _ => .error (.failure .unsupported)

/-- The pad length of the three schemes with a length byte, 1 to `B` (rule R311). -/
def padLen (size : Nat) (data : Bytes) : Nat := size - data.length % size

/-- The padding bytes but the last, of a scheme with a length byte `n` (rules R314, R316, R318); `filler` gives the free
filler bytes of ISO 10126 (93 U7). -/
def padFill (filler : Nat → Byte) (n : Nat) : PadScheme → Bytes
  | .zeros => []
  | .pkcs7 => List.replicate (n - 1) (BitVec.ofNat 8 n)
  | .ansiX923 => zeros (n - 1)
  | .iso10126 => tabulate (n - 1) filler

/-- `Apply(data, B, Zeros)` (rule R312). -/
def applyZeros (size : Nat) (data : Bytes) : Bytes :=
  if data.length % size = 0 then data else data ++ zeros (size - data.length % size)

/-- `Apply(data, B, scheme)` (rules R312 to R318). -/
def applyPad (filler : Nat → Byte) (size : Nat) (scheme : PadScheme) (data : Bytes) : Except HostStop Bytes :=
  if scheme = .zeros then .ok (applyZeros size data)
  else if 255 < size then .error .padBlockTooLarge
  else
    let n := padLen size data
    .ok (data ++ padFill filler n scheme ++ [BitVec.ofNat 8 n])

/-- `Remove(data, Zeros)`: every trailing zero byte goes (rule R313). -/
def removeZeros (data : Bytes) : Bytes := (data.reverse.dropWhile fun b => b == 0).reverse

/-- The bytes between the kept ones and the length byte are what the scheme put there (rules R315, R317, R319). -/
def fillOk (n : Nat) (fill : Bytes) : PadScheme → Bool
  | .zeros => true
  | .pkcs7 => fill.all fun b => b == BitVec.ofNat 8 n
  | .ansiX923 => fill.all fun b => b == 0
  | .iso10126 => true

/-- `Remove(data, scheme)` (rules R313 to R319); an empty buffer fails but for Zeros (rule R323). DESIGN CHOICE (log entry
19): the refusal of a scheme with a length byte on `B > 255` (rule R311; 93 U8) stands in `applyPad` alone; removal does not
read `B` and answers for every instance. -/
def removePad (scheme : PadScheme) (data : Bytes) : Except HostStop Bytes :=
  if scheme = .zeros then .ok (removeZeros data)
  else match data.getLast? with
    | none => .error (.failure .dataIntegrity)
    | some last =>
      let n := last.toNat
      if n < 1 ∨ data.length < n then .error (.failure .dataIntegrity)
      else if fillOk n ((data.drop (data.length - n)).take (n - 1)) scheme then .ok (data.take (data.length - n))
      else .error (.failure .dataIntegrity)

end Sys2Proof.Machine
end

