-- ==== Sys2Proof/Machine/HostContext.lean ====
section
/-! DEFINITION. The cipher context of the host side and its chunked variant (spec/46_host_padding_context.md sections 2
and 3), as what the host sends to an engine and does with the answers; the pseudo-commands of spec/30_encoding.md
rule R115 are the one-shot pair. Host software, not part of the engine (rule R310). -/

namespace Sys2Proof.Machine

/-- The host puts a command's frame at the end of the command stream (spec/30_encoding.md rule R100). -/
def State.send (i : Instr) (s : State) : State := { s with cmdStream := s.cmdStream ++ encode i }

/-- The bytes on the response stream (spec/30_encoding.md rule R110). -/
def State.responseBytes (s : State) : Bytes := s.responses.flatMap Response.encode

/-- The buffer `Ctx.Encrypt` hands to the mode (rule R330). -/
def ctxBuffer (c : Params) (filler : Nat → Byte) (m : Mode) (scheme : PadScheme) (plain : Bytes) :
    Except HostStop Bytes :=
  if m.requiresPadding then applyPad filler c.blockSize scheme plain else .ok plain

/-- `Ctx.Encrypt(plaintext)` up to the one command it sends (rules R330, R115). -/
def ctxEncrypt (c : Params) (filler : Nat → Byte) (m : Mode) (scheme : PadScheme) : Operand → Except HostStop Instr
  | none => .error (.failure .invalidArgument)
  | some plain => do
    let buf ← ctxBuffer c filler m scheme plain
    return .meEnc (some buf)

/-- `Ctx.Decrypt(ciphertext)` up to the one command it sends (rules R331, R115). -/
def ctxDecrypt : Operand → Except HostStop Instr
  | none => .error (.failure .invalidArgument)
  | some cipher => .ok (.meDec (some cipher))

/-- The response to `Ctx.Encrypt`'s command is the call's result, its failure the failure of the call (rule R330). -/
def ctxSealed : Response → Except HostStop Bytes
  | .failure kind => .error (.failure kind)
  | .ok out => .ok out

/-- What the host makes of the response to `Ctx.Decrypt`'s command (rule R331). The padding comes off whatever `B` is
(DESIGN CHOICE, log entry 19: `B > 255` is refused on the way in only). -/
def ctxOpened (m : Mode) (scheme : PadScheme) : Response → Except HostStop Bytes
  | .failure kind => .error (.failure kind)
  | .ok buf => if m.requiresPadding then removePad scheme buf else .ok buf

/-- The chunk size for a host buffer of `room` bytes (rule R335). -/
def chunkSize (room size : Nat) : Nat := room - room % size

/-- `data` cut into pieces of `n` bytes, the last one shorter where it does not fit; `fuel` bounds the pieces. DESIGN CHOICE
(log entry 22): where the length is a multiple of `n` no empty piece follows, so the last full chunk takes the padding; rule
R337 does not say whether an empty final chunk takes it, and says the bytes are the same. -/
def pieces (n : Nat) : Nat → Bytes → List Bytes
  | 0, data => [data]
  | fuel + 1, data => if data.length ≤ n then [data] else data.take n :: pieces n fuel (data.drop n)

/-- The input as the chunks the host reads; an empty input is one empty chunk. -/
def chunks (room size : Nat) (data : Bytes) : Except HostStop (List Bytes) :=
  if chunkSize room size = 0 then .error .bufferTooSmall
  else .ok (pieces (chunkSize room size) data.length data)

/-- The chunks as `ME_ENC` commands: the padding goes on the last one only (rules R336, R337). -/
def padLastChunk (c : Params) (filler : Nat → Byte) (m : Mode) (scheme : PadScheme) :
    List Bytes → Except HostStop (List Instr)
  | [] => .ok []
  | [last] => do
    let buf ← ctxBuffer c filler m scheme last
    return [.meEnc (some buf)]
  | x :: y :: rest => do
    let cmds ← padLastChunk c filler m scheme (y :: rest)
    return .meEnc (some x) :: cmds

/-- The commands of the chunked encryption (rules R335 to R337). -/
def chunkedEncrypt (c : Params) (filler : Nat → Byte) (m : Mode) (scheme : PadScheme) (room : Nat) (plain : Bytes) :
    Except HostStop (List Instr) := do
  let parts ← chunks room c.blockSize plain
  padLastChunk c filler m scheme parts

/-- The commands of the chunked decryption (rule R336). -/
def chunkedDecrypt (c : Params) (room : Nat) (cipher : Bytes) : Except HostStop (List Instr) := do
  let parts ← chunks room c.blockSize cipher
  return parts.map fun x => .meDec (some x)

/-- The host sends one command and waits for its response (spec/30_encoding.md rule R100; spec/20_memory.md rule R70): the
response, or why there is none, and the engine afterwards. `run` is the engine's command set. DESIGN CHOICE (log entry 25,
unsafe): after a command that the model refuses (93 U1, U2, U4, U5, U6, U9) the spec leaves the engine's state open; the
engine given back is the one before that command, a placeholder that no claim may rest on. -/
def hostCall (run : Instr → State → Result) (i : Instr) (s : State) : Except HostStop Response × State :=
  if i.wf then
    match run i s with
    | .next t =>
      match t.responses.drop s.responses.length with
      | [] => (.error .noResponse, t)
      | r :: _ => (.ok r, t)
    | .fault why => nomatch why
    | .refused why => (.error (.refused why), s)
  else (.error .operandTooLong, s)

/-- A command whose response `opened` turns into the call's result; after a refusal the engine is `hostCall`'s placeholder
(log entry 25). -/
def hostResult (run : Instr → State → Result) (opened : Response → Except HostStop Bytes) (i : Instr) (s : State) :
    Except HostStop Bytes × State :=
  match hostCall run i s with
  | (.error why, t) => (.error why, t)
  | (.ok r, t) => (opened r, t)

/-- A CipherContext (rule R328): an engine on which `FN_INIT` and `ME_INIT` have succeeded, whose `ME.MODE` is the context's
mode, and the padding scheme the host keeps. -/
structure CipherContext where
  engine : State
  scheme : PadScheme
  deriving DecidableEq, Repr

/-- Construction of a CipherContext (rule R328) on the engine `s`, with the engine afterwards: an unknown padding identifier
or mode fails Unsupported, and a failure of `FN_INIT` or `ME_INIT` is the failure of the construction. DESIGN CHOICE (log
entry 25): the padding identifier is looked at first, then the key is installed, then the session opened. -/
def ctxConstruct (run : Instr → State → Result) (key : Operand) (sel : Byte) (iv : Operand) (seed : Option (BitVec 64))
    (padId : Nat) (s : State) : Except HostStop CipherContext × State :=
  match PadScheme.ofId padId with
  | .error why => (.error why, s)
  | .ok scheme =>
    match hostResult run ctxSealed (.fnInit key) s with
    | (.error why, t) => (.error why, t)
    | (.ok _, t) =>
      match hostResult run ctxSealed (.meInit sel iv seed) t with
      | (.error why, u) => (.error why, u)
      | (.ok _, u) => (.ok { engine := u, scheme := scheme }, u)

/-- `Ctx.Encrypt(plaintext)` on a context (rule R330): the call's result and the context afterwards. -/
def CipherContext.encrypt (c : Params) (filler : Nat → Byte) (run : Instr → State → Result) (ctx : CipherContext)
    (plain : Operand) : Except HostStop Bytes × CipherContext :=
  match ctxEncrypt c filler ctx.engine.meMode ctx.scheme plain with
  | .error why => (.error why, ctx)
  | .ok i =>
    let (result, t) := hostResult run ctxSealed i ctx.engine
    (result, { ctx with engine := t })

/-- `Ctx.Decrypt(ciphertext)` on a context (rule R331): the call's result and the context afterwards. -/
def CipherContext.decrypt (run : Instr → State → Result) (ctx : CipherContext) (cipher : Operand) :
    Except HostStop Bytes × CipherContext :=
  match ctxDecrypt cipher with
  | .error why => (.error why, ctx)
  | .ok i =>
    let (result, t) := hostResult run (ctxOpened ctx.engine.meMode ctx.scheme) i ctx.engine
    (result, { ctx with engine := t })

/-- What a run of chunk calls leaves: the bytes in the output sink, why it ended early if it did, and the engine, which is
`hostCall`'s placeholder where `stop` is a refusal (log entry 25). -/
structure ChunkRun where
  written : Bytes
  stop : Option HostStop
  engine : State
  deriving DecidableEq, Repr

/-- The chunk commands in file order on the one session, each response written to the sink as it comes (rule R336); `opened`
is what the last chunk's response turns into, the padding coming off there only (rule R337). A call that fails ends the run,
and what was written before it stays (rule R338). -/
def chunkCalls (run : Instr → State → Result) (opened : Response → Except HostStop Bytes) :
    List Instr → State → ChunkRun
  | [], s => { written := [], stop := none, engine := s }
  | [last], s =>
    match hostResult run opened last s with
    | (.error why, t) => { written := [], stop := some why, engine := t }
    | (.ok out, t) => { written := out, stop := none, engine := t }
  | i :: j :: rest, s =>
    match hostResult run ctxSealed i s with
    | (.error why, t) => { written := [], stop := some why, engine := t }
    | (.ok out, t) =>
      let later := chunkCalls run opened (j :: rest) t
      { later with written := out ++ later.written }

/-- The chunk commands of a context's call, where the host could make them. -/
def CipherContext.runChunks (run : Instr → State → Result) (opened : Response → Except HostStop Bytes)
    (ctx : CipherContext) : Except HostStop (List Instr) → ChunkRun
  | .error why => { written := [], stop := some why, engine := ctx.engine }
  | .ok cmds => chunkCalls run opened cmds ctx.engine

/-- The chunked encryption on a context, with a host buffer of `room` bytes (rules R335 to R338). -/
def CipherContext.encryptChunked (c : Params) (filler : Nat → Byte) (run : Instr → State → Result) (ctx : CipherContext)
    (room : Nat) (plain : Bytes) : ChunkRun :=
  ctx.runChunks run ctxSealed (chunkedEncrypt c filler ctx.engine.meMode ctx.scheme room plain)

/-- The chunked decryption on a context, with a host buffer of `room` bytes (rules R335 to R338). -/
def CipherContext.decryptChunked (c : Params) (run : Instr → State → Result) (ctx : CipherContext) (room : Nat)
    (cipher : Bytes) : ChunkRun :=
  ctx.runChunks run (ctxOpened ctx.engine.meMode ctx.scheme) (chunkedDecrypt c room cipher)

end Sys2Proof.Machine
end

