-- ==== Sys2Proof/Machine/Assembler.lean ====
section
/-! DEFINITION. The assembler notation of spec/30_encoding.md rules R114 and R115: one line of text to a command, or to a
pseudo-command of the host's cipher context. Text is a list of characters. -/

namespace Sys2Proof.Machine

/-- A line of the notation. -/
inductive AsmLine where
  | command (i : Instr)
  /-- `CTX_ENCRYPT <pad> <bytes>` (rule R115). -/
  | ctxEncrypt (scheme : PadScheme) (plain : Operand)
  /-- `CTX_DECRYPT <pad> <bytes>` (rule R115). -/
  | ctxDecrypt (scheme : PadScheme) (cipher : Operand)
  deriving DecidableEq, Repr

/-- The words of a line, in order; `word` is the word being read, last character first. -/
def words (word : List Char) : List Char → List (List Char)
  | [] => if word.isEmpty then [] else [word.reverse]
  | ch :: rest =>
    if ch = ' ' then (if word.isEmpty then words [] rest else word.reverse :: words [] rest)
    else words (ch :: word) rest

/-- The value of a hexadecimal digit. -/
def hexDigit (ch : Char) : Option Nat :=
  let n := ch.toNat
  if 48 ≤ n ∧ n ≤ 57 then some (n - 48)
  else if 65 ≤ n ∧ n ≤ 70 then some (n - 55)
  else if 97 ≤ n ∧ n ≤ 102 then some (n - 87)
  else none

/-- Two digits a byte, first byte first. -/
def hexBytes : List Char → Option Bytes
  | [] => some []
  | [_] => none
  | hi :: lo :: rest => do
    let a ← hexDigit hi
    let b ← hexDigit lo
    let bs ← hexBytes rest
    return BitVec.ofNat 8 (16 * a + b) :: bs

/-- `<bytes>`: a hexadecimal string, `empty` or `null` (rule R114). -/
def asmBytes (w : List Char) : Option Operand :=
  if w = "null".toList then some none
  else if w = "empty".toList then some (some [])
  else if w.isEmpty then none
  else (hexBytes w).map some

/-- A decimal natural, `acc` the value of the digits read so far. -/
def decimal (acc : Nat) : List Char → Option Nat
  | [] => some acc
  | ch :: rest =>
    let n := ch.toNat
    if 48 ≤ n ∧ n ≤ 57 then decimal (10 * acc + (n - 48)) rest else none

/-- `<MODE>`: a mode's name, or `#<n>` for a raw `SEL` byte (rule R114). -/
def asmSel (w : List Char) : Option Byte :=
  if w = "ECB".toList then some 0
  else if w = "CBC".toList then some 1
  else if w = "PCBC".toList then some 2
  else if w = "CFB".toList then some 3
  else if w = "OFB".toList then some 4
  else if w = "CTR".toList then some 5
  else if w = "RD".toList then some 6
  else match w with
    | '#' :: [] => none
    | '#' :: ds =>
      match decimal 0 ds with
      | some n => if n < 256 then some (BitVec.ofNat 8 n) else none
      | none => none
    | _ => none

/-- `<int>`, a signed decimal that 64 bits hold (spec/30_encoding.md rule R103). -/
def asmSeed (w : List Char) : Option (BitVec 64) :=
  match w with
  | [] => none
  | ['-'] => none
  | '-' :: ds =>
    match decimal 0 ds with
    | some n => if n ≤ 2 ^ 63 then some (BitVec.ofInt 64 (-(n : Int))) else none
    | none => none
  | ds =>
    match decimal 0 ds with
    | some n => if n < 2 ^ 63 then some (BitVec.ofNat 64 n) else none
    | none => none

/-- `<pad>` (rule R115). -/
def asmPad (w : List Char) : Option PadScheme :=
  if w = "Zeros".toList then some .zeros
  else if w = "Pkcs7".toList then some .pkcs7
  else if w = "AnsiX923".toList then some .ansiX923
  else if w = "Iso10126".toList then some .iso10126
  else none

/-- What follows `name=` in a word. -/
def valueOf (name w : List Char) : Option (List Char) :=
  if w.take (name.length + 1) = name ++ ['='] then some (w.drop (name.length + 1)) else none

/-- The operand of a word `name=<bytes>`. -/
def namedBytes (name w : List Char) : Option Operand := do
  let v ← valueOf name w
  asmBytes v

/-- One line (rules R114, R115). -/
def assemble (line : List Char) : Option AsmLine :=
  match words [] line with
  | [m] =>
    if m = "SYS_RESET".toList then some (.command .sysReset)
    else if m = "FN_CAPS".toList then some (.command .fnCaps)
    else none
  | [m, a] =>
    if m = "FN_INIT".toList then (namedBytes "key".toList a).map fun o => .command (.fnInit o)
    else if m = "FN_ENC".toList then (asmBytes a).map fun o => .command (.fnEnc o)
    else if m = "FN_DEC".toList then (asmBytes a).map fun o => .command (.fnDec o)
    else if m = "ME_ENC".toList then (asmBytes a).map fun o => .command (.meEnc o)
    else if m = "ME_DEC".toList then (asmBytes a).map fun o => .command (.meDec o)
    else if m = "ME_CAPS".toList then (asmSel a).map fun sel => .command (.meCaps sel)
    else none
  | [m, a, b] =>
    if m = "ME_INIT".toList then do
      let sel ← asmSel a
      let iv ← namedBytes "iv".toList b
      return .command (.meInit sel iv none)
    else if m = "CTX_ENCRYPT".toList then do
      let scheme ← asmPad a
      let plain ← asmBytes b
      return .ctxEncrypt scheme plain
    else if m = "CTX_DECRYPT".toList then do
      let scheme ← asmPad a
      let cipher ← asmBytes b
      return .ctxDecrypt scheme cipher
    else none
  | [m, a, b, d] =>
    if m = "ME_INIT".toList then do
      let sel ← asmSel a
      let iv ← namedBytes "iv".toList b
      let digits ← valueOf "seed".toList d
      let seed ← asmSeed digits
      return .command (.meInit sel iv (some seed))
    else none
  | _ => none

/-- The command a line sends, in a session of mode `m` (rule R115). -/
def AsmLine.instr (c : Params) (filler : Nat → Byte) (m : Mode) : AsmLine → Except HostStop Instr
  | .command i => .ok i
  | .ctxEncrypt scheme plain => Machine.ctxEncrypt c filler m scheme plain
  | .ctxDecrypt _ cipher => Machine.ctxDecrypt cipher

end Sys2Proof.Machine
end

