-- ==== Sys2Proof/Safety.lean ====
section
/-! DEFINITION. The terms claims use: the invariant every step keeps, when a command executes normally, runs of several
commands, and the keystreams as the spec's formulas give them. -/

namespace Sys2Proof.Machine

/-- The block registers hold `B` bytes each, as their type in spec/10_state.md section 1 says. -/
structure State.Shaped (c : Params) (s : State) : Prop where
  iv : s.meIv.length = c.blockSize
  fb : s.meFb.length = c.blockSize
  delta : s.meDelta.length = c.blockSize

/-- The invariant of the engine. -/
structure State.Inv (c : Params) (s : State) : Prop where
  shaped : s.Shaped c
  /-- `FN.L` and `FN.R` are half-blocks and `FN.i` is a round number (rule R22). -/
  left : s.fnL.length = c.half
  right : s.fnR.length = c.half
  round : c.rounds ≠ 0 → s.fnI < c.rounds
  /-- `FN.INIT = 1` implies `len(FN.RK) = R` (spec/41_feistel.md rule R174). -/
  keys : s.fnInit = true → s.fnRk.length = c.rounds
  noKeys : s.fnInit = false → s.fnRk = []
  /-- No session: the registers of rule R45 stand at their reset values. -/
  idle : s.meInit = false → s.meOff = 0 ∧ s.meDir = .none
  /-- A session without a successful transform has transformed no byte. -/
  fresh : s.meDir = .none → s.meOff = 0
  /-- The offset counter holds the offset (rule R36). -/
  bound : s.meOff ≤ c.maxOff
  /-- In the block-aligned modes `ME.OFF mod B = 0` (rule R36). -/
  aligned : s.meInit = true → s.meMode.requiresPadding = true → s.meOff % c.blockSize = 0
  /-- A CTR session runs on a block of at least 8 bytes (spec/44_modes_stream.md rule R268). -/
  ctrBlock : s.meInit = true → s.meMode = .ctr → 8 ≤ c.blockSize
  /-- In an RD session `ME.FIRST` is 1 until the first successful transform (rule R38). -/
  first : s.meInit = true → s.meMode = .rd → (s.meFirst = true ↔ s.meDir = .none)

/-- The FN core can transform blocks: `FnCheck` passes but for the operand (spec/41_feistel.md rule R174). -/
def State.FnReady (c : Params) (s : State) : Prop := s.fnInit = true ∧ s.fnRk.length = c.rounds

/-- How many bytes of the input of a transform are body: all but the header block that the first `ME_DEC` of an RD session
consumes (spec/45_mode_rd.md rule R288). -/
def State.bodyLen (c : Params) (s : State) (d : Dir) (data : Bytes) : Nat :=
  if d = .dec ∧ s.meMode = .rd ∧ s.meFirst = true then data.length - c.blockSize else data.length

/-- How many bytes a transform answers (spec/42_mode_common.md rule R215). -/
def State.outLen (c : Params) (s : State) (d : Dir) (data : Bytes) : Nat :=
  if s.meMode = .rd ∧ s.meFirst = true then
    (if d = .dec then data.length - c.blockSize else data.length + c.blockSize)
  else data.length

/-- When `ME_ENC data` (`d = .enc`) or `ME_DEC data` (`d = .dec`) executes normally: it fails no check (spec/42_mode_common.md
rule R210; spec/45_mode_rd.md rule R288) and is none of the cases a model refuses (spec/93_implementation_defined.md). -/
structure State.Ready (c : Params) (d : Dir) (data : Bytes) (s : State) : Prop where
  shaped : s.Shaped c
  fn : s.FnReady c
  session : s.meInit = true
  direction : s.meMode ≠ .ecb → Dir.opposes s.meDir d = false
  aligned : s.meMode.requiresPadding = true → data.length % c.blockSize = 0
  bound : s.meOff + s.bodyLen c d data ≤ c.maxOff
  ctrBlock : s.meMode = .ctr → 8 ≤ c.blockSize
  rdIndex : s.meMode = .rd → s.meOff + s.bodyLen c d data ≤ 2 ^ 32 * c.blockSize
  rdLong : s.meMode = .rd → s.meFirst = true → d = .enc → data.length + c.blockSize ≤ maxLen
  rdHeader : s.meMode = .rd → s.meFirst = true → d = .dec → c.blockSize ≤ data.length

/-- Run commands one after the other, stopping where one does not answer a next state (spec/20_memory.md rule R72). -/
def runCommands (run : Instr → State → Result) : List Instr → State → Result
  | [], s => .next s
  | i :: is, s =>
    match run i s with
    | .next t => runCommands run is t
    | .fault r => .fault r
    | .refused r => .refused r

/-- Two states agree on every register that is not transient (spec/10_state.md section 1), the ghost latch included. -/
def State.SameRegisters (s t : State) : Prop :=
  s.fnInit = t.fnInit ∧ s.fnRk = t.fnRk ∧ s.meInit = t.meInit ∧ s.meMode = t.meMode ∧ s.meIv = t.meIv ∧
  s.meFb = t.meFb ∧ s.meOff = t.meOff ∧ s.meDelta = t.meDelta ∧ s.meFirst = t.meFirst ∧ s.meDir = t.meDir

/-- What the block cipher's Encrypt answers on a block, for claims: `blockEnc` has a value there. -/
def cipherEnc (c : Params) (rks : List Bytes) (block : Bytes) : Bytes := (blockEnc c rks block).getD []

/-- What the block cipher's Decrypt answers on a block, for claims. -/
def cipherDec (c : Params) (rks : List Bytes) (block : Bytes) : Bytes := (blockDec c rks block).getD []

/-- The transform command of a direction. -/
def transformCommand (d : Dir) (data : Bytes) : Instr :=
  match d with
  | .dec => .meDec (some data)
  | .enc => .meEnc (some data)
  | .none => .meEnc (some data)

/-- Block `i` of a buffer: bytes `i*B .. i*B+B-1` (spec/20_memory.md rule R64). -/
def blockAt (c : Params) (d : Bytes) (i : Nat) : Bytes := (d.drop (i * c.blockSize)).take c.blockSize

/-- Block `i - 1` of a chain whose block before block 0 is `fb`. -/
def chainBlock (c : Params) (fb d : Bytes) : Nat → Bytes
  | 0 => fb
  | i + 1 => blockAt c d i

/-- The OFB chain: `K_{-1} = IV` at index 0, `K_i = E(K_{i-1})` at index `i + 1` (spec/44_modes_stream.md rule R262). -/
def ofbChain (c : Params) (rks : List Bytes) (iv : Bytes) : Nat → Bytes
  | 0 => iv
  | i + 1 => cipherEnc c rks (ofbChain c rks iv i)

/-- The OFB invariant (spec/10_state.md rule R37): `ME.FB` is the last keystream block generated, `ME.OFF` bytes being
consumed. -/
def State.OfbSync (c : Params) (s : State) : Prop :=
  s.meFb = ofbChain c s.fnRk s.meIv ((s.meOff + c.blockSize - 1) / c.blockSize)

/-- CTR keystream block `i` (spec/44_modes_stream.md rule R265): the last 8 bytes of the IV, as a number, plus `i` modulo
`2^64`. -/
def ctrBlock (c : Params) (rks : List Bytes) (iv : Bytes) (i : Nat) : Bytes :=
  cipherEnc c rks
    (iv.take (c.blockSize - 8) ++ beBytes 8 ((be (iv.drop (c.blockSize - 8)) + i) % 2 ^ 64))

/-- RD keystream block `i` (spec/45_mode_rd.md rule R284): the IV plus the stride times `i`, as `B`-byte numbers. -/
def rdBlock (c : Params) (rks : List Bytes) (iv delta : Bytes) (i : Nat) : Bytes :=
  cipherEnc c rks
    (beBytes c.blockSize ((be iv + be delta * i % 256 ^ c.blockSize) % 256 ^ c.blockSize))

/-- `out` is `data` under the keystream from byte `off` on: `out[j] = data[j] XOR K_{(off+j) div B}[(off+j) mod B]`
(spec/44_modes_stream.md rule R260). -/
def UnderKeystream (c : Params) (ks : Nat → Bytes) (off : Nat) (data out : Bytes) : Prop :=
  out.length = data.length ∧
  ∀ j, j < data.length →
    out.getD j 0 = data.getD j 0 ^^^ (ks ((off + j) / c.blockSize)).getD ((off + j) % c.blockSize) 0

end Sys2Proof.Machine
end

