-- ==== Sys2Proof/Certificates/Slice0/Obligations.lean ====
section
/-! DEFINITION. The statements for the provers. A statement about `exec` or `step` is about the machine; one that says `∀ c`
is about the commands on every instance (`execOn c`), and `ExecIsExecOnTheInstance` joins the two. -/

open Sys2Proof Sys2Proof.Machine

-- ---------------------------------------------------------------- encoding

/-- Decoding the frame of a well-formed command gives the command back, with every operand, and leaves the bytes after the
frame (spec/30_encoding.md sections 1 and 2). -/
def Obligations.DecodeOfEncodeIsTheCommand : Prop :=
  ∀ (i : Instr) (rest : Bytes), i.wf = true → decode (encode i ++ rest) = .command i rest

/-- A command the decoder reads is well-formed, its opcode byte stands first, and exactly `16 + LEN` bytes are taken: the
header and the operand bytes as they stand (rule R102). -/
def Obligations.DecodedCommandComesFromItsFrame : Prop :=
  ∀ (stream : Bytes) (i : Instr) (rest : Bytes), decode stream = .command i rest →
    i.wf = true ∧ ∃ hdr : Bytes, hdr.length = 16 ∧ hdr.head? = some i.opcode.code ∧
      be ((hdr.drop 4).take 4) = i.payload.length ∧ stream = hdr ++ (i.payload ++ rest)

/-- The must-be-zero bits of rule R105, from the bytes of a header. -/
def mbzBroken (opc flg sel rsv : Byte) : Bool :=
  match opc.toNat with
  | 0x01 => flg != 0 || sel != 0 || rsv != 0
  | 0x13 => flg != 0 || sel != 0 || rsv != 0
  | 0x10 => decide (2 ≤ flg.toNat) || sel != 0 || rsv != 0
  | 0x11 => decide (2 ≤ flg.toNat) || sel != 0 || rsv != 0
  | 0x12 => decide (2 ≤ flg.toNat) || sel != 0 || rsv != 0
  | 0x21 => decide (2 ≤ flg.toNat) || sel != 0 || rsv != 0
  | 0x22 => decide (2 ≤ flg.toNat) || sel != 0 || rsv != 0
  | 0x20 => decide (4 ≤ flg.toNat) || rsv != 0
  | 0x23 => flg != 0 || rsv != 0
  | _ => false

/-- The frame checks of rule R108 in their order, on the bytes of a header and the payload length: the failure kind, if
any. -/
def frameFailure (opc flg sel rsv : Byte) (len : Nat) : Option FailKind :=
  if opc.toNat ∉ [0x01, 0x10, 0x11, 0x12, 0x13, 0x20, 0x21, 0x22, 0x23] then some .unsupported
  else if mbzBroken opc flg sel rsv then some .invalidArgument
  else if flg.toNat % 2 = 1 ∧ len ≠ 0 then some .invalidArgument
  else if opc.toNat ∈ [0x01, 0x13, 0x23] ∧ len ≠ 0 then some .invalidArgument
  else none

/-- A malformed frame is consumed whole, changes no state, and is answered with the failure of the first check it breaks,
whose response has `LEN = 0` (rule R108). -/
def Obligations.MalformedFramesFailInOrder : Prop :=
  ∀ (s : State) (opc flg sel rsv l0 l1 l2 l3 : Byte) (seed pay rest : Bytes) (k : FailKind),
    be [l0, l1, l2, l3] = pay.length → seed.length = 8 →
    s.cmdStream = [opc, flg, sel, rsv, l0, l1, l2, l3] ++ seed ++ pay ++ rest →
    frameFailure opc flg sel rsv pay.length = some k →
    step s = .next { s with cmdStream := rest, responses := s.responses ++ [.failure k] } ∧
      (Response.failure k).encode = [k.code, 0, 0, 0, 0, 0, 0, 0]

/-- Every frame that breaks no check of rule R108 decodes to the command of its first byte (nothing else is rejected), with
the operand null where `NP` is set and else the payload bytes, `SEL` as it stands, and the seed of `ME_INIT` present exactly
where `SV` is set, as a 64-bit big-endian number (rule R103). -/
def Obligations.WellMadeFramesDecode : Prop :=
  ∀ (opc flg sel rsv l0 l1 l2 l3 : Byte) (seed pay rest : Bytes),
    be [l0, l1, l2, l3] = pay.length → seed.length = 8 → frameFailure opc flg sel rsv pay.length = none →
    ∃ i : Instr, decode ([opc, flg, sel, rsv, l0, l1, l2, l3] ++ seed ++ pay ++ rest) = .command i rest ∧
      i.opcode.code = opc ∧ i.operand = (if flg.toNat % 2 = 1 then none else some pay) ∧ i.sel = sel ∧
      (i.opcode = .meInit → i.seed = if flg.toNat / 2 % 2 = 1 then some (BitVec.ofNat 64 (be seed)) else none)

/-- With no whole frame in its command stream the engine waits: nothing changes (rule R100: "executes a command only after
its whole frame … has arrived"; that the wait is a step that changes nothing is log entry 3). -/
def Obligations.EngineWaitsForAWholeFrame : Prop :=
  ∀ s : State, (s.cmdStream.length < 16 ∨ s.cmdStream.length < 16 + be ((s.cmdStream.drop 4).take 4)) →
    step s = .next s

/-- When the bytes at the front of the command stream are the frame of a well-formed command, a step is `exec` of that
command with the frame taken off the stream. -/
def Obligations.StepRunsTheDecodedCommand : Prop :=
  ∀ (s : State) (i : Instr) (rest : Bytes), i.wf = true → s.cmdStream = encode i ++ rest →
    step s = exec i { s with cmdStream := rest }

/-- The fourteen worked command frames and the three worked responses of rule R116. -/
def Obligations.WorkedFramesOfTheSpec : Prop :=
  encode .sysReset = beBytes 16 0x01000000000000000000000000000000 ∧
  encode (.fnInit (some (beBytes 8 0x0123456789ABCDEF))) =
    beBytes 24 0x100000000000000800000000000000000123456789ABCDEF ∧
  encode (.fnInit none) = beBytes 16 0x10010000000000000000000000000000 ∧
  encode (.fnInit (some [])) = beBytes 16 0x10000000000000000000000000000000 ∧
  encode (.fnEnc (some (beBytes 8 0x0011223344556677))) =
    beBytes 24 0x110000000000000800000000000000000011223344556677 ∧
  encode (.fnDec (some (beBytes 8 0x3B320954445844AC))) =
    beBytes 24 0x120000000000000800000000000000003B320954445844AC ∧
  encode .fnCaps = beBytes 16 0x13000000000000000000000000000000 ∧
  encode (.meInit 1 (some (beBytes 8 0xA0A1A2A3A4A5A6A7)) none) =
    beBytes 24 0x20000100000000080000000000000000A0A1A2A3A4A5A6A7 ∧
  encode (.meInit 0 none none) = beBytes 16 0x20010000000000000000000000000000 ∧
  encode (.meInit 6 (some (beBytes 8 0xA0A1A2A3A4A5A6A7)) (some 2002)) =
    beBytes 24 0x200206000000000800000000000007D2A0A1A2A3A4A5A6A7 ∧
  encode (.meInit 6 (some (beBytes 8 0xA0A1A2A3A4A5A6A7)) (some (-1))) =
    beBytes 24 0x2002060000000008FFFFFFFFFFFFFFFFA0A1A2A3A4A5A6A7 ∧
  encode (.meEnc (some (beBytes 5 0x0011223344))) = beBytes 21 0x210000000000000500000000000000000011223344 ∧
  encode (.meDec (some [])) = beBytes 16 0x22000000000000000000000000000000 ∧
  encode (.meCaps 5) = beBytes 16 0x23000500000000000000000000000000 ∧
  Response.encode (.ok (beBytes 8 0x3B320954445844AC)) = beBytes 16 0x00000000000000083B320954445844AC ∧
  Response.encode (.failure .invalidState) = beBytes 8 0x0200000000000000 ∧
  Response.encode (.ok []) = beBytes 8 0

/-- Control words written out from spec/30_encoding.md decode to the commands they stand for, one of each unit and form. That
a control word alone stands for the frame whose other bits, `LEN` and `SEED` among them, are 0 (so that the operand is empty
where `NP = 0`, and the seed 0 where `SV = 1`) is the model's convention for table words, log entry 17. -/
def Obligations.WrittenOutWordsDecode : Prop :=
  decodeTableWord 32 0x01000000 = some .sysReset ∧
  decodeTableWord 32 0x10010000 = some (.fnInit none) ∧
  decodeTableWord 32 0x12000000 = some (.fnDec (some [])) ∧
  decodeTableWord 32 0x20030600 = some (.meInit 6 none (some 0)) ∧
  decodeTableWord 32 0x23000500 = some (.meCaps 5) ∧
  decodeTableWord 32 0x13000001 = none

/-- A response frame read back by a host is the response, with the bytes after it (rules R110, R111). -/
def Obligations.ResponseFramesReadBack : Prop :=
  ∀ (r : Response) (rest : Bytes), (∀ pay, r = .ok pay → pay.length ≤ maxLen) →
    Response.decode (r.encode ++ rest) = some (r, rest)

-- ---------------------------------------------------------------- byte arithmetic

/-- `AddMod(a, b) = be_n((be(a) + be(b)) mod 256^n)` on operands of one length `n >= 1` (rule R145). -/
def Obligations.AddModAddsModuloThePower : Prop :=
  ∀ a b : Bytes, a.length = b.length → 1 ≤ a.length →
    addMod a b = some (beBytes a.length ((be a + be b) % 256 ^ a.length))

/-- `MulMod32(a, m) = be_n((be(a) * m) mod 256^n)` for `m < 2^32`; a larger multiplier is outside the function's domain
(rule R146). -/
def Obligations.MulMod32MultipliesModuloThePower : Prop :=
  ∀ (a : Bytes) (m : Nat), 1 ≤ a.length →
    mulMod32 a m = if m < 2 ^ 32 then some (beBytes a.length (be a * m % 256 ^ a.length)) else none

/-- `CtrAdd(iv, i)`: the bytes before the last 8 pass through, and the last 8, read as a number, are increased by `i` modulo
`2^64`; on fewer than 8 bytes it has no value (rule R148). -/
def Obligations.CtrAddCountsInTheLastEightBytes : Prop :=
  (∀ (pre last : Bytes) (i : Nat), last.length = 8 →
    ∃ out : Bytes, ctrAdd (pre ++ last) i = some (pre ++ out) ∧ out.length = 8 ∧ be out = (be last + i) % 2 ^ 64 ∧
      ctrAdd (pre ++ last) (i + 2 ^ 64) = some (pre ++ out) ∧ ctrAdd (pre ++ last) 0 = some (pre ++ last)) ∧
  (∀ (iv : Bytes) (i : Nat), iv.length < 8 → ctrAdd iv i = none)

/-- `MulMod32` of `d` by `m` as `m`-fold addition to the zero block. -/
def timesByAddition (d : Bytes) : Nat → Option Bytes
  | 0 => some (zeros d.length)
  | m + 1 => (timesByAddition d m).bind fun x => addMod x d

/-- The laws of rule R147: `AddMod` is commutative and associative with the zero block as identity, `MulMod32(a, m)` is
`m`-fold addition, it distributes over `AddMod`, and the RD counter advances by `d` a block. -/
def Obligations.ModularArithmeticLaws : Prop :=
  ∀ (a b e : Bytes) (m : Nat), 1 ≤ a.length → b.length = a.length → e.length = a.length → m < 2 ^ 32 →
    addMod a b = addMod b a ∧
    ((addMod a b).bind fun x => addMod x e) = ((addMod b e).bind fun x => addMod a x) ∧
    addMod a (zeros a.length) = some a ∧
    mulMod32 a m = timesByAddition a m ∧
    ((addMod a b).bind fun x => mulMod32 x m) =
      ((mulMod32 a m).bind fun x => (mulMod32 b m).bind fun y => addMod x y) ∧
    (m + 1 < 2 ^ 32 →
      ((mulMod32 b (m + 1)).bind fun x => addMod a x) =
        ((mulMod32 b m).bind fun x => (addMod a x).bind fun y => addMod y b))

/-- `Split(d, B)`: `n / B` blocks, block `i` the bytes `i*B .. i*B+B-1`, whose concatenation is `d` (rule R143). -/
def Obligations.SplitCutsIntoBlocks : Prop :=
  ∀ (size : Nat) (d : Bytes), 0 < size → d.length % size = 0 →
    ∃ blocks : List Bytes, split size d = some blocks ∧ blocks.length = d.length / size ∧ blocks.flatten = d ∧
      ∀ i, i < blocks.length → blocks.getD i [] = (d.drop (i * size)).take size ∧ (blocks.getD i []).length = size

-- ---------------------------------------------------------------- Feistel core

/-- Both networks have a value on every block, a block, and they undo each other, whatever the round function (rule
R182). -/
def Obligations.FeistelNetworksInvertEachOther : Prop :=
  ∀ (c : Params) (rks : List Bytes) (block : Bytes), block.length = c.blockSize →
    ∃ x y, feistelEnc c rks block = some x ∧ x.length = c.blockSize ∧
      feistelDec c rks block = some y ∧ y.length = c.blockSize ∧
      feistelDec c rks x = some block ∧ feistelEnc c rks y = some block

/-- The networks round by round: the forward one appends its round for the last round key, `(L, R) <- (R, L XOR RF(R, k))`;
the backward one ends with the round for the first round key, `(L, R) <- (R XOR RF(L, k), L)`; with no round keys both are
the identity (rules R176, R177). On a byte sequence that is no block neither has a value (rule R140, 93 U6). -/
def Obligations.FeistelNetworksRoundByRound : Prop :=
  ∀ (c : Params) (rks : List Bytes) (k block : Bytes),
    (block.length = c.blockSize →
      feistelEnc c [] block = some block ∧ feistelDec c [] block = some block ∧
      (∃ y, feistelEnc c rks block = some y ∧ feistelEnc c (rks ++ [k]) block =
        some (y.drop c.half ++ zipXor (y.take c.half) (c.rf (y.drop c.half) k))) ∧
      (∃ y, feistelDec c rks block = some y ∧ feistelDec c (k :: rks) block =
        some (zipXor (y.drop c.half) (c.rf (y.take c.half) k) ++ y.take c.half))) ∧
    (block.length ≠ c.blockSize → feistelEnc c rks block = none ∧ feistelDec c rks block = none)

/-- `BC.E` and `BC.D` on a ready core and a block: one network each, which one being `ADAPT_SWAP`'s choice; and they undo
each other (rules R180, R181). -/
def Obligations.AdapterChoosesTheNetwork : Prop :=
  ∀ (c : Params) (s : State) (b : Bytes), s.FnReady c → b.length = c.blockSize →
    (∃ x y, feistelEnc c s.fnRk b = some x ∧ feistelDec c s.fnRk b = some y ∧
      bcE c s (some b) = .ok (if c.adaptSwap then y else x) ∧
      bcD c s (some b) = .ok (if c.adaptSwap then x else y)) ∧
    (∀ y, bcE c s (some b) = .ok y → bcD c s (some y) = .ok b) ∧
    (∀ y, bcD c s (some b) = .ok y → bcE c s (some y) = .ok b)

/-- `exec` is the commands on the machine's own instance: what holds of `execOn c` for every `c` holds of `exec`. -/
def Obligations.ExecIsExecOnTheInstance : Prop :=
  ∀ (i : Instr) (s : State), exec i s = execOn Config.params i s

/-- `FN_INIT` on every operand: its checks in order, each with its failure kind and no change of state, and else the round
keys stored and `FN.INIT` set, nothing else touched, a live session included (rule R172). -/
def Obligations.FnInitChecksThenStoresRoundKeys : Prop :=
  ∀ (key : Operand) (s : State), exec (.fnInit key) s = .next (
    match key with
    | none => { s with responses := s.responses ++ [.failure .invalidArgument] }
    | some k =>
      if k.length = 0 then { s with responses := s.responses ++ [.failure .invalidArgument] }
      else if Config.params.keyLenOk k.length = false then
        { s with responses := s.responses ++ [.failure .invalidArgument] }
      else if (Config.params.ks k).length ≠ Config.params.rounds then
        { s with responses := s.responses ++ [.failure .invalidState] }
      else { s with fnRk := Config.params.ks k, fnInit := true, responses := s.responses ++ [.ok []] })

/-- `FN_INIT` with a key the instance accepts, on every instance: it completes, after which the core is ready (rule R172). -/
def Obligations.FnInitCompletes : Prop :=
  ∀ (c : Params) (key : Bytes) (s : State), key ≠ [] → c.keyLenOk key.length = true →
    (c.ks key).length = c.rounds →
    ∃ t, execOn c (.fnInit (some key)) s = .next t ∧ t.FnReady c ∧
      t = { s with fnRk := c.ks key, fnInit := true, responses := s.responses ++ [.ok []] }

/-- `FN_ENC` of a block on a ready core completes and answers `BC.E(block)`; it writes no register but the transient ones,
whose values are unspecified (rule R178). -/
def Obligations.FnEncAnswersTheCipher : Prop :=
  ∀ (b : Bytes) (s : State), s.FnReady Config.params → b.length = Config.params.blockSize →
    ∃ (out l r : Bytes) (i : Nat), bcE Config.params s (some b) = .ok out ∧
      exec (.fnEnc (some b)) s = .next { s with
        fnL := l, fnR := r, fnI := i, draws := s.draws + 1, responses := s.responses ++ [.ok out] } ∧
      out.length = Config.params.blockSize ∧ l.length = Config.params.half ∧ r.length = Config.params.half

/-- `FN_DEC` of a block on a ready core completes and answers `BC.D(block)`; it writes no register but the transient ones
(rule R179). -/
def Obligations.FnDecAnswersTheCipher : Prop :=
  ∀ (b : Bytes) (s : State), s.FnReady Config.params → b.length = Config.params.blockSize →
    ∃ (out l r : Bytes) (i : Nat), bcD Config.params s (some b) = .ok out ∧
      exec (.fnDec (some b)) s = .next { s with
        fnL := l, fnR := r, fnI := i, draws := s.draws + 1, responses := s.responses ++ [.ok out] } ∧
      out.length = Config.params.blockSize ∧ l.length = Config.params.half ∧ r.length = Config.params.half

/-- `FnCheck` (rule R174): the failures of `FN_ENC` and `FN_DEC` in their order, with no change of state. -/
def Obligations.FnCheckFailsInOrder : Prop :=
  ∀ (op : Operand) (s : State) (k : FailKind),
    (if s.fnInit = false then some FailKind.invalidState
     else if s.fnRk.length ≠ Config.params.rounds then some .invalidState
     else match op with
       | none => some .invalidArgument
       | some b => if b.length ≠ Config.params.blockSize then some .invalidArgument else none) = some k →
    exec (.fnEnc op) s = .next { s with responses := s.responses ++ [.failure k] } ∧
    exec (.fnDec op) s = .next { s with responses := s.responses ++ [.failure k] }

/-- A block sent through `FN_ENC` and its answer through `FN_DEC` comes back, and the other way round (rule R182 at the
command interface). -/
def Obligations.BlockRoundTripThroughCommands : Prop :=
  ∀ (b : Bytes) (s t : State) (out : Bytes), b.length = Config.params.blockSize →
    (exec (.fnEnc (some b)) s = .next t → t.responses = s.responses ++ [.ok out] →
      ∃ u, exec (.fnDec (some out)) t = .next u ∧ u.responses = t.responses ++ [.ok b]) ∧
    (exec (.fnDec (some b)) s = .next t → t.responses = s.responses ++ [.ok out] →
      ∃ u, exec (.fnEnc (some out)) t = .next u ∧ u.responses = t.responses ++ [.ok b])

/-- `FN_CAPS` completes in every state and answers 4 bytes, `be_4(B)` where `B` fits them, whether or not the core is
initialised, and changes nothing (rule R183; where `B` does not fit, the bytes are free, log entry 14). -/
def Obligations.FnCapsAnswersTheBlockSize : Prop :=
  (∀ s : State, ∃ out : Bytes, out.length = 4 ∧
    exec .fnCaps s = .next { s with responses := s.responses ++ [.ok out] }) ∧
  (∀ (c : Params) (s : State), c.blockSize < 2 ^ 32 → ∃ out : Bytes, out.length = 4 ∧ be out = c.blockSize ∧
    execOn c .fnCaps s = .next { s with responses := s.responses ++ [.ok out] })

-- ---------------------------------------------------------------- mode engine: set-up

/-- The mode a `SEL` number names (rule R106). -/
def modeOfNumber (n : Nat) : Option Mode := [Mode.ecb, .cbc, .pcbc, .cfb, .ofb, .ctr, .rd][n]?

/-- `ME_INIT` on every operand: an unknown identifier, a null IV and an IV that is not one block fail in this order with no
change of state; ECB ignores the IV; else the session registers are written as rule R202 says, `FN.INIT` not being looked at.
What the spec leaves unspecified in the session (`ME.IV` and `ME.FB` in ECB, `ME.DELTA` and `ME.FIRST` outside RD: rules R34,
R38, 93 U10) holds some value, a block where it is a block register; that a free value is drawn there, and the model's own
counter `draws` with it, is log entry 7. CTR on a block shorter than 8 bytes is refused (rule R268, 93 U4; before the IV
checks by log entry 10). -/
def Obligations.MeInitOpensASession : Prop :=
  ∀ (sel : Byte) (iv : Operand) (seed : Option (BitVec 64)) (s : State),
    ∃ (anyIv anyFb anyDelta : Bytes) (anyFirst : Bool) (n : Nat), anyIv.length = Config.params.blockSize ∧
      anyFb.length = Config.params.blockSize ∧ anyDelta.length = Config.params.blockSize ∧
    exec (.meInit sel iv seed) s =
    match modeOfNumber sel.toNat with
    | none => .next { s with responses := s.responses ++ [.failure .unsupported] }
    | some .ecb => .next { s with
        meMode := .ecb, meOff := 0, meDir := .none, meInit := true
        meIv := anyIv, meFb := anyFb, meDelta := anyDelta, meFirst := anyFirst, draws := n
        responses := s.responses ++ [.ok []] }
    | some m =>
      if m = .ctr ∧ Config.params.blockSize < 8 then .refused .ctrBlockTooSmall
      else match iv with
        | none => .next { s with responses := s.responses ++ [.failure .invalidArgument] }
        | some v =>
          if v.length ≠ Config.params.blockSize then
            .next { s with responses := s.responses ++ [.failure .invalidArgument] }
          else if m = .rd then .next { s with
            meMode := m, meOff := 0, meDir := .none, meInit := true, meIv := v, meFb := v, meFirst := true
            meDelta := match seed with
              | some w => Config.params.deltaFromSeed w.toInt
              | none => Config.params.deltaFromIv v
            responses := s.responses ++ [.ok []] }
          else .next { s with
            meMode := m, meOff := 0, meDir := .none, meInit := true, meIv := v, meFb := v
            meDelta := anyDelta, meFirst := anyFirst, draws := n
            responses := s.responses ++ [.ok []] }

/-- `ME_INIT` completes with a known identifier and an IV of one block, in every mode but CTR on a small block (rules R202,
R268). -/
def Obligations.MeInitCompletes : Prop :=
  ∀ (m : Mode) (iv : Bytes) (seed : Option (BitVec 64)) (s : State), iv.length = Config.params.blockSize →
    (m = .ctr → 8 ≤ Config.params.blockSize) →
    ∃ t, exec (.meInit m.sel (some iv) seed) s = .next t ∧ t.responses = s.responses ++ [.ok []] ∧
      t.meInit = true ∧ t.meMode = m ∧ t.meOff = 0 ∧ t.meDir = .none ∧
      (m ≠ .ecb → t.meIv = iv ∧ t.meFb = iv) ∧ (m = .rd → t.meFirst = true) ∧
      t.fnInit = s.fnInit ∧ t.fnRk = s.fnRk

/-- `ME_CAPS` in every state: `01` for ECB, `03` for CBC, PCBC, CFB, `02` for OFB, CTR, RD, Unsupported above; nothing
changes (rule R206). -/
def Obligations.MeCapsAnswersTheModeFlags : Prop :=
  ∀ (sel : Byte) (s : State), exec (.meCaps sel) s = .next { s with
    responses := s.responses ++ [
      if sel.toNat = 0 then .ok [1]
      else if sel.toNat ≤ 3 then .ok [3]
      else if sel.toNat ≤ 6 then .ok [2]
      else .failure .unsupported] }

/-- `MeCheck` (rule R210): the failures `ME_ENC` and `ME_DEC` share, in their order, with no change of state. -/
def Obligations.MeCheckFailsInOrder : Prop :=
  ∀ (op : Operand) (s : State) (k : FailKind),
    (if s.meInit = false then some FailKind.invalidState
     else if s.fnInit = false then some .invalidState
     else match op with
       | none => some .invalidArgument
       | some d =>
         if s.meMode ∈ [Mode.ecb, .cbc, .pcbc, .cfb] ∧ d.length % Config.params.blockSize ≠ 0 then
           some .invalidArgument
         else none) = some k →
    exec (.meEnc op) s = .next { s with responses := s.responses ++ [.failure k] } ∧
    exec (.meDec op) s = .next { s with responses := s.responses ++ [.failure k] }

/-- A transform that passes `MeCheck` against the session's direction, in a mode other than ECB, is refused: the spec gives
its result no value (93 U1). -/
def Obligations.DirectionMixingIsRefused : Prop :=
  ∀ (d : Bytes) (s : State), s.meInit = true → s.fnInit = true → s.meMode ≠ .ecb →
    (s.meMode.requiresPadding = true → d.length % Config.params.blockSize = 0) →
    (s.meDir = .dec → exec (.meEnc (some d)) s = .refused .directionMixed) ∧
    (s.meDir = .enc → exec (.meDec (some d)) s = .refused .directionMixed)

-- ---------------------------------------------------------------- mode engine: transforms

/-- `ME_ENC` completes in every mode when it is ready: it answers `len(data)` bytes, plus `B` on an RD session's first; it
writes `ME.FB` (not in ECB, CTR, RD), `ME.OFF`, `ME.FIRST` (RD), the latch and the transient registers, and nothing else
(rules R212, R215, R36, R38, R39). -/
def Obligations.MeEncCompletes : Prop :=
  ∀ (data : Bytes) (s : State), s.Ready Config.params .enc data →
    ∃ (out fb l r : Bytes) (i n : Nat), exec (.meEnc (some data)) s = .next { s with
        meFb := fb, meOff := s.meOff + data.length
        meFirst := if s.meMode = .rd then false else s.meFirst
        meDir := if s.meDir = .none then .enc else s.meDir
        fnL := l, fnR := r, fnI := i, draws := n, responses := s.responses ++ [.ok out] } ∧
      out.length = (if s.meMode = .rd ∧ s.meFirst = true then data.length + Config.params.blockSize else data.length) ∧
      fb.length = Config.params.blockSize ∧ (s.meMode ∈ [Mode.ecb, .ctr, .rd] → fb = s.meFb)

/-- `ME_DEC` completes in every mode when it is ready: it answers `len(data)` bytes, less `B` on an RD session's first,
which also overwrites `ME.DELTA` (rules R213, R215, R36, R38, R39). -/
def Obligations.MeDecCompletes : Prop :=
  ∀ (data : Bytes) (s : State), s.Ready Config.params .dec data →
    ∃ (out fb delta l r : Bytes) (i n : Nat), exec (.meDec (some data)) s = .next { s with
        meFb := fb, meOff := s.meOff + out.length, meDelta := delta
        meFirst := if s.meMode = .rd then false else s.meFirst
        meDir := if s.meDir = .none then .dec else s.meDir
        fnL := l, fnR := r, fnI := i, draws := n, responses := s.responses ++ [.ok out] } ∧
      out.length = (if s.meMode = .rd ∧ s.meFirst = true then data.length - Config.params.blockSize else data.length) ∧
      fb.length = Config.params.blockSize ∧ (s.meMode ∈ [Mode.ecb, .ctr, .rd] → fb = s.meFb) ∧
      (¬(s.meMode = .rd ∧ s.meFirst = true) → delta = s.meDelta)

/-- ECB block by block: `C_i = E(P_i)` and `P_i = D(C_i)` (rules R230, R231). -/
def Obligations.EcbTransformsEachBlock : Prop :=
  ∀ (c : Params) (s : State) (data : Bytes), s.meMode = .ecb →
    (s.Ready c .enc data → ∃ t out, execOn c (.meEnc (some data)) s = .next t ∧
      t.responses = s.responses ++ [.ok out] ∧ out.length = data.length ∧ t.meOff = s.meOff + data.length ∧
      t.meFb = s.meFb ∧
      ∀ i, i < data.length / c.blockSize → blockAt c out i = cipherEnc c s.fnRk (blockAt c data i)) ∧
    (s.Ready c .dec data → ∃ t out, execOn c (.meDec (some data)) s = .next t ∧
      t.responses = s.responses ++ [.ok out] ∧ out.length = data.length ∧ t.meOff = s.meOff + data.length ∧
      t.meFb = s.meFb ∧
      ∀ i, i < data.length / c.blockSize → blockAt c out i = cipherDec c s.fnRk (blockAt c data i))

/-- CBC block by block: `C_i = E(P_i XOR C_{i-1})` and `P_i = D(C_i) XOR C_{i-1}`, `C_{-1}` being `ME.FB`, which ends as the
last ciphertext block (rules R233, R234). -/
def Obligations.CbcChainsOnTheCiphertext : Prop :=
  ∀ (c : Params) (s : State) (data : Bytes), s.meMode = .cbc →
    (s.Ready c .enc data → ∃ t out, execOn c (.meEnc (some data)) s = .next t ∧
      t.responses = s.responses ++ [.ok out] ∧ out.length = data.length ∧ t.meOff = s.meOff + data.length ∧
      t.meFb = chainBlock c s.meFb out (data.length / c.blockSize) ∧
      ∀ i, i < data.length / c.blockSize →
        blockAt c out i = cipherEnc c s.fnRk (zipXor (blockAt c data i) (chainBlock c s.meFb out i))) ∧
    (s.Ready c .dec data → ∃ t out, execOn c (.meDec (some data)) s = .next t ∧
      t.responses = s.responses ++ [.ok out] ∧ out.length = data.length ∧ t.meOff = s.meOff + data.length ∧
      t.meFb = chainBlock c s.meFb data (data.length / c.blockSize) ∧
      ∀ i, i < data.length / c.blockSize →
        blockAt c out i = zipXor (cipherDec c s.fnRk (blockAt c data i)) (chainBlock c s.meFb data i))

/-- PCBC block by block: `C_i = E(P_i XOR (P_{i-1} XOR C_{i-1}))` and `P_i = D(C_i) XOR (P_{i-1} XOR C_{i-1})`, the value
before block 0 being `ME.FB`, which ends as `P_{n-1} XOR C_{n-1}` (rules R236, R237). -/
def Obligations.PcbcChainsOnBothTexts : Prop :=
  ∀ (c : Params) (s : State) (data : Bytes), s.meMode = .pcbc →
    (s.Ready c .enc data → ∃ t out, execOn c (.meEnc (some data)) s = .next t ∧
      t.responses = s.responses ++ [.ok out] ∧ out.length = data.length ∧ t.meOff = s.meOff + data.length ∧
      t.meFb = chainBlock c s.meFb (zipXor data out) (data.length / c.blockSize) ∧
      ∀ i, i < data.length / c.blockSize →
        blockAt c out i =
          cipherEnc c s.fnRk (zipXor (blockAt c data i) (chainBlock c s.meFb (zipXor data out) i))) ∧
    (s.Ready c .dec data → ∃ t out, execOn c (.meDec (some data)) s = .next t ∧
      t.responses = s.responses ++ [.ok out] ∧ out.length = data.length ∧ t.meOff = s.meOff + data.length ∧
      t.meFb = chainBlock c s.meFb (zipXor out data) (data.length / c.blockSize) ∧
      ∀ i, i < data.length / c.blockSize →
        blockAt c out i =
          zipXor (cipherDec c s.fnRk (blockAt c data i)) (chainBlock c s.meFb (zipXor out data) i))

/-- CFB block by block: `C_i = P_i XOR E(C_{i-1})` and `P_i = C_i XOR E(C_{i-1})`, `C_{-1}` being `ME.FB` (rules R240,
R241). -/
def Obligations.CfbChainsOnTheCiphertext : Prop :=
  ∀ (c : Params) (s : State) (data : Bytes), s.meMode = .cfb →
    (s.Ready c .enc data → ∃ t out, execOn c (.meEnc (some data)) s = .next t ∧
      t.responses = s.responses ++ [.ok out] ∧ out.length = data.length ∧ t.meOff = s.meOff + data.length ∧
      t.meFb = chainBlock c s.meFb out (data.length / c.blockSize) ∧
      ∀ i, i < data.length / c.blockSize →
        blockAt c out i = zipXor (blockAt c data i) (cipherEnc c s.fnRk (chainBlock c s.meFb out i))) ∧
    (s.Ready c .dec data → ∃ t out, execOn c (.meDec (some data)) s = .next t ∧
      t.responses = s.responses ++ [.ok out] ∧ out.length = data.length ∧ t.meOff = s.meOff + data.length ∧
      t.meFb = chainBlock c s.meFb data (data.length / c.blockSize) ∧
      ∀ i, i < data.length / c.blockSize →
        blockAt c out i = zipXor (blockAt c data i) (cipherEnc c s.fnRk (chainBlock c s.meFb data i)))

/-- OFB in both directions: the input under the keystream `K_i = E(K_{i-1})`, `K_{-1} = IV`, at the session's offset; the
invariant that ties `ME.FB` to `ME.OFF` is kept (rules R262, R37). -/
def Obligations.OfbStaysInStepWithItsKeystream : Prop :=
  ∀ (c : Params) (s : State) (data : Bytes) (d : Dir), d ≠ .none → s.meMode = .ofb → s.OfbSync c → s.Ready c d data →
    ∃ t out, execOn c (transformCommand d data) s = .next t ∧ t.responses = s.responses ++ [.ok out] ∧
      UnderKeystream c (fun i => ofbChain c s.fnRk s.meIv (i + 1)) s.meOff data out ∧
      t.meOff = s.meOff + data.length ∧ t.OfbSync c

/-- CTR in both directions: the input under the keystream `K_i = E(IV + i)`, the addition being on the last 8 bytes modulo
`2^64`, at the session's offset; `ME.IV` and `ME.FB` stand (rules R265, R266). -/
def Obligations.CtrUsesItsCounterKeystream : Prop :=
  ∀ (c : Params) (s : State) (data : Bytes) (d : Dir), d ≠ .none → s.meMode = .ctr → s.Ready c d data →
    ∃ t out, execOn c (transformCommand d data) s = .next t ∧ t.responses = s.responses ++ [.ok out] ∧
      UnderKeystream c (ctrBlock c s.fnRk s.meIv) s.meOff data out ∧
      t.meOff = s.meOff + data.length ∧ t.meIv = s.meIv ∧ t.meFb = s.meFb

/-- RD encryption: on a session's first call one header block `E(delta)`, then (and on later calls only) the input under the
keystream `E(IV + delta * i)` at the session's offset, to which the header does not count (rules R284, R286). -/
def Obligations.RdEncryptsUnderItsStride : Prop :=
  ∀ (c : Params) (s : State) (data : Bytes), s.meMode = .rd → s.Ready c .enc data →
    ∃ t body, execOn c (.meEnc (some data)) s = .next t ∧
      t.responses = s.responses ++
        [.ok ((if s.meFirst = true then cipherEnc c s.fnRk s.meDelta else []) ++ body)] ∧
      UnderKeystream c (rdBlock c s.fnRk s.meIv s.meDelta) s.meOff data body ∧
      t.meFirst = false ∧ t.meDelta = s.meDelta ∧ t.meOff = s.meOff + data.length

/-- RD decryption: a session's first call takes the first block of its input as `delta = D(header)`; the rest (on later
calls all) of the input is under the keystream of the delta then in force (rules R288, R284). -/
def Obligations.RdDecryptsUnderTheStrideOfItsHeader : Prop :=
  ∀ (c : Params) (s : State) (data : Bytes), s.meMode = .rd → s.Ready c .dec data →
    ∃ t out, execOn c (.meDec (some data)) s = .next t ∧ t.responses = s.responses ++ [.ok out] ∧
      t.meDelta = (if s.meFirst = true then cipherDec c s.fnRk (data.take c.blockSize) else s.meDelta) ∧
      UnderKeystream c (rdBlock c s.fnRk s.meIv t.meDelta) s.meOff
        (if s.meFirst = true then data.drop c.blockSize else data) out ∧
      t.meFirst = false ∧ t.meOff = s.meOff + out.length

/-- The first `ME_DEC` of an RD session with fewer than `B` bytes fails InvalidArgument and leaves `ME.FIRST` and every
other register as it was (rule R288: "ciphertext too short"). -/
def Obligations.RdFirstDecryptNeedsTheHeader : Prop :=
  ∀ (s : State) (data : Bytes), s.meInit = true → s.fnInit = true → s.meMode = .rd → s.meFirst = true →
    s.meDir ≠ .enc → data.length < Config.params.blockSize →
    exec (.meDec (some data)) s = .next { s with responses := s.responses ++ [.failure .invalidArgument] }

/-- Empty input passes in every mode: `ME_ENC` and `ME_DEC` answer empty and change nothing but the latch, but in RD a
session's first `ME_ENC` answers the header alone and clears `ME.FIRST`, and its first `ME_DEC` fails InvalidArgument
(rule R217). -/
def Obligations.EmptyInputChangesOnlyTheLatch : Prop :=
  (∀ (c : Params) (s : State) (d : Dir), d ≠ .none → s.Ready c d [] → ¬(s.meMode = .rd ∧ s.meFirst = true) →
    execOn c (transformCommand d []) s = .next { s with
      meDir := if s.meDir = .none then d else s.meDir, responses := s.responses ++ [.ok []] }) ∧
  (∀ (c : Params) (s : State), s.Ready c .enc [] → s.meMode = .rd → s.meFirst = true →
    ∃ t, execOn c (.meEnc (some [])) s = .next t ∧ t.meFirst = false ∧ t.meOff = s.meOff ∧
      t.responses = s.responses ++ [.ok (cipherEnc c s.fnRk s.meDelta)]) ∧
  (∀ (c : Params) (s : State), s.meInit = true → s.fnInit = true → s.meMode = .rd → s.meFirst = true →
    s.meDir ≠ .enc →
    execOn c (.meDec (some [])) s = .next { s with responses := s.responses ++ [.failure .invalidArgument] })

-- ---------------------------------------------------------------- whole sessions

/-- In every mode but RD, what a session encrypts a fresh session of the same mode, IV and round keys decrypts to the input
(rule R244 for the block-aligned modes; rules R262, R265 for OFB and CTR). -/
def Obligations.SessionRoundTrip : Prop :=
  ∀ (c : Params) (s : State) (m : Mode) (iv data : Bytes), m ≠ .rd → s.FnReady c → s.Shaped c →
    iv.length = c.blockSize → (m = .ctr → 8 ≤ c.blockSize) →
    (m.requiresPadding = true → data.length % c.blockSize = 0) → data.length ≤ c.maxOff →
    ∃ t out, runCommands (execOn c) [.meInit m.sel (some iv) none, .meEnc (some data)] s = .next t ∧
      t.responses = s.responses ++ [.ok [], .ok out] ∧
      ∃ u, runCommands (execOn c) [.meInit m.sel (some iv) none, .meDec (some out)] t = .next u ∧
        u.responses = t.responses ++ [.ok [], .ok data]

/-- An RD ciphertext decrypts to the input in a fresh session under the same round keys and IV, whatever seed (or none) the
decrypting side is given (rule R292). -/
def Obligations.RdRoundTripUnderAnySeed : Prop :=
  ∀ (c : Params) (s : State) (iv data : Bytes) (seedEnc seedDec : Option (BitVec 64)), s.FnReady c →
    iv.length = c.blockSize → data.length ≤ c.maxOff → data.length ≤ 2 ^ 32 * c.blockSize →
    data.length + c.blockSize ≤ maxLen →
    ∃ t out, runCommands (execOn c) [.meInit 6 (some iv) seedEnc, .meEnc (some data)] s = .next t ∧
      t.responses = s.responses ++ [.ok [], .ok out] ∧
      ∃ u, runCommands (execOn c) [.meInit 6 (some iv) seedDec, .meDec (some out)] t = .next u ∧
        u.responses = t.responses ++ [.ok [], .ok data] ∧ u.meDelta = t.meDelta

/-- Two RD sessions under seeds whose deltas differ give ciphertexts whose first blocks differ, whatever the plaintext
(rule R296, under P-SEED-1001-2002 of rule R283). -/
def Obligations.RdSeedsGiveDifferentCiphertexts : Prop :=
  ∀ (c : Params) (s : State) (iv data out1 out2 : Bytes) (t1 t2 : State), iv.length = c.blockSize →
    c.deltaFromSeed 1001 ≠ c.deltaFromSeed 2002 →
    runCommands (execOn c) [.meInit 6 (some iv) (some 1001), .meEnc (some data)] s = .next t1 →
    t1.responses = s.responses ++ [.ok [], .ok out1] →
    runCommands (execOn c) [.meInit 6 (some iv) (some 2002), .meEnc (some data)] s = .next t2 →
    t2.responses = s.responses ++ [.ok [], .ok out2] →
    out1.take c.blockSize ≠ out2.take c.blockSize

/-- Continuation across calls: in every mode and direction, input cut in two (at a block boundary in the block-aligned
modes by rule R216; not inside the header block in a first RD decryption, by rules R288 and R405) gives two responses whose
concatenation is the response to the whole, and the same registers. -/
def Obligations.SplitInputGivesTheSameSession : Prop :=
  ∀ (c : Params) (s : State) (x y : Bytes) (d : Dir), d ≠ .none → s.Ready c d (x ++ y) →
    (s.meMode.requiresPadding = true → x.length % c.blockSize = 0) →
    (s.meMode = .rd → s.meFirst = true → d = .dec → c.blockSize ≤ x.length) →
    ∃ t1 t2 u o1 o2, execOn c (transformCommand d x) s = .next t1 ∧ t1.responses = s.responses ++ [.ok o1] ∧
      execOn c (transformCommand d y) t1 = .next t2 ∧ t2.responses = t1.responses ++ [.ok o2] ∧
      execOn c (transformCommand d (x ++ y)) s = .next u ∧ u.responses = s.responses ++ [.ok (o1 ++ o2)] ∧
      t2.SameRegisters u

/-- Diffusion: two different inputs of one length, encrypted from one state, have different ciphertexts, in every mode. -/
def Obligations.DifferentInputsEncryptDifferently : Prop :=
  ∀ (c : Params) (s : State) (x y : Bytes), x.length = y.length → x ≠ y → s.Ready c .enc x →
    ∃ t u o1 o2, execOn c (.meEnc (some x)) s = .next t ∧ t.responses = s.responses ++ [.ok o1] ∧
      execOn c (.meEnc (some y)) s = .next u ∧ u.responses = s.responses ++ [.ok o2] ∧ o1 ≠ o2

-- ---------------------------------------------------------------- whole machine

/-- A failing command writes no architectural state: the next state differs from the one before only in the failure response
appended, whose frame carries the kind's status and no payload (rule R362); and the hardware block never answers
DataIntegrity or IO (rules R354, R355). -/
def Obligations.FailureChangesNoState : Prop :=
  ∀ (i : Instr) (s t : State) (k : FailKind), exec i s = .next t → t.responses = s.responses ++ [.failure k] →
    t = { s with responses := s.responses ++ [.failure k] } ∧
      (Response.failure k).encode = [k.code, 0, 0, 0, 0, 0, 0, 0] ∧ k ≠ .dataIntegrity ∧ k ≠ .io

/-- Every step either waits or takes one whole frame off the front of the command stream and appends exactly one response
(rule R100). -/
def Obligations.OneResponsePerFrame : Prop :=
  ∀ s t : State, step s = .next t → t = s ∨
    ∃ (used : Bytes) (r : Response), s.cmdStream = used ++ t.cmdStream ∧
      used.length = 16 + be ((used.drop 4).take 4) ∧ t.responses = s.responses ++ [r]

/-- `FN_ENC`, `FN_DEC`, `FN_CAPS` and `ME_CAPS` write no persistent state, and repeating one gives the same response; in ECB
`ME_ENC` and `ME_DEC` write `ME.OFF` and the latch only, and a repeat that runs gives the same response (rule R71). -/
def Obligations.ReadOnlyCommandsRepeat : Prop :=
  (∀ (i : Instr) (s t : State), i.opcode ∈ [Opcode.fnEnc, .fnDec, .fnCaps, .meCaps] → exec i s = .next t →
    s.SameRegisters t ∧
    ∃ (r : Response) (u : State), t.responses = s.responses ++ [r] ∧ exec i t = .next u ∧
      u.responses = t.responses ++ [r]) ∧
  (∀ (i : Instr) (s t : State), i.opcode ∈ [Opcode.meEnc, .meDec] → s.meMode = .ecb → exec i s = .next t →
    s.SameRegisters { t with meOff := s.meOff, meDir := s.meDir } ∧
    ∃ r : Response, t.responses = s.responses ++ [r] ∧
      ∀ u, exec i t = .next u → u.responses = t.responses ++ [r])

/-- Only `FN_INIT` and reset write `FN.RK` (rule R21), and `FN.INIT` with it. -/
def Obligations.RoundKeysAreSetOnlyByInit : Prop :=
  ∀ (i : Instr) (s t : State), i.opcode ∉ [Opcode.fnInit, .sysReset] → exec i s = .next t →
    t.fnRk = s.fnRk ∧ t.fnInit = s.fnInit

/-- Only `ME_INIT` and reset write `ME.IV` (rule R34), `ME.MODE` and `ME.INIT`; within a session `ME.OFF` never decreases
(rule R36), and `ME.DELTA` changes only by an RD session's first `ME_DEC` (rule R38). -/
def Obligations.SessionRegistersBelongToInit : Prop :=
  ∀ (i : Instr) (s t : State), i.opcode ∉ [Opcode.meInit, .sysReset] → exec i s = .next t →
    t.meIv = s.meIv ∧ t.meMode = s.meMode ∧ t.meInit = s.meInit ∧ s.meOff ≤ t.meOff ∧
    (¬(i.opcode = .meDec ∧ s.meMode = .rd ∧ s.meFirst = true) → t.meDelta = s.meDelta)

/-- `SYS_RESET` completes in every state and leaves the registers of rule R45 at their reset values, whatever it leaves in
the others (rule R391). That the command stream stands, so that the commands sent after it still run, is the model's reading,
log entry 20. -/
def Obligations.SysResetRestoresResetValues : Prop :=
  ∀ s : State, ∃ t, exec .sysReset s = .next t ∧ t.responses = s.responses ++ [.ok []] ∧
    t.cmdStream = s.cmdStream ∧ t.fnInit = false ∧ t.fnRk = [] ∧ t.meInit = false ∧ t.meOff = 0 ∧ t.meDir = .none

/-- After `SYS_RESET` no transform runs: `FN_ENC`, `FN_DEC`, `ME_ENC`, `ME_DEC` fail InvalidState whatever their operand
(rule R391's example; rules R174, R210). -/
def Obligations.NothingRunsAfterSysReset : Prop :=
  ∀ (s t : State) (op : Operand), exec .sysReset s = .next t →
    ∀ i ∈ [Instr.fnEnc op, .fnDec op, .meEnc op, .meDec op],
      exec i t = .next { t with responses := t.responses ++ [.failure .invalidState] }

/-- The reset values the spec gives (rule R45). -/
def Obligations.ResetValuesOfTheSpec : Prop :=
  State.reset.fnInit = false ∧ State.reset.fnRk = [] ∧ State.reset.meInit = false ∧ State.reset.meOff = 0 ∧
  State.reset.meDir = .none

/-- The invariant holds after reset. -/
def Obligations.InvariantHoldsAtReset : Prop := State.reset.Inv Config.params

/-- Every step keeps the invariant: round keys counted, block registers of one block, offsets aligned in the block-aligned
modes, `ME.FIRST` in step with the direction latch. -/
def Obligations.StepKeepsTheInvariant : Prop :=
  ∀ s t : State, s.Inv Config.params → step s = .next t → t.Inv Config.params

/-- In a state that meets the invariant a step is refused only in the cases spec/93_implementation_defined.md names, each in
its own circumstances; in particular no BA function is ever called outside its domain (rule R140, 93 U6). -/
def Obligations.RefusalsAreTheSpecsOwn : Prop :=
  ∀ (s : State) (i : Instr) (r : Refusal), s.Inv Config.params → exec i s = .refused r →
    (r = .directionMixed ∧ s.meInit = true ∧ s.meMode ≠ .ecb ∧
      (i.opcode = .meEnc ∧ s.meDir = .dec ∨ i.opcode = .meDec ∧ s.meDir = .enc)) ∨
    (r = .offsetOverflow ∧ i.opcode ∈ [Opcode.meEnc, .meDec] ∧
      Config.params.maxOff < s.meOff + i.payload.length) ∨
    (r = .ctrBlockTooSmall ∧ i.opcode = .meInit ∧ i.sel = 5 ∧ Config.params.blockSize < 8) ∨
    (r = .rdIndexTooLarge ∧ s.meMode = .rd ∧ i.opcode ∈ [Opcode.meEnc, .meDec] ∧
      2 ^ 32 * Config.params.blockSize < s.meOff + i.payload.length) ∨
    (r = .resultTooLong ∧ s.meMode = .rd ∧ s.meFirst = true ∧ i.opcode = .meEnc ∧
      maxLen < i.payload.length + Config.params.blockSize)

-- ---------------------------------------------------------------- host side

/-- Padding algebra (rule R324): removing what was applied gives the data back for the three schemes with a length byte,
whatever the filler, on blocks up to 255 bytes (on longer ones a model refuses, rule R311); for Zeros it does unless the data
ends in a zero byte. -/
def Obligations.PaddingComesOffAgain : Prop :=
  ∀ (filler : Nat → Byte) (size : Nat) (data : Bytes), 0 < size →
    (∀ scheme, scheme ≠ PadScheme.zeros → size ≤ 255 → ∃ buf, applyPad filler size scheme data = .ok buf ∧
      removePad scheme buf = .ok data ∧ buf.length % size = 0 ∧ data.length < buf.length ∧
      buf.length ≤ data.length + size) ∧
    (∀ scheme, scheme ≠ PadScheme.zeros → 255 < size → applyPad filler size scheme data = .error .padBlockTooLarge) ∧
    (∃ buf, applyPad filler size .zeros data = .ok buf ∧ buf.length % size = 0 ∧
      (removePad .zeros buf = .ok data ↔ data.getLast? ≠ some 0))

/-- A bad length byte is rejected with DataIntegrity by the three schemes that have one: 0, or more than the buffer holds;
so is an empty buffer (rules R315, R317, R319, R323, R324). -/
def Obligations.BadLengthBytesAreRejected : Prop :=
  ∀ (scheme : PadScheme) (data : Bytes), scheme ≠ .zeros →
    (data = [] ∨ ∃ last, data.getLast? = some last ∧ (last = 0 ∨ data.length < last.toNat)) →
    removePad scheme data = .error (.failure .dataIntegrity)
end

