-- ==== Sys2Proof/Laws/ByteArith.lean ====
section
/-! SUPPORT. The laws of the byte-arithmetic unit: lengths, the value of a byte sequence, and what each partial function
answers on its domain. -/

namespace Sys2Proof.Machine

@[simp] theorem tabulate_length (n : Nat) (f : Nat → Byte) : (tabulate n f).length = n := by simp [tabulate]

@[simp] theorem zeros_length (n : Nat) : (zeros n).length = n := by simp [zeros]

@[simp] theorem zipXor_length (a b : Bytes) : (zipXor a b).length = min a.length b.length := by simp [zipXor]

/-- On equal lengths `Xor` has a value (rule R141). -/
theorem xor_eq_some {a b : Bytes} (h : a.length = b.length) : xor a b = some (zipXor a b) := if_pos h

/-- A second exclusive-or with the same operand undoes the first. -/
theorem zipXor_cancel : ∀ {a b : Bytes}, a.length ≤ b.length → zipXor (zipXor a b) b = a
  | [], _, _ => by simp [zipXor]
  | _ :: _, [], h => by simp at h
  | x :: xs, y :: ys, h => by
    have ih := zipXor_cancel (a := xs) (b := ys) (by simpa using h)
    simp only [zipXor, List.zipWith_cons_cons] at ih ⊢
    rw [ih, BitVec.xor_assoc, BitVec.xor_self, BitVec.xor_zero]

theorem zipXor_comm (a b : Bytes) : zipXor a b = zipXor b a := by
  unfold zipXor
  rw [List.zipWith_comm]
  congr 1
  funext x y
  exact BitVec.xor_comm ..

@[simp] theorem beBytes_length : ∀ n v, (beBytes n v).length = n
  | 0, _ => rfl
  | n + 1, v => by simp [beBytes, beBytes_length n v]

theorem be_lt : ∀ a : Bytes, be a < 256 ^ a.length
  | [] => by simp [be]
  | x :: xs => by
    have h := be_lt xs
    have hx : x.toNat < 256 := x.isLt
    have hm : x.toNat * 256 ^ xs.length ≤ 255 * 256 ^ xs.length := Nat.mul_le_mul_right _ (by omega)
    simp only [be, List.length_cons, Nat.pow_succ]
    omega

/-- Reading back what `be_n` wrote. -/
theorem be_beBytes : ∀ n v, be (beBytes n v) = v % 256 ^ n
  | 0, v => by simp [be, beBytes, Nat.mod_one]
  | n + 1, v => by
    have ih := be_beBytes n v
    simp only [beBytes, be, beBytes_length, ih, BitVec.toNat_ofNat]
    rw [show (2 : Nat) ^ 8 = 256 from rfl, Nat.pow_succ 256 n, Nat.mod_mul]
    ring

theorem be_append (a b : Bytes) : be (a ++ b) = be a * 256 ^ b.length + be b := by
  induction a with
  | nil => simp [be]
  | cons x xs ih =>
    simp only [List.cons_append, be, ih, List.length_append, Nat.pow_add]
    ring

/-- Two byte sequences of one length with one value are equal. -/
theorem be_injective : ∀ {a b : Bytes}, a.length = b.length → be a = be b → a = b
  | [], [], _, _ => rfl
  | [], _ :: _, h, _ => by simp at h
  | _ :: _, [], h, _ => by simp at h
  | x :: xs, y :: ys, h, hv => by
    have hl : xs.length = ys.length := by simpa using h
    have hx := be_lt xs
    have hy := be_lt ys
    simp only [be, hl] at hv hx
    have hxy : x.toNat = y.toNat := by
      have h1 : (x.toNat * 256 ^ ys.length + be xs) / 256 ^ ys.length = x.toNat := by
        rw [Nat.mul_comm, Nat.mul_add_div (by positivity), Nat.div_eq_of_lt hx]; rfl
      have h2 : (y.toNat * 256 ^ ys.length + be ys) / 256 ^ ys.length = y.toNat := by
        rw [Nat.mul_comm, Nat.mul_add_div (by positivity), Nat.div_eq_of_lt hy]; rfl
      rw [← h1, ← h2, hv]
    have hb : be xs = be ys := by rw [hxy] at hv; omega
    rw [be_injective hl hb, BitVec.eq_of_toNat_eq hxy]

@[simp] theorem addLoop_length : ∀ {a b : Bytes}, a.length = b.length → (addLoop a b).1.length = a.length
  | [], [], _ => rfl
  | [], _ :: _, h => by simp at h
  | _ :: _, [], h => by simp at h
  | _ :: xs, _ :: ys, h => by simp [addLoop, addLoop_length (a := xs) (b := ys) (by simpa using h)]

@[simp] theorem mulLoop_length (m : Nat) : ∀ a : Bytes, (mulLoop m a).1.length = a.length
  | [] => rfl
  | _ :: xs => by simp [mulLoop, mulLoop_length m xs]

/-- `Split` on its domain (rule R143). -/
theorem split_eq_some {size : Nat} {d : Bytes} (h : d.length % size = 0) :
    split size d = some (takeBlocks size (d.length / size) d) := if_pos h

@[simp] theorem takeBlocks_length (size : Nat) : ∀ n d, (takeBlocks size n d).length = n
  | 0, _ => rfl
  | n + 1, d => by simp [takeBlocks, takeBlocks_length size n]

end Sys2Proof.Machine
end

