-- ==== Sys2Proof/Laws/State.lean ====
section
/-! SUPPORT. One lemma per field per named update of the state. -/

namespace Sys2Proof.Machine

@[simp] theorem State.respond_fnInit (s : State) (r : Response) : (s.respond r).fnInit = s.fnInit := rfl
@[simp] theorem State.respond_fnRk (s : State) (r : Response) : (s.respond r).fnRk = s.fnRk := rfl
@[simp] theorem State.respond_fnL (s : State) (r : Response) : (s.respond r).fnL = s.fnL := rfl
@[simp] theorem State.respond_fnR (s : State) (r : Response) : (s.respond r).fnR = s.fnR := rfl
@[simp] theorem State.respond_fnI (s : State) (r : Response) : (s.respond r).fnI = s.fnI := rfl
@[simp] theorem State.respond_meInit (s : State) (r : Response) : (s.respond r).meInit = s.meInit := rfl
@[simp] theorem State.respond_meMode (s : State) (r : Response) : (s.respond r).meMode = s.meMode := rfl
@[simp] theorem State.respond_meIv (s : State) (r : Response) : (s.respond r).meIv = s.meIv := rfl
@[simp] theorem State.respond_meFb (s : State) (r : Response) : (s.respond r).meFb = s.meFb := rfl
@[simp] theorem State.respond_meOff (s : State) (r : Response) : (s.respond r).meOff = s.meOff := rfl
@[simp] theorem State.respond_meDelta (s : State) (r : Response) : (s.respond r).meDelta = s.meDelta := rfl
@[simp] theorem State.respond_meFirst (s : State) (r : Response) : (s.respond r).meFirst = s.meFirst := rfl
@[simp] theorem State.respond_meDir (s : State) (r : Response) : (s.respond r).meDir = s.meDir := rfl
@[simp] theorem State.respond_cmdStream (s : State) (r : Response) : (s.respond r).cmdStream = s.cmdStream := rfl
@[simp] theorem State.respond_responses (s : State) (r : Response) : (s.respond r).responses = s.responses ++ [r] := rfl
@[simp] theorem State.respond_draws (s : State) (r : Response) : (s.respond r).draws = s.draws := rfl

@[simp] theorem State.consume_fnInit (rest : Bytes) (s : State) : (s.consume rest).fnInit = s.fnInit := rfl
@[simp] theorem State.consume_fnRk (rest : Bytes) (s : State) : (s.consume rest).fnRk = s.fnRk := rfl
@[simp] theorem State.consume_fnL (rest : Bytes) (s : State) : (s.consume rest).fnL = s.fnL := rfl
@[simp] theorem State.consume_fnR (rest : Bytes) (s : State) : (s.consume rest).fnR = s.fnR := rfl
@[simp] theorem State.consume_fnI (rest : Bytes) (s : State) : (s.consume rest).fnI = s.fnI := rfl
@[simp] theorem State.consume_meInit (rest : Bytes) (s : State) : (s.consume rest).meInit = s.meInit := rfl
@[simp] theorem State.consume_meMode (rest : Bytes) (s : State) : (s.consume rest).meMode = s.meMode := rfl
@[simp] theorem State.consume_meIv (rest : Bytes) (s : State) : (s.consume rest).meIv = s.meIv := rfl
@[simp] theorem State.consume_meFb (rest : Bytes) (s : State) : (s.consume rest).meFb = s.meFb := rfl
@[simp] theorem State.consume_meOff (rest : Bytes) (s : State) : (s.consume rest).meOff = s.meOff := rfl
@[simp] theorem State.consume_meDelta (rest : Bytes) (s : State) : (s.consume rest).meDelta = s.meDelta := rfl
@[simp] theorem State.consume_meFirst (rest : Bytes) (s : State) : (s.consume rest).meFirst = s.meFirst := rfl
@[simp] theorem State.consume_meDir (rest : Bytes) (s : State) : (s.consume rest).meDir = s.meDir := rfl
@[simp] theorem State.consume_cmdStream (rest : Bytes) (s : State) : (s.consume rest).cmdStream = rest := rfl
@[simp] theorem State.consume_responses (rest : Bytes) (s : State) : (s.consume rest).responses = s.responses := rfl
@[simp] theorem State.consume_draws (rest : Bytes) (s : State) : (s.consume rest).draws = s.draws := rfl

@[simp] theorem State.drawTransients_fnInit (c : Params) (s : State) : (s.drawTransients c).fnInit = s.fnInit := rfl
@[simp] theorem State.drawTransients_fnRk (c : Params) (s : State) : (s.drawTransients c).fnRk = s.fnRk := rfl
@[simp] theorem State.drawTransients_fnL (c : Params) (s : State) : (s.drawTransients c).fnL = tabulate c.half (c.freeL s.draws) := rfl
@[simp] theorem State.drawTransients_fnR (c : Params) (s : State) : (s.drawTransients c).fnR = tabulate c.half (c.freeR s.draws) := rfl
@[simp] theorem State.drawTransients_fnI (c : Params) (s : State) : (s.drawTransients c).fnI = c.drawRound s.draws := rfl
@[simp] theorem State.drawTransients_meInit (c : Params) (s : State) : (s.drawTransients c).meInit = s.meInit := rfl
@[simp] theorem State.drawTransients_meMode (c : Params) (s : State) : (s.drawTransients c).meMode = s.meMode := rfl
@[simp] theorem State.drawTransients_meIv (c : Params) (s : State) : (s.drawTransients c).meIv = s.meIv := rfl
@[simp] theorem State.drawTransients_meFb (c : Params) (s : State) : (s.drawTransients c).meFb = s.meFb := rfl
@[simp] theorem State.drawTransients_meOff (c : Params) (s : State) : (s.drawTransients c).meOff = s.meOff := rfl
@[simp] theorem State.drawTransients_meDelta (c : Params) (s : State) : (s.drawTransients c).meDelta = s.meDelta := rfl
@[simp] theorem State.drawTransients_meFirst (c : Params) (s : State) : (s.drawTransients c).meFirst = s.meFirst := rfl
@[simp] theorem State.drawTransients_meDir (c : Params) (s : State) : (s.drawTransients c).meDir = s.meDir := rfl
@[simp] theorem State.drawTransients_cmdStream (c : Params) (s : State) : (s.drawTransients c).cmdStream = s.cmdStream := rfl
@[simp] theorem State.drawTransients_responses (c : Params) (s : State) : (s.drawTransients c).responses = s.responses := rfl
@[simp] theorem State.drawTransients_draws (c : Params) (s : State) : (s.drawTransients c).draws = s.draws + 1 := rfl

@[simp] theorem State.drawIv_fnInit (c : Params) (s : State) : (s.drawIv c).fnInit = s.fnInit := rfl
@[simp] theorem State.drawIv_fnRk (c : Params) (s : State) : (s.drawIv c).fnRk = s.fnRk := rfl
@[simp] theorem State.drawIv_fnL (c : Params) (s : State) : (s.drawIv c).fnL = s.fnL := rfl
@[simp] theorem State.drawIv_fnR (c : Params) (s : State) : (s.drawIv c).fnR = s.fnR := rfl
@[simp] theorem State.drawIv_fnI (c : Params) (s : State) : (s.drawIv c).fnI = s.fnI := rfl
@[simp] theorem State.drawIv_meInit (c : Params) (s : State) : (s.drawIv c).meInit = s.meInit := rfl
@[simp] theorem State.drawIv_meMode (c : Params) (s : State) : (s.drawIv c).meMode = s.meMode := rfl
@[simp] theorem State.drawIv_meIv (c : Params) (s : State) :
    (s.drawIv c).meIv = tabulate c.blockSize (c.freeIv s.draws) := rfl
@[simp] theorem State.drawIv_meFb (c : Params) (s : State) :
    (s.drawIv c).meFb = tabulate c.blockSize (c.freeFb s.draws) := rfl
@[simp] theorem State.drawIv_meOff (c : Params) (s : State) : (s.drawIv c).meOff = s.meOff := rfl
@[simp] theorem State.drawIv_meDelta (c : Params) (s : State) : (s.drawIv c).meDelta = s.meDelta := rfl
@[simp] theorem State.drawIv_meFirst (c : Params) (s : State) : (s.drawIv c).meFirst = s.meFirst := rfl
@[simp] theorem State.drawIv_meDir (c : Params) (s : State) : (s.drawIv c).meDir = s.meDir := rfl
@[simp] theorem State.drawIv_cmdStream (c : Params) (s : State) : (s.drawIv c).cmdStream = s.cmdStream := rfl
@[simp] theorem State.drawIv_responses (c : Params) (s : State) : (s.drawIv c).responses = s.responses := rfl
@[simp] theorem State.drawIv_draws (c : Params) (s : State) : (s.drawIv c).draws = s.draws := rfl

@[simp] theorem State.drawDelta_fnInit (c : Params) (s : State) : (s.drawDelta c).fnInit = s.fnInit := rfl
@[simp] theorem State.drawDelta_fnRk (c : Params) (s : State) : (s.drawDelta c).fnRk = s.fnRk := rfl
@[simp] theorem State.drawDelta_fnL (c : Params) (s : State) : (s.drawDelta c).fnL = s.fnL := rfl
@[simp] theorem State.drawDelta_fnR (c : Params) (s : State) : (s.drawDelta c).fnR = s.fnR := rfl
@[simp] theorem State.drawDelta_fnI (c : Params) (s : State) : (s.drawDelta c).fnI = s.fnI := rfl
@[simp] theorem State.drawDelta_meInit (c : Params) (s : State) : (s.drawDelta c).meInit = s.meInit := rfl
@[simp] theorem State.drawDelta_meMode (c : Params) (s : State) : (s.drawDelta c).meMode = s.meMode := rfl
@[simp] theorem State.drawDelta_meIv (c : Params) (s : State) : (s.drawDelta c).meIv = s.meIv := rfl
@[simp] theorem State.drawDelta_meFb (c : Params) (s : State) : (s.drawDelta c).meFb = s.meFb := rfl
@[simp] theorem State.drawDelta_meOff (c : Params) (s : State) : (s.drawDelta c).meOff = s.meOff := rfl
@[simp] theorem State.drawDelta_meDelta (c : Params) (s : State) :
    (s.drawDelta c).meDelta = tabulate c.blockSize (c.freeDelta s.draws) := rfl
@[simp] theorem State.drawDelta_meFirst (c : Params) (s : State) : (s.drawDelta c).meFirst = c.freeFirst s.draws := rfl
@[simp] theorem State.drawDelta_meDir (c : Params) (s : State) : (s.drawDelta c).meDir = s.meDir := rfl
@[simp] theorem State.drawDelta_cmdStream (c : Params) (s : State) : (s.drawDelta c).cmdStream = s.cmdStream := rfl
@[simp] theorem State.drawDelta_responses (c : Params) (s : State) : (s.drawDelta c).responses = s.responses := rfl
@[simp] theorem State.drawDelta_draws (c : Params) (s : State) : (s.drawDelta c).draws = s.draws := rfl

@[simp] theorem State.countDraw_fnInit (s : State) : (s.countDraw).fnInit = s.fnInit := rfl
@[simp] theorem State.countDraw_fnRk (s : State) : (s.countDraw).fnRk = s.fnRk := rfl
@[simp] theorem State.countDraw_fnL (s : State) : (s.countDraw).fnL = s.fnL := rfl
@[simp] theorem State.countDraw_fnR (s : State) : (s.countDraw).fnR = s.fnR := rfl
@[simp] theorem State.countDraw_fnI (s : State) : (s.countDraw).fnI = s.fnI := rfl
@[simp] theorem State.countDraw_meInit (s : State) : (s.countDraw).meInit = s.meInit := rfl
@[simp] theorem State.countDraw_meMode (s : State) : (s.countDraw).meMode = s.meMode := rfl
@[simp] theorem State.countDraw_meIv (s : State) : (s.countDraw).meIv = s.meIv := rfl
@[simp] theorem State.countDraw_meFb (s : State) : (s.countDraw).meFb = s.meFb := rfl
@[simp] theorem State.countDraw_meOff (s : State) : (s.countDraw).meOff = s.meOff := rfl
@[simp] theorem State.countDraw_meDelta (s : State) : (s.countDraw).meDelta = s.meDelta := rfl
@[simp] theorem State.countDraw_meFirst (s : State) : (s.countDraw).meFirst = s.meFirst := rfl
@[simp] theorem State.countDraw_meDir (s : State) : (s.countDraw).meDir = s.meDir := rfl
@[simp] theorem State.countDraw_cmdStream (s : State) : (s.countDraw).cmdStream = s.cmdStream := rfl
@[simp] theorem State.countDraw_responses (s : State) : (s.countDraw).responses = s.responses := rfl
@[simp] theorem State.countDraw_draws (s : State) : (s.countDraw).draws = s.draws + 1 := rfl

@[simp] theorem State.openSession_fnInit (m : Mode) (s : State) : (s.openSession m).fnInit = s.fnInit := rfl
@[simp] theorem State.openSession_fnRk (m : Mode) (s : State) : (s.openSession m).fnRk = s.fnRk := rfl
@[simp] theorem State.openSession_fnL (m : Mode) (s : State) : (s.openSession m).fnL = s.fnL := rfl
@[simp] theorem State.openSession_fnR (m : Mode) (s : State) : (s.openSession m).fnR = s.fnR := rfl
@[simp] theorem State.openSession_fnI (m : Mode) (s : State) : (s.openSession m).fnI = s.fnI := rfl
@[simp] theorem State.openSession_meInit (m : Mode) (s : State) : (s.openSession m).meInit = true := rfl
@[simp] theorem State.openSession_meMode (m : Mode) (s : State) : (s.openSession m).meMode = m := rfl
@[simp] theorem State.openSession_meIv (m : Mode) (s : State) : (s.openSession m).meIv = s.meIv := rfl
@[simp] theorem State.openSession_meFb (m : Mode) (s : State) : (s.openSession m).meFb = s.meFb := rfl
@[simp] theorem State.openSession_meOff (m : Mode) (s : State) : (s.openSession m).meOff = 0 := rfl
@[simp] theorem State.openSession_meDelta (m : Mode) (s : State) : (s.openSession m).meDelta = s.meDelta := rfl
@[simp] theorem State.openSession_meFirst (m : Mode) (s : State) : (s.openSession m).meFirst = s.meFirst := rfl
@[simp] theorem State.openSession_meDir (m : Mode) (s : State) : (s.openSession m).meDir = .none := rfl
@[simp] theorem State.openSession_cmdStream (m : Mode) (s : State) : (s.openSession m).cmdStream = s.cmdStream := rfl
@[simp] theorem State.openSession_responses (m : Mode) (s : State) : (s.openSession m).responses = s.responses := rfl
@[simp] theorem State.openSession_draws (m : Mode) (s : State) : (s.openSession m).draws = s.draws := rfl

@[simp] theorem State.loadIv_fnInit (iv : Bytes) (s : State) : (s.loadIv iv).fnInit = s.fnInit := rfl
@[simp] theorem State.loadIv_fnRk (iv : Bytes) (s : State) : (s.loadIv iv).fnRk = s.fnRk := rfl
@[simp] theorem State.loadIv_fnL (iv : Bytes) (s : State) : (s.loadIv iv).fnL = s.fnL := rfl
@[simp] theorem State.loadIv_fnR (iv : Bytes) (s : State) : (s.loadIv iv).fnR = s.fnR := rfl
@[simp] theorem State.loadIv_fnI (iv : Bytes) (s : State) : (s.loadIv iv).fnI = s.fnI := rfl
@[simp] theorem State.loadIv_meInit (iv : Bytes) (s : State) : (s.loadIv iv).meInit = s.meInit := rfl
@[simp] theorem State.loadIv_meMode (iv : Bytes) (s : State) : (s.loadIv iv).meMode = s.meMode := rfl
@[simp] theorem State.loadIv_meIv (iv : Bytes) (s : State) : (s.loadIv iv).meIv = iv := rfl
@[simp] theorem State.loadIv_meFb (iv : Bytes) (s : State) : (s.loadIv iv).meFb = iv := rfl
@[simp] theorem State.loadIv_meOff (iv : Bytes) (s : State) : (s.loadIv iv).meOff = s.meOff := rfl
@[simp] theorem State.loadIv_meDelta (iv : Bytes) (s : State) : (s.loadIv iv).meDelta = s.meDelta := rfl
@[simp] theorem State.loadIv_meFirst (iv : Bytes) (s : State) : (s.loadIv iv).meFirst = s.meFirst := rfl
@[simp] theorem State.loadIv_meDir (iv : Bytes) (s : State) : (s.loadIv iv).meDir = s.meDir := rfl
@[simp] theorem State.loadIv_cmdStream (iv : Bytes) (s : State) : (s.loadIv iv).cmdStream = s.cmdStream := rfl
@[simp] theorem State.loadIv_responses (iv : Bytes) (s : State) : (s.loadIv iv).responses = s.responses := rfl
@[simp] theorem State.loadIv_draws (iv : Bytes) (s : State) : (s.loadIv iv).draws = s.draws := rfl

@[simp] theorem State.loadDelta_fnInit (delta : Bytes) (s : State) : (s.loadDelta delta).fnInit = s.fnInit := rfl
@[simp] theorem State.loadDelta_fnRk (delta : Bytes) (s : State) : (s.loadDelta delta).fnRk = s.fnRk := rfl
@[simp] theorem State.loadDelta_fnL (delta : Bytes) (s : State) : (s.loadDelta delta).fnL = s.fnL := rfl
@[simp] theorem State.loadDelta_fnR (delta : Bytes) (s : State) : (s.loadDelta delta).fnR = s.fnR := rfl
@[simp] theorem State.loadDelta_fnI (delta : Bytes) (s : State) : (s.loadDelta delta).fnI = s.fnI := rfl
@[simp] theorem State.loadDelta_meInit (delta : Bytes) (s : State) : (s.loadDelta delta).meInit = s.meInit := rfl
@[simp] theorem State.loadDelta_meMode (delta : Bytes) (s : State) : (s.loadDelta delta).meMode = s.meMode := rfl
@[simp] theorem State.loadDelta_meIv (delta : Bytes) (s : State) : (s.loadDelta delta).meIv = s.meIv := rfl
@[simp] theorem State.loadDelta_meFb (delta : Bytes) (s : State) : (s.loadDelta delta).meFb = s.meFb := rfl
@[simp] theorem State.loadDelta_meOff (delta : Bytes) (s : State) : (s.loadDelta delta).meOff = s.meOff := rfl
@[simp] theorem State.loadDelta_meDelta (delta : Bytes) (s : State) : (s.loadDelta delta).meDelta = delta := rfl
@[simp] theorem State.loadDelta_meFirst (delta : Bytes) (s : State) : (s.loadDelta delta).meFirst = true := rfl
@[simp] theorem State.loadDelta_meDir (delta : Bytes) (s : State) : (s.loadDelta delta).meDir = s.meDir := rfl
@[simp] theorem State.loadDelta_cmdStream (delta : Bytes) (s : State) : (s.loadDelta delta).cmdStream = s.cmdStream := rfl
@[simp] theorem State.loadDelta_responses (delta : Bytes) (s : State) : (s.loadDelta delta).responses = s.responses := rfl
@[simp] theorem State.loadDelta_draws (delta : Bytes) (s : State) : (s.loadDelta delta).draws = s.draws := rfl

@[simp] theorem State.sysReset_fnInit (c : Params) (s : State) : (s.sysReset c).fnInit = false := rfl
@[simp] theorem State.sysReset_fnRk (c : Params) (s : State) : (s.sysReset c).fnRk = [] := rfl
@[simp] theorem State.sysReset_fnL (c : Params) (s : State) : (s.sysReset c).fnL = tabulate c.half (c.freeL s.draws) := rfl
@[simp] theorem State.sysReset_fnR (c : Params) (s : State) : (s.sysReset c).fnR = tabulate c.half (c.freeR s.draws) := rfl
@[simp] theorem State.sysReset_fnI (c : Params) (s : State) : (s.sysReset c).fnI = c.drawRound s.draws := rfl
@[simp] theorem State.sysReset_meInit (c : Params) (s : State) : (s.sysReset c).meInit = false := rfl
@[simp] theorem State.sysReset_meMode (c : Params) (s : State) : (s.sysReset c).meMode = c.freeMode s.draws := rfl
@[simp] theorem State.sysReset_meIv (c : Params) (s : State) : (s.sysReset c).meIv = tabulate c.blockSize (c.freeIv s.draws) := rfl
@[simp] theorem State.sysReset_meFb (c : Params) (s : State) : (s.sysReset c).meFb = tabulate c.blockSize (c.freeFb s.draws) := rfl
@[simp] theorem State.sysReset_meOff (c : Params) (s : State) : (s.sysReset c).meOff = 0 := rfl
@[simp] theorem State.sysReset_meDelta (c : Params) (s : State) : (s.sysReset c).meDelta = tabulate c.blockSize (c.freeDelta s.draws) := rfl
@[simp] theorem State.sysReset_meFirst (c : Params) (s : State) : (s.sysReset c).meFirst = c.freeFirst s.draws := rfl
@[simp] theorem State.sysReset_meDir (c : Params) (s : State) : (s.sysReset c).meDir = .none := rfl
@[simp] theorem State.sysReset_cmdStream (c : Params) (s : State) : (s.sysReset c).cmdStream = s.cmdStream := rfl
@[simp] theorem State.sysReset_responses (c : Params) (s : State) : (s.sysReset c).responses = s.responses := rfl
@[simp] theorem State.sysReset_draws (c : Params) (s : State) : (s.sysReset c).draws = s.draws + 1 := rfl

/-- The transient registers apart, a command's block transforms change nothing. -/
theorem State.afterTransforms_eq (c : Params) (n : Nat) (s : State) :
    s.afterTransforms c n = s ∨ s.afterTransforms c n = s.drawTransients c := by
  unfold State.afterTransforms
  split <;> simp

@[simp] theorem State.afterTransforms_fnInit (c : Params) (n : Nat) (s : State) :
    (s.afterTransforms c n).fnInit = s.fnInit := by
  unfold State.afterTransforms; split <;> rfl
@[simp] theorem State.afterTransforms_fnRk (c : Params) (n : Nat) (s : State) :
    (s.afterTransforms c n).fnRk = s.fnRk := by
  unfold State.afterTransforms; split <;> rfl
@[simp] theorem State.afterTransforms_meInit (c : Params) (n : Nat) (s : State) :
    (s.afterTransforms c n).meInit = s.meInit := by
  unfold State.afterTransforms; split <;> rfl
@[simp] theorem State.afterTransforms_meMode (c : Params) (n : Nat) (s : State) :
    (s.afterTransforms c n).meMode = s.meMode := by
  unfold State.afterTransforms; split <;> rfl
@[simp] theorem State.afterTransforms_meIv (c : Params) (n : Nat) (s : State) :
    (s.afterTransforms c n).meIv = s.meIv := by
  unfold State.afterTransforms; split <;> rfl
@[simp] theorem State.afterTransforms_meFb (c : Params) (n : Nat) (s : State) :
    (s.afterTransforms c n).meFb = s.meFb := by
  unfold State.afterTransforms; split <;> rfl
@[simp] theorem State.afterTransforms_meOff (c : Params) (n : Nat) (s : State) :
    (s.afterTransforms c n).meOff = s.meOff := by
  unfold State.afterTransforms; split <;> rfl
@[simp] theorem State.afterTransforms_meDelta (c : Params) (n : Nat) (s : State) :
    (s.afterTransforms c n).meDelta = s.meDelta := by
  unfold State.afterTransforms; split <;> rfl
@[simp] theorem State.afterTransforms_meFirst (c : Params) (n : Nat) (s : State) :
    (s.afterTransforms c n).meFirst = s.meFirst := by
  unfold State.afterTransforms; split <;> rfl
@[simp] theorem State.afterTransforms_meDir (c : Params) (n : Nat) (s : State) :
    (s.afterTransforms c n).meDir = s.meDir := by
  unfold State.afterTransforms; split <;> rfl
@[simp] theorem State.afterTransforms_cmdStream (c : Params) (n : Nat) (s : State) :
    (s.afterTransforms c n).cmdStream = s.cmdStream := by
  unfold State.afterTransforms; split <;> rfl
@[simp] theorem State.afterTransforms_responses (c : Params) (n : Nat) (s : State) :
    (s.afterTransforms c n).responses = s.responses := by
  unfold State.afterTransforms; split <;> rfl

end Sys2Proof.Machine
end

