-- ==== Sys2Proof/Laws/Ops.lean ====
section
/-! SUPPORT. The laws of the shared operations: sequencing in a command that may stop, and the ways a command ends. -/

namespace Sys2Proof.Machine

theorem bind_ok {ε α β : Type} {x : Except ε α} {f : α → Except ε β} {r : β} :
    (x >>= f) = .ok r ↔ ∃ a, x = .ok a ∧ f a = .ok r := by
  cases x with
  | error e => constructor
               · intro h; cases h
               · rintro ⟨_, h, _⟩; cases h
  | ok a => constructor
            · intro h; exact ⟨a, rfl, h⟩
            · rintro ⟨_, h, h'⟩; cases h; exact h'

theorem bind_error {ε α β : Type} {x : Except ε α} {f : α → Except ε β} {e : ε} :
    (x >>= f) = .error e ↔ x = .error e ∨ ∃ a, x = .ok a ∧ f a = .error e := by
  cases x with
  | error e' => constructor
                · intro h; cases h; exact .inl rfl
                · rintro (h | ⟨_, h, _⟩) <;> cases h; rfl
  | ok a => constructor
            · intro h; exact .inr ⟨a, rfl, h⟩
            · rintro (h | ⟨_, h, h'⟩)
              · cases h
              · cases h; exact h'

@[simp] theorem ok_bind {ε α β : Type} (a : α) (f : α → Except ε β) : ((Except.ok a : Except ε α) >>= f) = f a := rfl

@[simp] theorem error_bind {ε α β : Type} (e : ε) (f : α → Except ε β) :
    ((Except.error e : Except ε α) >>= f) = .error e := rfl

theorem inDomain_ok {α : Type} {o : Option α} {v : α} : inDomain o = .ok v ↔ o = some v := by
  cases o <;> simp [inDomain]

theorem inDomain_error {α : Type} {o : Option α} {e : Stop} :
    inDomain o = .error e ↔ o = none ∧ e = .refusal .outsideDomain := by
  cases o <;> simp [inDomain, eq_comm]

/-- A byte inside a block. -/
theorem byteAt_ok {b : Bytes} {q : Nat} (h : q < b.length) : byteAt b q = .ok (b.getD q 0) := by
  simp [byteAt, inDomain, h]

/-- `Xor` inside a command, on its domain. -/
theorem xorIn_ok {a b : Bytes} (h : a.length = b.length) :
    inDomain (xor a b) = .ok (zipXor a b) := by rw [xor_eq_some h]; rfl

/-- The two ways a stopped command ends. -/
theorem stopIn_cases (s : State) (stop : Stop) :
    (∃ k, stop = .failure k ∧ stopIn s stop = fail k s) ∨ (∃ r, stop = .refusal r ∧ stopIn s stop = .refused r) := by
  cases stop with
  | failure k => exact .inl ⟨k, rfl, rfl⟩
  | refusal r => exact .inr ⟨r, rfl, rfl⟩

theorem fail_eq (k : FailKind) (s : State) :
    fail k s = .next { s with responses := s.responses ++ [.failure k] } := rfl

theorem finish_eq (out : Bytes) (s : State) :
    finish out s = .next { s with responses := s.responses ++ [.ok out] } := rfl

end Sys2Proof.Machine
end

