-- ==== Sys2Proof/Laws/Feistel.lean ====
section
/-! SUPPORT. The laws of the Feistel core: lengths, what the checks and the block-cipher port answer, and what the commands
of the unit can do. -/

namespace Sys2Proof

@[simp] theorem Params.rf_length (c : Params) (x k : Bytes) : (c.rf x k).length = c.half := by simp [Params.rf]

theorem Params.half_pos (c : Params) : 0 < c.half := by simp [Params.half]

theorem Params.blockSize_pos (c : Params) : 0 < c.blockSize := by simp [Params.blockSize, Params.half]

@[simp] theorem Params.deltaFromSeed_length (c : Params) (n : Int) : (c.deltaFromSeed n).length = c.blockSize := by
  simp [Params.deltaFromSeed]

@[simp] theorem Params.deltaFromIv_length (c : Params) (iv : Bytes) : (c.deltaFromIv iv).length = c.blockSize := by
  simp [Params.deltaFromIv]

theorem Params.drawRound_lt (c : Params) (n : Nat) (h : c.rounds ≠ 0) : c.drawRound n < c.rounds := by
  simp only [Params.drawRound, h, if_false]
  exact Nat.mod_lt _ (by omega)

namespace Machine

/-- Both halves of a datapath pair are half-blocks. -/
def Halves (c : Params) (p : Bytes × Bytes) : Prop := p.1.length = c.half ∧ p.2.length = c.half

/-- `SplitHalves` has a value exactly on blocks, and it is two half-blocks. -/
theorem splitHalves_eq_some {c : Params} {b : Bytes} (h : b.length = c.blockSize) :
    splitHalves c.half b = some (b.take c.half, b.drop c.half) ∧ Halves c (b.take c.half, b.drop c.half) := by
  refine ⟨if_pos h, ?_, ?_⟩ <;> simp only [List.length_take, List.length_drop, h, Params.blockSize] <;> omega

theorem splitHalves_eq_none {c : Params} {b : Bytes} (h : b.length ≠ c.blockSize) : splitHalves c.half b = none :=
  if_neg h

/-- A forward round has a value on half-blocks. -/
theorem encRound_eq {c : Params} {p : Bytes × Bytes} (k : Bytes) (h : Halves c p) :
    encRound c p k = some (p.2, zipXor p.1 (c.rf p.2 k)) ∧ Halves c (p.2, zipXor p.1 (c.rf p.2 k)) := by
  refine ⟨?_, h.2, by simp [h.1]⟩
  rw [encRound, xor_eq_some (by simp [h.1])]
  rfl

/-- A backward round has a value on half-blocks. -/
theorem decRound_eq {c : Params} {p : Bytes × Bytes} (k : Bytes) (h : Halves c p) :
    decRound c k p = some (zipXor p.2 (c.rf p.1 k), p.1) ∧ Halves c (zipXor p.2 (c.rf p.1 k), p.1) := by
  refine ⟨?_, by simp [h.2], h.1⟩
  rw [decRound, xor_eq_some (by simp [h.2])]
  rfl

/-- The forward rounds have a value on half-blocks. -/
theorem encRounds_some {c : Params} : ∀ (rks : List Bytes) {p : Bytes × Bytes}, Halves c p →
    ∃ q, encRounds c rks p = some q ∧ Halves c q
  | [], p, h => ⟨p, rfl, h⟩
  | k :: ks, p, h => by
    obtain ⟨h1, h2⟩ := encRound_eq k h
    rw [encRounds, h1]
    exact encRounds_some ks h2

/-- The backward rounds have a value on half-blocks. -/
theorem decRounds_some {c : Params} : ∀ (rks : List Bytes) {p : Bytes × Bytes}, Halves c p →
    ∃ q, decRounds c rks p = some q ∧ Halves c q
  | [], p, h => ⟨p, rfl, h⟩
  | k :: ks, p, h => by
    obtain ⟨q, h1, h2⟩ := decRounds_some ks h
    rw [decRounds, h1]
    exact ⟨_, (decRound_eq k h2)⟩

/-- The forward network on a block: its halves through the rounds, joined. -/
theorem feistelEnc_some {c : Params} (rks : List Bytes) {b : Bytes} (h : b.length = c.blockSize) :
    ∃ q, encRounds c rks (b.take c.half, b.drop c.half) = some q ∧ Halves c q ∧
      feistelEnc c rks b = some (q.1 ++ q.2) ∧ (q.1 ++ q.2).length = c.blockSize := by
  obtain ⟨h1, h2⟩ := splitHalves_eq_some h
  obtain ⟨q, h3, h4⟩ := encRounds_some rks h2
  refine ⟨q, h3, h4, ?_, ?_⟩
  · rw [feistelEnc, h1]
    show ((encRounds c rks _) >>= _) = _
    rw [h3]
    rfl
  · rw [List.length_append, h4.1, h4.2, Params.blockSize]
    omega

/-- The backward network on a block: its halves through the rounds, joined. -/
theorem feistelDec_some {c : Params} (rks : List Bytes) {b : Bytes} (h : b.length = c.blockSize) :
    ∃ q, decRounds c rks (b.take c.half, b.drop c.half) = some q ∧ Halves c q ∧
      feistelDec c rks b = some (q.1 ++ q.2) ∧ (q.1 ++ q.2).length = c.blockSize := by
  obtain ⟨h1, h2⟩ := splitHalves_eq_some h
  obtain ⟨q, h3, h4⟩ := decRounds_some rks h2
  refine ⟨q, h3, h4, ?_, ?_⟩
  · rw [feistelDec, h1]
    show ((decRounds c rks _) >>= _) = _
    rw [h3]
    rfl
  · rw [List.length_append, h4.1, h4.2, Params.blockSize]
    omega

/-- `blockEnc` has a value on blocks, the block `cipherEnc`. -/
theorem blockEnc_some {c : Params} (rks : List Bytes) {b : Bytes} (h : b.length = c.blockSize) :
    blockEnc c rks b = some (cipherEnc c rks b) ∧ (cipherEnc c rks b).length = c.blockSize := by
  obtain ⟨_, _, _, h1, h2⟩ := feistelEnc_some rks h
  obtain ⟨_, _, _, h3, h4⟩ := feistelDec_some rks h
  unfold cipherEnc blockEnc
  split
  · simpa [h3] using h4
  · simpa [h1] using h2

/-- `blockDec` has a value on blocks, the block `cipherDec`. -/
theorem blockDec_some {c : Params} (rks : List Bytes) {b : Bytes} (h : b.length = c.blockSize) :
    blockDec c rks b = some (cipherDec c rks b) ∧ (cipherDec c rks b).length = c.blockSize := by
  obtain ⟨_, _, _, h1, h2⟩ := feistelEnc_some rks h
  obtain ⟨_, _, _, h3, h4⟩ := feistelDec_some rks h
  unfold cipherDec blockDec
  split
  · simpa [h1] using h2
  · simpa [h3] using h4

theorem cipherEnc_length {c : Params} (rks : List Bytes) {b : Bytes} (h : b.length = c.blockSize) :
    (cipherEnc c rks b).length = c.blockSize := (blockEnc_some rks h).2

theorem cipherDec_length {c : Params} (rks : List Bytes) {b : Bytes} (h : b.length = c.blockSize) :
    (cipherDec c rks b).length = c.blockSize := (blockDec_some rks h).2

/-- `FnCheck` passes exactly on a ready core and one block (rule R174). -/
theorem fnCheck_ok_iff {c : Params} {s : State} {op : Operand} {b : Bytes} :
    fnCheck c s op = .ok b ↔
      s.fnInit = true ∧ s.fnRk.length = c.rounds ∧ op = some b ∧ b.length = c.blockSize := by
  unfold fnCheck
  cases hI : s.fnInit
  · simp
  · by_cases hR : s.fnRk.length = c.rounds
    · cases op with
      | none => simp [hR]
      | some x =>
        by_cases hB : x.length = c.blockSize
        · simp [hR, hB]
          rintro rfl
          exact hB
        · simp [hR, hB]
          rintro rfl
          exact hB
    · simp [hR]

/-- What `FnCheck` stops with is a failure, InvalidState or InvalidArgument. -/
theorem fnCheck_error {c : Params} {s : State} {op : Operand} {stop : Stop} (h : fnCheck c s op = .error stop) :
    stop = .failure .invalidState ∨ stop = .failure .invalidArgument := by
  unfold fnCheck at h
  split at h
  · cases h; simp
  · split at h
    · cases h; simp
    · split at h
      · cases h; simp
      · split at h
        · cases h; simp
        · cases h

/-- `BC.E` on a ready core and a block. -/
theorem bcE_ok {c : Params} {s : State} {b : Bytes} (hI : s.fnInit = true) (hR : s.fnRk.length = c.rounds)
    (hB : b.length = c.blockSize) : bcE c s (some b) = .ok (cipherEnc c s.fnRk b) := by
  rw [bcE, fnCheck_ok_iff.2 ⟨hI, hR, rfl, hB⟩]
  exact inDomain_ok.2 (blockEnc_some _ hB).1

/-- `BC.D` on a ready core and a block. -/
theorem bcD_ok {c : Params} {s : State} {b : Bytes} (hI : s.fnInit = true) (hR : s.fnRk.length = c.rounds)
    (hB : b.length = c.blockSize) : bcD c s (some b) = .ok (cipherDec c s.fnRk b) := by
  rw [bcD, fnCheck_ok_iff.2 ⟨hI, hR, rfl, hB⟩]
  exact inDomain_ok.2 (blockDec_some _ hB).1

/-- The block-cipher port reads `FN.INIT` and `FN.RK` only (rules R21, R23). -/
theorem bcE_congr {c : Params} {s t : State} (hI : t.fnInit = s.fnInit) (hR : t.fnRk = s.fnRk) (op : Operand) :
    bcE c t op = bcE c s op := by
  unfold bcE fnCheck
  rw [hI, hR]

theorem bcD_congr {c : Params} {s t : State} (hI : t.fnInit = s.fnInit) (hR : t.fnRk = s.fnRk) (op : Operand) :
    bcD c t op = bcD c s op := by
  unfold bcD fnCheck
  rw [hI, hR]

/-- Everything `BC.E` can do. -/
theorem bcE_cases (c : Params) (s : State) (op : Operand) :
    (∃ b, op = some b ∧ s.fnInit = true ∧ s.fnRk.length = c.rounds ∧ b.length = c.blockSize ∧
      bcE c s op = .ok (cipherEnc c s.fnRk b)) ∨
    (∃ k, (k = .invalidState ∨ k = .invalidArgument) ∧ bcE c s op = .error (.failure k)) := by
  unfold bcE
  cases h : fnCheck c s op with
  | ok b =>
    obtain ⟨hI, hR, hop, hB⟩ := fnCheck_ok_iff.1 h
    exact .inl ⟨b, hop, hI, hR, hB, inDomain_ok.2 (blockEnc_some _ hB).1⟩
  | error stop =>
    refine .inr ?_
    rcases fnCheck_error h with rfl | rfl
    · exact ⟨_, .inl rfl, rfl⟩
    · exact ⟨_, .inr rfl, rfl⟩

/-- Everything `BC.D` can do. -/
theorem bcD_cases (c : Params) (s : State) (op : Operand) :
    (∃ b, op = some b ∧ s.fnInit = true ∧ s.fnRk.length = c.rounds ∧ b.length = c.blockSize ∧
      bcD c s op = .ok (cipherDec c s.fnRk b)) ∨
    (∃ k, (k = .invalidState ∨ k = .invalidArgument) ∧ bcD c s op = .error (.failure k)) := by
  unfold bcD
  cases h : fnCheck c s op with
  | ok b =>
    obtain ⟨hI, hR, hop, hB⟩ := fnCheck_ok_iff.1 h
    exact .inl ⟨b, hop, hI, hR, hB, inDomain_ok.2 (blockDec_some _ hB).1⟩
  | error stop =>
    refine .inr ?_
    rcases fnCheck_error h with rfl | rfl
    · exact ⟨_, .inl rfl, rfl⟩
    · exact ⟨_, .inr rfl, rfl⟩

/-- Everything `FN_INIT` can do. -/
theorem fnInit_cases (c : Params) (op : Operand) (s : State) :
    (∃ k, (k = .invalidState ∨ k = .invalidArgument) ∧ fnInit c op s = fail k s) ∨
    (∃ key, op = some key ∧ c.keyLenOk key.length = true ∧ (c.ks key).length = c.rounds ∧
      fnInit c op s = finish [] { s with fnRk := c.ks key, fnInit := true }) := by
  cases op with
  | none => exact .inl ⟨_, .inr rfl, rfl⟩
  | some key =>
    unfold fnInit keyCheck
    by_cases h0 : key.length = 0
    · exact .inl ⟨_, .inr rfl, by simp [h0, stopIn]⟩
    · cases hk : c.keyLenOk key.length with
      | false => exact .inl ⟨_, .inr rfl, by simp [h0, hk, stopIn]⟩
      | true =>
        by_cases hr : (c.ks key).length = c.rounds
        · exact .inr ⟨key, rfl, hk, hr, by simp [h0, hk, hr]⟩
        · exact .inl ⟨_, .inl rfl, by simp [h0, hk, hr]⟩

/-- Everything `FN_ENC` can do. -/
theorem fnEnc_cases (c : Params) (op : Operand) (s : State) :
    (∃ b, op = some b ∧ s.fnInit = true ∧ s.fnRk.length = c.rounds ∧ b.length = c.blockSize ∧
      fnEnc c op s = finish (cipherEnc c s.fnRk b) (s.drawTransients c)) ∨
    (∃ k, (k = .invalidState ∨ k = .invalidArgument) ∧ fnEnc c op s = fail k s) := by
  unfold fnEnc
  rcases bcE_cases c s op with ⟨b, h1, h2, h3, h4, h5⟩ | ⟨k, hk, h5⟩
  · exact .inl ⟨b, h1, h2, h3, h4, by rw [h5]⟩
  · exact .inr ⟨k, hk, by rw [h5]; rfl⟩

/-- Everything `FN_DEC` can do. -/
theorem fnDec_cases (c : Params) (op : Operand) (s : State) :
    (∃ b, op = some b ∧ s.fnInit = true ∧ s.fnRk.length = c.rounds ∧ b.length = c.blockSize ∧
      fnDec c op s = finish (cipherDec c s.fnRk b) (s.drawTransients c)) ∨
    (∃ k, (k = .invalidState ∨ k = .invalidArgument) ∧ fnDec c op s = fail k s) := by
  unfold fnDec
  rcases bcD_cases c s op with ⟨b, h1, h2, h3, h4, h5⟩ | ⟨k, hk, h5⟩
  · exact .inl ⟨b, h1, h2, h3, h4, by rw [h5]⟩
  · exact .inr ⟨k, hk, by rw [h5]; rfl⟩

end Machine

end Sys2Proof
end

