-- ==== Sys2Proof/Laws/Modes.lean ====
section
/-! SUPPORT. The laws of the mode functions: what a mode function that ends OK has done to the state and how long its output
is. -/

namespace Sys2Proof.Machine

-- ---------------------------------------------------------------- block-aligned modes

/-- A block step keeps to blocks: from a block and a block-sized feedback it answers only such. -/
def KeepsBlocks (c : Params) (step : BlockStep) : Prop :=
  ∀ x fb y fb', x.length = c.blockSize → fb.length = c.blockSize → step x fb = .ok (y, fb') →
    y.length = c.blockSize ∧ fb'.length = c.blockSize

/-- A block step that always answers `f`. -/
def Answers (c : Params) (step : BlockStep) (f : Bytes → Bytes → Bytes × Bytes) : Prop :=
  ∀ x fb, x.length = c.blockSize → fb.length = c.blockSize →
    step x fb = .ok (f x fb) ∧ (f x fb).1.length = c.blockSize ∧ (f x fb).2.length = c.blockSize

theorem Answers.keepsBlocks {c : Params} {step : BlockStep} {f : Bytes → Bytes → Bytes × Bytes}
    (h : Answers c step f) : KeepsBlocks c step := by
  intro x fb y fb' hx hfb he
  obtain ⟨h1, h2, h3⟩ := h x fb hx hfb
  rw [h1] at he
  have hp := Except.ok.inj he
  rw [hp] at h2 h3
  exact ⟨h2, h3⟩

/-- `BC.E` answers blocks. -/
theorem bcE_length {c : Params} {s : State} {op : Operand} {y : Bytes} (h : bcE c s op = .ok y) :
    y.length = c.blockSize := by
  rcases bcE_cases c s op with ⟨b, _, _, _, hb, he⟩ | ⟨k, _, he⟩
  · rw [he] at h; cases h; exact cipherEnc_length _ hb
  · rw [he] at h; cases h

/-- `BC.D` answers blocks. -/
theorem bcD_length {c : Params} {s : State} {op : Operand} {y : Bytes} (h : bcD c s op = .ok y) :
    y.length = c.blockSize := by
  rcases bcD_cases c s op with ⟨b, _, _, _, hb, he⟩ | ⟨k, _, he⟩
  · rw [he] at h; cases h; exact cipherDec_length _ hb
  · rw [he] at h; cases h

/-- What `xorIn` answers. -/
theorem xorIn_eq_ok {a b y : Bytes} (h : xorIn a b = .ok y) : a.length = b.length ∧ y = zipXor a b := by
  unfold xorIn xor at h
  split at h
  · rename_i hl; cases h; exact ⟨hl, rfl⟩
  · cases h

theorem ecbEncStep_keepsBlocks (c : Params) (s : State) : KeepsBlocks c (ecbEncStep c s) := by
  intro x fb y fb' _ hfb he
  obtain ⟨a, ha, hr⟩ := bind_ok.1 he
  cases hr
  exact ⟨bcE_length ha, hfb⟩

theorem ecbDecStep_keepsBlocks (c : Params) (s : State) : KeepsBlocks c (ecbDecStep c s) := by
  intro x fb y fb' _ hfb he
  obtain ⟨a, ha, hr⟩ := bind_ok.1 he
  cases hr
  exact ⟨bcD_length ha, hfb⟩

theorem cbcEncStep_keepsBlocks (c : Params) (s : State) : KeepsBlocks c (cbcEncStep c s) := by
  intro x fb y fb' _ _ he
  obtain ⟨a, _, hr⟩ := bind_ok.1 he
  obtain ⟨b, hb, hr⟩ := bind_ok.1 hr
  cases hr
  exact ⟨bcE_length hb, bcE_length hb⟩

theorem cbcDecStep_keepsBlocks (c : Params) (s : State) : KeepsBlocks c (cbcDecStep c s) := by
  intro x fb y fb' hx hfb he
  obtain ⟨a, ha, hr⟩ := bind_ok.1 he
  obtain ⟨b, hb, hr⟩ := bind_ok.1 hr
  cases hr
  obtain ⟨_, rfl⟩ := xorIn_eq_ok hb
  exact ⟨by simp [bcD_length ha, hfb], hx⟩

theorem pcbcEncStep_keepsBlocks (c : Params) (s : State) : KeepsBlocks c (pcbcEncStep c s) := by
  intro x fb y fb' hx _ he
  obtain ⟨a, _, hr⟩ := bind_ok.1 he
  obtain ⟨b, hb, hr⟩ := bind_ok.1 hr
  obtain ⟨d, hd, hr⟩ := bind_ok.1 hr
  cases hr
  obtain ⟨_, rfl⟩ := xorIn_eq_ok hd
  exact ⟨bcE_length hb, by simp [bcE_length hb, hx]⟩

theorem pcbcDecStep_keepsBlocks (c : Params) (s : State) : KeepsBlocks c (pcbcDecStep c s) := by
  intro x fb y fb' hx hfb he
  obtain ⟨a, ha, hr⟩ := bind_ok.1 he
  obtain ⟨b, hb, hr⟩ := bind_ok.1 hr
  obtain ⟨d, hd, hr⟩ := bind_ok.1 hr
  cases hr
  obtain ⟨_, rfl⟩ := xorIn_eq_ok hb
  obtain ⟨_, rfl⟩ := xorIn_eq_ok hd
  exact ⟨by simp [bcD_length ha, hfb], by simp [bcD_length ha, hfb, hx]⟩

theorem cfbEncStep_keepsBlocks (c : Params) (s : State) : KeepsBlocks c (cfbEncStep c s) := by
  intro x fb y fb' hx _ he
  obtain ⟨a, ha, hr⟩ := bind_ok.1 he
  obtain ⟨b, hb, hr⟩ := bind_ok.1 hr
  cases hr
  obtain ⟨_, rfl⟩ := xorIn_eq_ok hb
  exact ⟨by simp [bcE_length ha, hx], by simp [bcE_length ha, hx]⟩

theorem cfbDecStep_keepsBlocks (c : Params) (s : State) : KeepsBlocks c (cfbDecStep c s) := by
  intro x fb y fb' hx _ he
  obtain ⟨a, ha, hr⟩ := bind_ok.1 he
  obtain ⟨b, hb, hr⟩ := bind_ok.1 hr
  cases hr
  obtain ⟨_, rfl⟩ := xorIn_eq_ok hb
  exact ⟨by simp [bcE_length ha, hx], hx⟩

/-- The block steps on a ready core, as functions. -/
theorem ecbEncStep_answers {c : Params} {s : State} (h : s.FnReady c) :
    Answers c (ecbEncStep c s) fun x fb => (cipherEnc c s.fnRk x, fb) := by
  intro x fb hx hfb
  refine ⟨?_, cipherEnc_length _ hx, hfb⟩
  simp only [ecbEncStep, bcE_ok h.1 h.2 hx, ok_bind]
  rfl

theorem ecbDecStep_answers {c : Params} {s : State} (h : s.FnReady c) :
    Answers c (ecbDecStep c s) fun x fb => (cipherDec c s.fnRk x, fb) := by
  intro x fb hx hfb
  refine ⟨?_, cipherDec_length _ hx, hfb⟩
  simp only [ecbDecStep, bcD_ok h.1 h.2 hx, ok_bind]
  rfl

theorem zipXor_block {c : Params} {a b : Bytes} (ha : a.length = c.blockSize) (hb : b.length = c.blockSize) :
    (zipXor a b).length = c.blockSize := by simp [ha, hb]

theorem cbcEncStep_answers {c : Params} {s : State} (h : s.FnReady c) :
    Answers c (cbcEncStep c s) fun x fb =>
      (cipherEnc c s.fnRk (zipXor x fb), cipherEnc c s.fnRk (zipXor x fb)) := by
  intro x fb hx hfb
  have hl := zipXor_block hx hfb
  refine ⟨?_, cipherEnc_length _ hl, cipherEnc_length _ hl⟩
  simp only [cbcEncStep, xorIn, xorIn_ok (hx.trans hfb.symm), ok_bind, bcE_ok h.1 h.2 hl]
  rfl

theorem cbcDecStep_answers {c : Params} {s : State} (h : s.FnReady c) :
    Answers c (cbcDecStep c s) fun x fb => (zipXor (cipherDec c s.fnRk x) fb, x) := by
  intro x fb hx hfb
  have hl := cipherDec_length s.fnRk hx
  refine ⟨?_, zipXor_block hl hfb, hx⟩
  simp only [cbcDecStep, xorIn, xorIn_ok (hl.trans hfb.symm), ok_bind, bcD_ok h.1 h.2 hx]
  rfl

theorem pcbcEncStep_answers {c : Params} {s : State} (h : s.FnReady c) :
    Answers c (pcbcEncStep c s) fun x fb =>
      (cipherEnc c s.fnRk (zipXor x fb), zipXor x (cipherEnc c s.fnRk (zipXor x fb))) := by
  intro x fb hx hfb
  have hl := zipXor_block hx hfb
  have hy := cipherEnc_length s.fnRk hl
  refine ⟨?_, hy, zipXor_block hx hy⟩
  simp only [pcbcEncStep, xorIn, xorIn_ok (hx.trans hfb.symm), ok_bind, bcE_ok h.1 h.2 hl,
    xorIn_ok (hx.trans hy.symm)]
  rfl

theorem pcbcDecStep_answers {c : Params} {s : State} (h : s.FnReady c) :
    Answers c (pcbcDecStep c s) fun x fb =>
      (zipXor (cipherDec c s.fnRk x) fb, zipXor (zipXor (cipherDec c s.fnRk x) fb) x) := by
  intro x fb hx hfb
  have hl := cipherDec_length s.fnRk hx
  have hy := zipXor_block hl hfb
  refine ⟨?_, hy, zipXor_block hy hx⟩
  simp only [pcbcDecStep, xorIn, xorIn_ok (hl.trans hfb.symm), ok_bind, bcD_ok h.1 h.2 hx,
    xorIn_ok (hy.trans hx.symm)]
  rfl

theorem cfbEncStep_answers {c : Params} {s : State} (h : s.FnReady c) :
    Answers c (cfbEncStep c s) fun x fb =>
      (zipXor x (cipherEnc c s.fnRk fb), zipXor x (cipherEnc c s.fnRk fb)) := by
  intro x fb hx hfb
  have hl := cipherEnc_length s.fnRk hfb
  refine ⟨?_, zipXor_block hx hl, zipXor_block hx hl⟩
  simp only [cfbEncStep, xorIn, xorIn_ok (hx.trans hl.symm), ok_bind, bcE_ok h.1 h.2 hfb]
  rfl

theorem cfbDecStep_answers {c : Params} {s : State} (h : s.FnReady c) :
    Answers c (cfbDecStep c s) fun x fb => (zipXor x (cipherEnc c s.fnRk fb), x) := by
  intro x fb hx hfb
  have hl := cipherEnc_length s.fnRk hfb
  refine ⟨?_, zipXor_block hx hl, hx⟩
  simp only [cfbDecStep, xorIn, xorIn_ok (hx.trans hl.symm), ok_bind, bcE_ok h.1 h.2 hfb]
  rfl

theorem takeBlocks_mem_length {size : Nat} : ∀ {n : Nat} {d : Bytes}, d.length = size * n →
    ∀ x ∈ takeBlocks size n d, x.length = size
  | 0, _, _, x, hx => by simp [takeBlocks] at hx
  | n + 1, d, hd, x, hx => by
    simp only [takeBlocks, List.mem_cons] at hx
    have : size ≤ d.length := by rw [hd]; exact Nat.le_mul_of_pos_right _ (by omega)
    rcases hx with rfl | hx
    · simp [this]
    · refine takeBlocks_mem_length (n := n) (d := d.drop size) ?_ x hx
      rw [List.length_drop, hd, Nat.mul_succ]; omega

/-- What a block loop that ends OK answers. -/
theorem blockLoop_lengths {c : Params} {step : BlockStep} (hk : KeepsBlocks c step) :
    ∀ {xs : List Bytes} {fb out fb' : Bytes}, (∀ x ∈ xs, x.length = c.blockSize) → fb.length = c.blockSize →
      blockLoop step xs fb = .ok (out, fb') → out.length = c.blockSize * xs.length ∧ fb'.length = c.blockSize
  | [], fb, out, fb', _, hfb, h => by cases h; simpa using hfb
  | x :: xs, fb, out, fb', hx, hfb, h => by
    simp only [blockLoop] at h
    obtain ⟨⟨y, fb1⟩, h1, h2⟩ := bind_ok.1 h
    obtain ⟨⟨ys, fb2⟩, h3, h4⟩ := bind_ok.1 h2
    cases h4
    obtain ⟨hy, hf1⟩ := hk x fb y fb1 (hx x (by simp)) hfb h1
    obtain ⟨hys, hf2⟩ := blockLoop_lengths hk (fun z hz => hx z (by simp [hz])) hf1 h3
    refine ⟨?_, hf2⟩
    simp only [List.length_append, hy, hys, List.length_cons]
    ring

/-- The block loop of a step that always answers. -/
def foldBlocks (f : Bytes → Bytes → Bytes × Bytes) : List Bytes → Bytes → Bytes × Bytes
  | [], fb => ([], fb)
  | x :: xs, fb => ((f x fb).1 ++ (foldBlocks f xs (f x fb).2).1, (foldBlocks f xs (f x fb).2).2)

theorem blockLoop_answers {c : Params} {step : BlockStep} {f : Bytes → Bytes → Bytes × Bytes} (ha : Answers c step f) :
    ∀ {xs : List Bytes} {fb : Bytes}, (∀ x ∈ xs, x.length = c.blockSize) → fb.length = c.blockSize →
      blockLoop step xs fb = .ok (foldBlocks f xs fb)
  | [], fb, _, _ => rfl
  | x :: xs, fb, hx, hfb => by
    obtain ⟨h1, _, h3⟩ := ha x fb (hx x (by simp)) hfb
    have ih := blockLoop_answers ha (xs := xs) (fb := (f x fb).2) (fun z hz => hx z (by simp [hz])) h3
    simp only [blockLoop, h1, ok_bind, ih]
    rfl

/-- What a block-aligned mode function that ends OK has done. -/
theorem blockMode_inv {c : Params} {step : BlockStep} (hk : KeepsBlocks c step) {data out : Bytes} {s t : State}
    (h : blockMode c step data s = .ok (out, t)) (hfb : s.meFb.length = c.blockSize) :
    data.length % c.blockSize = 0 ∧ out.length = data.length ∧ ∃ k fb, fb.length = c.blockSize ∧
      blockLoop step (takeBlocks c.blockSize (data.length / c.blockSize) data) s.meFb = .ok (out, fb) ∧
      t = { s.afterTransforms c k with meFb := fb, meOff := s.meOff + data.length } := by
  obtain ⟨blocks, h1, h2⟩ := bind_ok.1 h
  obtain ⟨⟨o, fb⟩, h3, h4⟩ := bind_ok.1 h2
  cases h4
  unfold split at h1
  rw [inDomain_ok] at h1
  split at h1
  · rename_i hm
    cases h1
    have hd : data.length = c.blockSize * (data.length / c.blockSize) := by
      have := Nat.div_add_mod data.length c.blockSize; omega
    obtain ⟨ho, hf⟩ := blockLoop_lengths hk (takeBlocks_mem_length hd) hfb h3
    rw [takeBlocks_length, ← hd] at ho
    refine ⟨hm, ho, data.length / c.blockSize, fb, hf, h3, ?_⟩
    simp only [takeBlocks_length]
    rw [← hd]
  · cases h1

/-- A block-aligned mode function whose step always answers. -/
theorem blockMode_answers {c : Params} {step : BlockStep} {f : Bytes → Bytes → Bytes × Bytes} (ha : Answers c step f)
    {data : Bytes} {s : State} (hm : data.length % c.blockSize = 0) (hfb : s.meFb.length = c.blockSize) :
    let r := foldBlocks f (takeBlocks c.blockSize (data.length / c.blockSize) data) s.meFb
    blockMode c step data s = .ok (r.1, { s.afterTransforms c (data.length / c.blockSize) with
      meFb := r.2, meOff := s.meOff + data.length }) := by
  have hd : data.length = c.blockSize * (data.length / c.blockSize) := by
    have := Nat.div_add_mod data.length c.blockSize; omega
  have h3 := blockLoop_answers ha (takeBlocks_mem_length hd) hfb
  simp only [blockMode, split_eq_some hm, inDomain, ok_bind, h3, takeBlocks_length]
  rw [← hd]
  rfl

-- ---------------------------------------------------------------- stream modes

/-- What the OFB loop that ends OK answers. -/
theorem ofbLoop_lengths {c : Params} {s : State} : ∀ {data fb out fb' : Bytes} {off : Nat}, fb.length = c.blockSize →
    ofbLoop c s data fb off = .ok (out, fb') → out.length = data.length ∧ fb'.length = c.blockSize
  | [], fb, out, fb', off, hfb, h => by cases h; exact ⟨rfl, hfb⟩
  | d :: ds, fb, out, fb', off, hfb, h => by
    simp only [ofbLoop] at h
    obtain ⟨fb1, h1, h⟩ := bind_ok.1 h
    obtain ⟨k, _, h⟩ := bind_ok.1 h
    obtain ⟨⟨o, fb2⟩, h3, h⟩ := bind_ok.1 h
    cases h
    have hf1 : fb1.length = c.blockSize := by
      unfold ofbNext at h1
      split at h1
      · exact bcE_length h1
      · cases h1; exact hfb
    obtain ⟨ho, hf2⟩ := ofbLoop_lengths hf1 h3
    exact ⟨by simp [ho], hf2⟩

/-- What a keystream loop that ends OK answers. -/
theorem keystreamLoop_length {size : Nat} {ks : Nat → Except Stop Bytes} : ∀ {data out : Bytes} {off : Nat},
    keystreamLoop size ks data off = .ok out → out.length = data.length
  | [], out, off, h => by cases h; rfl
  | d :: ds, out, off, h => by
    simp only [keystreamLoop] at h
    obtain ⟨b, _, h⟩ := bind_ok.1 h
    obtain ⟨k, _, h⟩ := bind_ok.1 h
    obtain ⟨o, h3, h⟩ := bind_ok.1 h
    cases h
    simp [keystreamLoop_length h3]

/-- A keystream loop over blocks that are all there. -/
theorem keystreamLoop_ok {size : Nat} (hs : 0 < size) {ks : Nat → Except Stop Bytes} {K : Nat → Bytes} :
    ∀ {data : Bytes} {off : Nat},
      (∀ i, i * size < off + data.length → ks i = .ok (K i) ∧ (K i).length = size) →
      ∃ out, keystreamLoop size ks data off = .ok out ∧ out.length = data.length ∧
        ∀ j, j < data.length →
          out.getD j 0 = data.getD j 0 ^^^ (K ((off + j) / size)).getD ((off + j) % size) 0
  | [], off, _ => ⟨[], rfl, rfl, by simp⟩
  | d :: ds, off, hk => by
    obtain ⟨out, h1, h2, h3⟩ := keystreamLoop_ok hs (data := ds) (off := off + 1)
      (fun i hi => hk i (by simp only [List.length_cons]; omega))
    obtain ⟨hb, hl⟩ := hk (off / size) (by
      have := Nat.div_mul_le_self off size
      simp only [List.length_cons]; omega)
    have hq : off % size < (K (off / size)).length := by rw [hl]; exact Nat.mod_lt _ hs
    refine ⟨(d ^^^ (K (off / size)).getD (off % size) 0) :: out, ?_, by simp [h2], ?_⟩
    · simp only [keystreamLoop, hb, ok_bind, byteAt_ok hq, h1]
      rfl
    · intro j hj
      cases j with
      | zero => simp
      | succ j =>
        have := h3 j (by simpa using hj)
        simp only [List.getD_cons_succ]
        rw [this, show off + (j + 1) = off + 1 + j by omega]

theorem ofbXform_inv {c : Params} {data out : Bytes} {s t : State} (h : ofbXform c data s = .ok (out, t))
    (hfb : s.meFb.length = c.blockSize) : out.length = data.length ∧ ∃ k fb, fb.length = c.blockSize ∧
      t = { s.afterTransforms c k with meFb := fb, meOff := s.meOff + data.length } := by
  obtain ⟨⟨o, fb⟩, h1, h2⟩ := bind_ok.1 h
  cases h2
  obtain ⟨ho, hf⟩ := ofbLoop_lengths hfb h1
  exact ⟨ho, _, fb, hf, rfl⟩

theorem ctrXform_inv {c : Params} {data out : Bytes} {s t : State} (h : ctrXform c data s = .ok (out, t)) :
    8 ≤ c.blockSize ∧ out.length = data.length ∧ ∃ k,
      t = { s.afterTransforms c k with meOff := s.meOff + data.length } := by
  unfold ctrXform at h
  split at h
  · cases h
  · rename_i hb
    obtain ⟨o, h1, h2⟩ := bind_ok.1 h
    cases h2
    exact ⟨by omega, keystreamLoop_length h1, _, rfl⟩

/-- What `RdEnc` that ends OK has done. -/
theorem rdEnc_inv {c : Params} {data out : Bytes} {s t : State} (h : rdEnc c data s = .ok (out, t)) :
    out.length = (if s.meFirst = true then data.length + c.blockSize else data.length) ∧ ∃ k,
      t = { s.afterTransforms c k with meFirst := false, meOff := s.meOff + data.length } := by
  obtain ⟨hdr, h1, h2⟩ := bind_ok.1 h
  split at h2
  · cases h2
  · obtain ⟨body, h3, h4⟩ := bind_ok.1 h2
    cases h4
    have hb := keystreamLoop_length h3
    refine ⟨?_, _, rfl⟩
    unfold rdHeader at h1
    cases hf : s.meFirst
    · rw [hf] at h1; cases h1; simp [hb]
    · rw [hf] at h1; simp only [if_true] at h1; simp [hb, bcE_length h1]; omega

/-- What `RdDec` that ends OK has done. -/
theorem rdDec_inv {c : Params} {data out : Bytes} {s t : State} (h : rdDec c data s = .ok (out, t))
    (hd : s.meDelta.length = c.blockSize) :
    out.length = (if s.meFirst = true then data.length - c.blockSize else data.length) ∧
      (s.meFirst = true → c.blockSize ≤ data.length) ∧ ∃ k delta, delta.length = c.blockSize ∧
        (s.meFirst = false → delta = s.meDelta) ∧
        t = { s.afterTransforms c k with meDelta := delta, meFirst := false, meOff := s.meOff + out.length } := by
  obtain ⟨⟨delta, body⟩, h1, h2⟩ := bind_ok.1 h
  obtain ⟨o, h3, h4⟩ := bind_ok.1 h2
  cases h4
  have hb := keystreamLoop_length h3
  unfold rdOpen at h1
  cases hf : s.meFirst
  · rw [hf] at h1
    cases h1
    exact ⟨by simp [hb], by simp, _, s.meDelta, hd, fun _ => rfl, by rw [hb]⟩
  · rw [hf] at h1
    simp only [if_true] at h1
    split at h1
    · cases h1
    · rename_i hlen
      obtain ⟨dl, h5, h6⟩ := bind_ok.1 h1
      cases h6
      exact ⟨by simp [hb], fun _ => by omega, _, delta, bcD_length h5, by simp, by rw [hb]⟩

end Sys2Proof.Machine
end

