-- ==== Sys2Proof/Laws/Blocks.lean ====
section
/-! SUPPORT. What the loop of a block-aligned mode does, block by block, in the terms claims use. -/

namespace Sys2Proof.Machine

/-- Block `i + 1` of a buffer that starts with one block is block `i` of the rest. -/
theorem blockAt_cons {c : Params} {y ys : Bytes} (h : y.length = c.blockSize) (i : Nat) :
    blockAt c (y ++ ys) (i + 1) = blockAt c ys i := by
  unfold blockAt
  rw [show (i + 1) * c.blockSize = y.length + i * c.blockSize by rw [h]; ring, List.drop_append,
    List.drop_of_length_le (by omega)]
  simp

/-- Block 0 of a buffer that starts with one block. -/
theorem blockAt_zero {c : Params} {y ys : Bytes} (h : y.length = c.blockSize) : blockAt c (y ++ ys) 0 = y := by
  unfold blockAt; simp [← h]

/-- Blocks after the first. -/
theorem blockAt_drop {c : Params} {d : Bytes} (i : Nat) : blockAt c (d.drop c.blockSize) i = blockAt c d (i + 1) := by
  unfold blockAt; rw [List.drop_drop]; congr 2; ring

/-- The loop over `n` blocks: there is a sequence of feedback values `F 0 .. F n` such that block `i` of the output and
`F (i + 1)` are what the block step answers on block `i` of the input and `F i`. -/
theorem foldBlocks_spec {c : Params} {step : BlockStep} {f : Bytes → Bytes → Bytes × Bytes} (ha : Answers c step f) :
    ∀ {n : Nat} {d fb : Bytes},
    d.length = c.blockSize * n → fb.length = c.blockSize →
    ∃ F : Nat → Bytes, F 0 = fb ∧ (foldBlocks f (takeBlocks c.blockSize n d) fb).2 = F n ∧
      (foldBlocks f (takeBlocks c.blockSize n d) fb).1.length = d.length ∧
      (∀ i, i ≤ n → (F i).length = c.blockSize) ∧
      ∀ i, i < n → blockAt c (foldBlocks f (takeBlocks c.blockSize n d) fb).1 i = (f (blockAt c d i) (F i)).1 ∧
        F (i + 1) = (f (blockAt c d i) (F i)).2
  | 0, d, fb, hd, hfb =>
    ⟨fun _ => fb, rfl, rfl, by simp at hd; simp [takeBlocks, foldBlocks, hd], fun _ _ => hfb, by simp⟩
  | n + 1, d, fb, hd, hfb => by
    have hle : c.blockSize ≤ d.length := by rw [hd]; exact Nat.le_mul_of_pos_right _ (by omega)
    have hx : (d.take c.blockSize).length = c.blockSize := by simp [hle]
    obtain ⟨_, h1, h2⟩ := ha _ fb hx hfb
    have hdl : (d.drop c.blockSize).length = c.blockSize * n := by rw [List.length_drop, hd, Nat.mul_succ]; omega
    obtain ⟨F, g0, g1, g2, g3, g4⟩ :=
      foldBlocks_spec ha (n := n) (d := d.drop c.blockSize) (fb := (f (d.take c.blockSize) fb).2) hdl h2
    refine ⟨fun i => match i with | 0 => fb | i + 1 => F i, rfl, g1, ?_, ?_, ?_⟩
    · simp only [takeBlocks, foldBlocks, List.length_append, h1, g2, List.length_drop]; omega
    · rintro (_|i) hi
      · exact hfb
      · exact g3 i (by omega)
    · rintro (_|i) hi
      · simp only [takeBlocks, foldBlocks]
        rw [blockAt_zero h1, show blockAt c d 0 = d.take c.blockSize by simp [blockAt], g0]
        exact ⟨rfl, rfl⟩
      · simp only [takeBlocks, foldBlocks]
        rw [blockAt_cons h1, ← blockAt_drop]
        exact g4 i (by omega)

/-- A block of an exclusive-or is the exclusive-or of the blocks. -/
theorem blockAt_zipXor (c : Params) (a b : Bytes) (i : Nat) :
    blockAt c (zipXor a b) i = zipXor (blockAt c a i) (blockAt c b i) := by
  unfold blockAt zipXor
  rw [List.drop_zipWith, List.take_zipWith]


end Sys2Proof.Machine
end

