-- ==== Sys2Proof/Laws/Commands.lean ====
section
/-! SUPPORT. The laws of the mode engine's commands: everything `ME_INIT`, `ME_ENC` and `ME_DEC` can do, and when a transform
ends OK. -/

namespace Sys2Proof.Machine

-- ---------------------------------------------------------------- mode functions, whatever the state

/-- A block-aligned mode function that ends OK, in any state. -/
theorem blockMode_frame {c : Params} {step : BlockStep} {data out : Bytes} {s t : State}
    (h : blockMode c step data s = .ok (out, t)) :
    data.length % c.blockSize = 0 ∧ ∃ k fb,
      blockLoop step (takeBlocks c.blockSize (data.length / c.blockSize) data) s.meFb = .ok (out, fb) ∧
      t = { s.afterTransforms c k with meFb := fb, meOff := s.meOff + data.length } := by
  obtain ⟨blocks, h1, h2⟩ := bind_ok.1 h
  obtain ⟨⟨o, fb⟩, h3, h4⟩ := bind_ok.1 h2
  cases h4
  unfold split at h1
  rw [inDomain_ok] at h1
  split at h1
  · rename_i hm
    cases h1
    refine ⟨hm, data.length / c.blockSize, fb, h3, ?_⟩
    have hd : c.blockSize * (data.length / c.blockSize) = data.length := by
      have := Nat.div_add_mod data.length c.blockSize; omega
    simp only [takeBlocks_length, hd]
  · cases h1

/-- A block step that leaves `ME.FB` alone, in a loop. -/
theorem blockLoop_fb {step : BlockStep} (hk : ∀ x fb y fb', step x fb = .ok (y, fb') → fb' = fb) :
    ∀ {xs : List Bytes} {fb out fb' : Bytes}, blockLoop step xs fb = .ok (out, fb') → fb' = fb
  | [], _, _, _, h => by cases h; rfl
  | x :: xs, fb, out, fb', h => by
    simp only [blockLoop] at h
    obtain ⟨⟨y, fb1⟩, h1, h2⟩ := bind_ok.1 h
    obtain ⟨⟨ys, fb2⟩, h3, h4⟩ := bind_ok.1 h2
    cases h4
    rw [blockLoop_fb hk h3, hk _ _ _ _ h1]

theorem ecbEncStep_fb (c : Params) (s : State) (x fb y fb' : Bytes) (h : ecbEncStep c s x fb = .ok (y, fb')) :
    fb' = fb := by
  obtain ⟨a, _, hr⟩ := bind_ok.1 h
  cases hr; rfl

theorem ecbDecStep_fb (c : Params) (s : State) (x fb y fb' : Bytes) (h : ecbDecStep c s x fb = .ok (y, fb')) :
    fb' = fb := by
  obtain ⟨a, _, hr⟩ := bind_ok.1 h
  cases hr; rfl

theorem ofbXform_frame {c : Params} {data out : Bytes} {s t : State} (h : ofbXform c data s = .ok (out, t)) :
    ∃ k fb, ofbLoop c s data s.meFb s.meOff = .ok (out, fb) ∧
      t = { s.afterTransforms c k with meFb := fb, meOff := s.meOff + data.length } := by
  obtain ⟨⟨o, fb⟩, h1, h2⟩ := bind_ok.1 h
  cases h2
  exact ⟨_, fb, h1, rfl⟩

/-- What `RdDec` that ends OK has done, in any state. -/
theorem rdDec_frame {c : Params} {data out : Bytes} {s t : State} (h : rdDec c data s = .ok (out, t)) :
    out.length = (if s.meFirst = true then data.length - c.blockSize else data.length) ∧
      (s.meFirst = true → c.blockSize ≤ data.length) ∧ ∃ k delta,
        (s.meFirst = true → delta.length = c.blockSize) ∧ (s.meFirst = false → delta = s.meDelta) ∧
        t = { s.afterTransforms c k with meDelta := delta, meFirst := false, meOff := s.meOff + out.length } := by
  obtain ⟨⟨delta, body⟩, h1, h2⟩ := bind_ok.1 h
  obtain ⟨o, h3, h4⟩ := bind_ok.1 h2
  cases h4
  have hb := keystreamLoop_length h3
  unfold rdOpen at h1
  cases hf : s.meFirst
  · rw [hf] at h1
    cases h1
    exact ⟨by simp [hb], by simp, _, s.meDelta, by simp, fun _ => rfl, by rw [hb]⟩
  · rw [hf] at h1
    simp only [if_true] at h1
    split at h1
    · cases h1
    · rename_i hlen
      obtain ⟨dl, h5, h6⟩ := bind_ok.1 h1
      cases h6
      exact ⟨by simp [hb], fun _ => by omega, _, delta, fun _ => bcD_length h5, by simp, by rw [hb]⟩

/-- What the mode function of `ME_ENC` that ends OK has done. -/
theorem modeEnc_frame {c : Params} {data out : Bytes} {s t : State} (h : modeEnc c data s = .ok (out, t)) :
    ∃ k fb, t = { s.afterTransforms c k with
        meFb := fb, meOff := s.meOff + data.length, meFirst := if s.meMode = .rd then false else s.meFirst } ∧
      (s.meMode ∈ [Mode.ecb, .ctr, .rd] → fb = s.meFb) ∧
      (s.meMode.requiresPadding = true → data.length % c.blockSize = 0) ∧
      (s.meFb.length = c.blockSize → fb.length = c.blockSize ∧ out.length = s.outLen c .enc data) := by
  unfold modeEnc at h
  cases hm : s.meMode <;> rw [hm] at h <;> simp only at h
  case ecb =>
    obtain ⟨ha, k, fb, hl, rfl⟩ := blockMode_frame h
    refine ⟨k, fb, by simp, fun _ => blockLoop_fb (ecbEncStep_fb c s) hl, fun _ => ha, fun hfb => ?_⟩
    obtain ⟨_, ho, _⟩ := blockMode_inv (ecbEncStep_keepsBlocks c s) h hfb
    exact ⟨by rw [blockLoop_fb (ecbEncStep_fb c s) hl, hfb], by simp [State.outLen, hm, ho]⟩
  case cbc =>
    obtain ⟨ha, k, fb, hl, rfl⟩ := blockMode_frame h
    refine ⟨k, fb, by simp, by simp, fun _ => ha, fun hfb => ?_⟩
    obtain ⟨_, ho, k', fb', h1, h2, h3⟩ := blockMode_inv (cbcEncStep_keepsBlocks c s) h hfb
    rw [h2] at hl; cases hl
    exact ⟨h1, by simp [State.outLen, hm, ho]⟩
  case pcbc =>
    obtain ⟨ha, k, fb, hl, rfl⟩ := blockMode_frame h
    refine ⟨k, fb, by simp, by simp, fun _ => ha, fun hfb => ?_⟩
    obtain ⟨_, ho, k', fb', h1, h2, h3⟩ := blockMode_inv (pcbcEncStep_keepsBlocks c s) h hfb
    rw [h2] at hl; cases hl
    exact ⟨h1, by simp [State.outLen, hm, ho]⟩
  case cfb =>
    obtain ⟨ha, k, fb, hl, rfl⟩ := blockMode_frame h
    refine ⟨k, fb, by simp, by simp, fun _ => ha, fun hfb => ?_⟩
    obtain ⟨_, ho, k', fb', h1, h2, h3⟩ := blockMode_inv (cfbEncStep_keepsBlocks c s) h hfb
    rw [h2] at hl; cases hl
    exact ⟨h1, by simp [State.outLen, hm, ho]⟩
  case ofb =>
    obtain ⟨k, fb, hl, rfl⟩ := ofbXform_frame h
    refine ⟨k, fb, by simp, by simp, by simp [Mode.requiresPadding], fun hfb => ?_⟩
    obtain ⟨ho, hf⟩ := ofbLoop_lengths hfb hl
    exact ⟨hf, by simp [State.outLen, hm, ho]⟩
  case ctr =>
    obtain ⟨_, ho, k, rfl⟩ := ctrXform_inv h
    refine ⟨k, s.meFb, by simp, by simp, by simp [Mode.requiresPadding], fun hfb => ?_⟩
    exact ⟨hfb, by simp [State.outLen, hm, ho]⟩
  case rd =>
    obtain ⟨ho, k, rfl⟩ := rdEnc_inv h
    refine ⟨k, s.meFb, by simp, by simp, by simp [Mode.requiresPadding], fun hfb => ?_⟩
    exact ⟨hfb, by simp [State.outLen, hm, ho]⟩

/-- What the mode function of `ME_DEC` that ends OK has done. -/
theorem modeDec_frame {c : Params} {data out : Bytes} {s t : State} (h : modeDec c data s = .ok (out, t)) :
    ∃ k fb delta, t = { s.afterTransforms c k with
        meFb := fb, meOff := s.meOff + s.bodyLen c .dec data, meDelta := delta
        meFirst := if s.meMode = .rd then false else s.meFirst } ∧
      (s.meMode ∈ [Mode.ecb, .ctr, .rd] → fb = s.meFb) ∧
      (¬(s.meMode = .rd ∧ s.meFirst = true) → delta = s.meDelta) ∧
      (s.meMode.requiresPadding = true → data.length % c.blockSize = 0) ∧
      (s.meMode = .rd → s.meFirst = true → delta.length = c.blockSize ∧ c.blockSize ≤ data.length) ∧
      (s.meFb.length = c.blockSize → fb.length = c.blockSize ∧ out.length = s.outLen c .dec data) := by
  unfold modeDec at h
  cases hm : s.meMode <;> rw [hm] at h <;> simp only at h
  case ecb =>
    obtain ⟨ha, k, fb, hl, rfl⟩ := blockMode_frame h
    refine ⟨k, fb, s.meDelta, by simp [State.bodyLen, hm], fun _ => blockLoop_fb (ecbDecStep_fb c s) hl, by simp,
      fun _ => ha, by simp, fun hfb => ?_⟩
    obtain ⟨_, ho, _⟩ := blockMode_inv (ecbDecStep_keepsBlocks c s) h hfb
    exact ⟨by rw [blockLoop_fb (ecbDecStep_fb c s) hl, hfb], by simp [State.outLen, hm, ho]⟩
  case cbc =>
    obtain ⟨ha, k, fb, hl, rfl⟩ := blockMode_frame h
    refine ⟨k, fb, s.meDelta, by simp [State.bodyLen, hm], by simp, by simp, fun _ => ha, by simp, fun hfb => ?_⟩
    obtain ⟨_, ho, k', fb', h1, h2, h3⟩ := blockMode_inv (cbcDecStep_keepsBlocks c s) h hfb
    rw [h2] at hl; cases hl
    exact ⟨h1, by simp [State.outLen, hm, ho]⟩
  case pcbc =>
    obtain ⟨ha, k, fb, hl, rfl⟩ := blockMode_frame h
    refine ⟨k, fb, s.meDelta, by simp [State.bodyLen, hm], by simp, by simp, fun _ => ha, by simp, fun hfb => ?_⟩
    obtain ⟨_, ho, k', fb', h1, h2, h3⟩ := blockMode_inv (pcbcDecStep_keepsBlocks c s) h hfb
    rw [h2] at hl; cases hl
    exact ⟨h1, by simp [State.outLen, hm, ho]⟩
  case cfb =>
    obtain ⟨ha, k, fb, hl, rfl⟩ := blockMode_frame h
    refine ⟨k, fb, s.meDelta, by simp [State.bodyLen, hm], by simp, by simp, fun _ => ha, by simp, fun hfb => ?_⟩
    obtain ⟨_, ho, k', fb', h1, h2, h3⟩ := blockMode_inv (cfbDecStep_keepsBlocks c s) h hfb
    rw [h2] at hl; cases hl
    exact ⟨h1, by simp [State.outLen, hm, ho]⟩
  case ofb =>
    obtain ⟨k, fb, hl, rfl⟩ := ofbXform_frame h
    refine ⟨k, fb, s.meDelta, by simp [State.bodyLen, hm], by simp, by simp, by simp [Mode.requiresPadding], by simp,
      fun hfb => ?_⟩
    obtain ⟨ho, hf⟩ := ofbLoop_lengths hfb hl
    exact ⟨hf, by simp [State.outLen, hm, ho]⟩
  case ctr =>
    obtain ⟨_, ho, k, rfl⟩ := ctrXform_inv h
    refine ⟨k, s.meFb, s.meDelta, by simp [State.bodyLen, hm], by simp, by simp, by simp [Mode.requiresPadding],
      by simp, fun hfb => ?_⟩
    exact ⟨hfb, by simp [State.outLen, hm, ho]⟩
  case rd =>
    obtain ⟨ho, hb, k, delta, h1, h2, rfl⟩ := rdDec_frame h
    refine ⟨k, s.meFb, delta, by simp [State.bodyLen, hm, ho], by simp, by simpa using h2,
      by simp [Mode.requiresPadding], fun _ hf => ⟨h1 hf, hb hf⟩, fun hfb => ?_⟩
    exact ⟨hfb, by simp [State.outLen, hm, ho]⟩

-- ---------------------------------------------------------------- ME_ENC, ME_DEC

/-- `MeCheck` passes exactly in a session, on an initialised core, on an operand that is there and aligned where the mode
asks for it (rule R210). -/
theorem meCheck_ok_iff {c : Params} {s : State} {op : Operand} {d : Bytes} :
    meCheck c s op = .ok d ↔ s.meInit = true ∧ s.fnInit = true ∧ op = some d ∧
      (s.meMode.requiresPadding = true → d.length % c.blockSize = 0) := by
  unfold meCheck
  cases hI : s.meInit
  · simp
  · cases hF : s.fnInit
    · simp
    · cases op with
      | none => simp
      | some x =>
        by_cases hB : s.meMode.requiresPadding = true ∧ x.length % c.blockSize ≠ 0
        · simp only [Bool.not_true, Bool.false_eq_true, if_false, hB, not_false_eq_true, and_self, if_true, ne_eq,
            Option.some.injEq, true_and]
          constructor
          · intro h; cases h
          · rintro ⟨rfl, h⟩; exact absurd (h trivial) hB.2
        · simp only [Bool.not_true, Bool.false_eq_true, if_false, if_neg hB, Except.ok.injEq, Option.some.injEq,
            true_and]
          constructor
          · rintro rfl
            refine ⟨rfl, fun h => ?_⟩
            by_contra h'
            exact hB ⟨h, h'⟩
          · exact fun h => h.1

/-- What `MeCheck` stops with is a failure, InvalidState or InvalidArgument. -/
theorem meCheck_error {c : Params} {s : State} {op : Operand} {stop : Stop} (h : meCheck c s op = .error stop) :
    stop = .failure .invalidState ∨ stop = .failure .invalidArgument := by
  unfold meCheck at h
  split at h
  · cases h; simp
  · split at h
    · cases h; simp
    · split at h
      · cases h; simp
      · split at h
        · cases h; simp
        · cases h

theorem directionCheck_ok_iff {s : State} {d : Dir} :
    directionCheck s d = .ok () ↔ (s.meMode ≠ .ecb → Dir.opposes s.meDir d = false) := by
  unfold directionCheck
  split
  · rename_i h
    simp [h.1, h.2]
  · rename_i h
    simp only [true_iff]
    intro h1
    cases ho : Dir.opposes s.meDir d
    · rfl
    · exact absurd ⟨h1, ho⟩ h

theorem directionCheck_error {s : State} {d : Dir} {stop : Stop} (h : directionCheck s d = .error stop) :
    stop = .refusal .directionMixed ∧ s.meMode ≠ .ecb ∧ Dir.opposes s.meDir d = true := by
  unfold directionCheck at h
  split at h
  · rename_i hc
    cases h
    exact ⟨rfl, hc⟩
  · cases h

theorem offsetCheck_ok_iff {c : Params} {s : State} : offsetCheck c s = .ok () ↔ s.meOff ≤ c.maxOff := by
  unfold offsetCheck
  split
  · rename_i h; simp; omega
  · rename_i h; simp; omega

theorem offsetCheck_error {c : Params} {s : State} {stop : Stop} (h : offsetCheck c s = .error stop) :
    stop = .refusal .offsetOverflow ∧ c.maxOff < s.meOff := by
  unfold offsetCheck at h
  split at h
  · rename_i hc; cases h; exact ⟨rfl, hc⟩
  · cases h

/-- Everything that makes a transform end OK, and with what. -/
theorem transform_ok_iff {c : Params} {d : Dir} {run : Bytes → State → Except Stop (Bytes × State)} {op : Operand}
    {s t : State} {out : Bytes} : transform c d run op s = .ok (out, t) ↔
      ∃ data u, op = some data ∧ s.meInit = true ∧ s.fnInit = true ∧
        (s.meMode.requiresPadding = true → data.length % c.blockSize = 0) ∧
        (s.meMode ≠ .ecb → Dir.opposes s.meDir d = false) ∧ run data s = .ok (out, u) ∧ u.meOff ≤ c.maxOff ∧
        t = { u with meDir := Dir.latch d u.meDir } := by
  unfold transform
  constructor
  · intro h
    obtain ⟨data, h1, h⟩ := bind_ok.1 h
    obtain ⟨⟨⟩, h2, h⟩ := bind_ok.1 h
    obtain ⟨⟨o, u⟩, h3, h⟩ := bind_ok.1 h
    obtain ⟨⟨⟩, h4, h⟩ := bind_ok.1 h
    cases h
    obtain ⟨a1, a2, a3, a4⟩ := meCheck_ok_iff.1 h1
    exact ⟨data, u, a3, a1, a2, a4, directionCheck_ok_iff.1 h2, h3, offsetCheck_ok_iff.1 h4, rfl⟩
  · rintro ⟨data, u, a3, a1, a2, a4, a5, a6, a7, rfl⟩
    rw [meCheck_ok_iff.2 ⟨a1, a2, a3, a4⟩, ok_bind, directionCheck_ok_iff.2 a5, ok_bind, a6, ok_bind]
    simp only [offsetCheck_ok_iff.2 a7, ok_bind]
    rfl

/-- Everything a transform can stop with. -/
theorem transform_error {c : Params} {d : Dir} {run : Bytes → State → Except Stop (Bytes × State)} {op : Operand}
    {s : State} {stop : Stop} (h : transform c d run op s = .error stop) :
    (stop = .failure .invalidState ∨ stop = .failure .invalidArgument) ∨
    ∃ data, op = some data ∧ s.meInit = true ∧ s.fnInit = true ∧
      (s.meMode.requiresPadding = true → data.length % c.blockSize = 0) ∧
      ((stop = .refusal .directionMixed ∧ s.meMode ≠ .ecb ∧ Dir.opposes s.meDir d = true) ∨
       run data s = .error stop ∨
       (stop = .refusal .offsetOverflow ∧ ∃ out u, run data s = .ok (out, u) ∧ c.maxOff < u.meOff)) := by
  unfold transform at h
  rcases bind_error.1 h with h | ⟨data, h1, h⟩
  · exact .inl (meCheck_error h)
  · obtain ⟨a1, a2, a3, a4⟩ := meCheck_ok_iff.1 h1
    refine .inr ⟨data, a3, a1, a2, a4, ?_⟩
    rcases bind_error.1 h with h | ⟨⟨⟩, h2, h⟩
    · exact .inl (directionCheck_error h)
    · rcases bind_error.1 h with h | ⟨⟨o, u⟩, h3, h⟩
      · exact .inr (.inl h)
      · rcases bind_error.1 h with h | ⟨⟨⟩, h4, h⟩
        · obtain ⟨b1, b2⟩ := offsetCheck_error h
          exact .inr (.inr ⟨b1, o, u, h3, b2⟩)
        · cases h

/-- How a transform command ends, from how its pseudocode does. -/
theorem commit_cases (s : State) (r : Except Stop (Bytes × State)) :
    (∃ out t, r = .ok (out, t) ∧ commit s r = finish out t) ∨
    (∃ k, r = .error (.failure k) ∧ commit s r = fail k s) ∨
    (∃ why, r = .error (.refusal why) ∧ commit s r = .refused why) := by
  match r with
  | .ok (out, t) => exact .inl ⟨out, t, rfl, rfl⟩
  | .error (.failure k) => exact .inr (.inl ⟨k, rfl, rfl⟩)
  | .error (.refusal why) => exact .inr (.inr ⟨why, rfl, rfl⟩)

-- ---------------------------------------------------------------- ME_INIT

/-- Everything `ME_INIT` can do. -/
theorem meInit_cases (c : Params) (sel : Byte) (iv : Operand) (seed : Option (BitVec 64)) (s : State) :
    (∃ k, (k = .unsupported ∨ k = .invalidArgument) ∧ meInit c sel iv seed s = fail k s) ∨
    (Mode.ofSel sel = some .ctr ∧ c.blockSize < 8 ∧ meInit c sel iv seed s = .refused .ctrBlockTooSmall) ∨
    (Mode.ofSel sel = some .ecb ∧ meInit c sel iv seed s = finish [] (openWithoutIv c .ecb s)) ∨
    (∃ m v, Mode.ofSel sel = some m ∧ m ≠ .ecb ∧ (m = .ctr → 8 ≤ c.blockSize) ∧ iv = some v ∧
      v.length = c.blockSize ∧ meInit c sel iv seed s = finish [] (openWithIv c m v seed s)) := by
  unfold meInit
  cases hs : Mode.ofSel sel with
  | none => exact .inl ⟨_, .inl rfl, rfl⟩
  | some m =>
    simp only
    by_cases hc : m = .ctr ∧ c.blockSize < 8
    · rw [if_pos hc, hc.1]
      exact .inr (.inl ⟨rfl, hc.2, rfl⟩)
    · rw [if_neg hc]
      by_cases he : m = .ecb
      · subst he
        exact .inr (.inr (.inl ⟨rfl, rfl⟩))
      · have hr : m.requiresIv = true := by cases m <;> first | rfl | exact absurd rfl he
        rw [if_pos hr]
        cases iv with
        | none => exact .inl ⟨_, .inr rfl, rfl⟩
        | some v =>
          by_cases hv : v.length = c.blockSize
          · refine .inr (.inr (.inr ⟨m, v, rfl, he, fun h => ?_, rfl, hv, ?_⟩))
            · by_contra h'
              exact hc ⟨h, by omega⟩
            · simp [ivCheck, hv]
          · exact .inl ⟨_, .inr rfl, by simp [ivCheck, hv, stopIn]⟩

/-- The registers after `ME_INIT` with an IV. -/
theorem openWithIv_eq (c : Params) (m : Mode) (v : Bytes) (seed : Option (BitVec 64)) (s : State) :
    openWithIv c m v seed s = { s with
      meMode := m, meOff := 0, meDir := .none, meInit := true, meIv := v, meFb := v
      meDelta := if m = .rd then rdInitialDelta c v seed else tabulate c.blockSize (c.freeDelta s.draws)
      meFirst := if m = .rd then true else c.freeFirst s.draws
      draws := if m = .rd then s.draws else s.draws + 1 } := by
  unfold openWithIv
  split <;> rfl

/-- The registers after `ME_INIT` without an IV. -/
theorem openWithoutIv_eq (c : Params) (m : Mode) (s : State) : openWithoutIv c m s = { s with
      meMode := m, meOff := 0, meDir := .none, meInit := true
      meIv := tabulate c.blockSize (c.freeIv s.draws), meFb := tabulate c.blockSize (c.freeFb s.draws)
      meDelta := tabulate c.blockSize (c.freeDelta s.draws), meFirst := c.freeFirst s.draws
      draws := s.draws + 1 } := rfl

@[simp] theorem rdInitialDelta_length (c : Params) (iv : Bytes) (seed : Option (BitVec 64)) :
    (rdInitialDelta c iv seed).length = c.blockSize := by
  cases seed <;> simp [rdInitialDelta]

end Sys2Proof.Machine
end

