-- ==== Sys2Proof/Laws/Decode.lean ====
section
/-! SUPPORT. The laws of frames: reading a header that is there, the fields of its command word, and the frame the encoder
writes. -/

namespace Sys2Proof

open Machine (be beBytes be_beBytes)

/-- A whole frame at the front of a stream: a 16-byte header whose `LEN` counts the payload (rules R101, R102). -/
theorem readFrame_whole {opc flg sel rsv l0 l1 l2 l3 s0 s1 s2 s3 s4 s5 s6 s7 : Byte} {pay rest : Bytes}
    (h : be [l0, l1, l2, l3] = pay.length) :
    readFrame ([opc, flg, sel, rsv, l0, l1, l2, l3, s0, s1, s2, s3, s4, s5, s6, s7] ++ pay ++ rest) =
      some (⟨BitVec.ofNat 32 (be [opc, flg, sel, rsv]), BitVec.ofNat 64 (be [s0, s1, s2, s3, s4, s5, s6, s7]), pay⟩,
        rest) := by
  simp only [List.cons_append, List.nil_append, readFrame, h]
  simp

/-- What `readFrame` answers, read backwards: the header, the payload `LEN` counts, and the rest. -/
theorem readFrame_eq_some {stream rest : Bytes} {f : Frame} (h : readFrame stream = some (f, rest)) :
    ∃ opc flg sel rsv l0 l1 l2 l3 s0 s1 s2 s3 s4 s5 s6 s7 : Byte,
      stream = [opc, flg, sel, rsv, l0, l1, l2, l3, s0, s1, s2, s3, s4, s5, s6, s7] ++ (f.pay ++ rest) ∧
      be [l0, l1, l2, l3] = f.pay.length ∧ f.cw = BitVec.ofNat 32 (be [opc, flg, sel, rsv]) ∧
      f.seed = BitVec.ofNat 64 (be [s0, s1, s2, s3, s4, s5, s6, s7]) := by
  unfold readFrame at h
  split at h
  · rename_i opc flg sel rsv l0 l1 l2 l3 s0 s1 s2 s3 s4 s5 s6 s7 tail
    simp only at h
    split at h
    · cases h
    · rename_i hl
      cases h
      refine ⟨opc, flg, sel, rsv, l0, l1, l2, l3, s0, s1, s2, s3, s4, s5, s6, s7, by simp, ?_, rfl, rfl⟩
      simp only [List.length_take]
      omega
  · cases h

/-- Two bytes side by side. -/
theorem toNat_append_byte {w : Nat} (x : BitVec w) (y : Byte) : (x ++ y).toNat = x.toNat * 2 ^ 8 + y.toNat := by
  rw [BitVec.toNat_append, ← Nat.shiftLeft_add_eq_or_of_lt y.isLt, Nat.shiftLeft_eq]

/-- The command word is the four bytes side by side (rule R101). -/
theorem cw_eq_append (opc flg sel rsv : Byte) : BitVec.ofNat 32 (be [opc, flg, sel, rsv]) = opc ++ flg ++ sel ++ rsv := by
  apply BitVec.eq_of_toNat_eq
  rw [toNat_append_byte, toNat_append_byte, toNat_append_byte]
  have := opc.isLt
  have := flg.isLt
  have := sel.isLt
  have := rsv.isLt
  simp only [be, List.length_cons, List.length_nil, BitVec.toNat_ofNat]
  omega

/-- `OPC` of a command word. -/
theorem Frame.opc_eq {opc flg sel rsv : Byte} {f : Frame} (h : f.cw = BitVec.ofNat 32 (be [opc, flg, sel, rsv])) :
    f.opc = opc := by
  rw [Frame.opc, h, cw_eq_append]
  apply BitVec.eq_of_getLsbD_eq
  intro i hi
  simp only [BitVec.getLsbD_extractLsb', BitVec.getLsbD_append]
  simp [hi, show ¬ 24 + i < 8 by omega, show ¬ 24 + i - 8 < 8 by omega, show ¬ 24 + i - 8 - 8 < 8 by omega,
    show 24 + i - 8 - 8 - 8 = i by omega]

/-- `SEL` of a command word. -/
theorem Frame.sel_eq {opc flg sel rsv : Byte} {f : Frame} (h : f.cw = BitVec.ofNat 32 (be [opc, flg, sel, rsv])) :
    f.sel = sel := by
  rw [Frame.sel, h, cw_eq_append]
  apply BitVec.eq_of_getLsbD_eq
  intro i hi
  simp only [BitVec.getLsbD_extractLsb', BitVec.getLsbD_append]
  simp [hi, show ¬ 8 + i < 8 by omega, show 8 + i - 8 = i by omega]

/-- `NP` of a command word. -/
theorem Frame.np_eq {opc flg sel rsv : Byte} {f : Frame} (h : f.cw = BitVec.ofNat 32 (be [opc, flg, sel, rsv])) :
    f.np = flg.getLsbD 0 := by
  rw [Frame.np, h, cw_eq_append]
  simp only [BitVec.getLsbD_append]
  simp

/-- `SV` of a command word. -/
theorem Frame.sv_eq {opc flg sel rsv : Byte} {f : Frame} (h : f.cw = BitVec.ofNat 32 (be [opc, flg, sel, rsv])) :
    f.sv = flg.getLsbD 1 := by
  rw [Frame.sv, h, cw_eq_append]
  simp only [BitVec.getLsbD_append]
  simp

/-- What stands at the front of a stream, from its first frame and that frame's checks (rule R108). -/
theorem decode_waiting {stream : Bytes} (h : readFrame stream = none) : decode stream = .waiting := by
  rw [decode, h]

theorem decode_rejected {stream rest : Bytes} {f : Frame} {why : FrameError}
    (h : readFrame stream = some (f, rest)) (hc : checkFrame f = .error why) : decode stream = .rejected why rest := by
  rw [decode, h]
  simp only [hc]

theorem decode_command {stream rest : Bytes} {f : Frame} {op : Opcode}
    (h : readFrame stream = some (f, rest)) (hc : checkFrame f = .ok op) :
    decode stream = .command (f.instr op) rest := by
  rw [decode, h]
  simp only [hc]

theorem Opcode.ofByte_code (op : Opcode) : Opcode.ofByte op.code = some op := by cases op <;> decide

theorem Opcode.ofByte_eq_some {b : Byte} {op : Opcode} (h : Opcode.ofByte b = some op) : b = op.code := by
  have := List.find?_some h
  exact (eq_of_beq this).symm

/-- What a frame that passes its checks looks like (rule R108). -/
theorem checkFrame_ok_iff {f : Frame} {op : Opcode} : checkFrame f = .ok op ↔
    f.opc = op.code ∧ f.cw &&& op.mbz = 0 ∧ (f.np = true → f.pay = []) ∧ (op.noPayload = true → f.pay = []) := by
  unfold checkFrame
  constructor
  · intro h
    split at h
    · cases h
    · rename_i op' ho
      split at h
      · cases h
      · rename_i h1
        split at h
        · cases h
        · rename_i h2
          split at h
          · cases h
          · rename_i h3
            cases h
            refine ⟨Opcode.ofByte_eq_some ho, by simpa using h1, fun hn => ?_, fun hn => ?_⟩
            · by_contra hp
              exact h2 ⟨hn, by simpa using hp⟩
            · by_contra hp
              exact h3 ⟨hn, by simpa using hp⟩
  · rintro ⟨h1, h2, h3, h4⟩
    rw [h1, Opcode.ofByte_code]
    simp only
    rw [if_neg (by simpa using h2), if_neg, if_neg]
    · rintro ⟨ha, hb⟩
      exact hb (by rw [h4 ha]; rfl)
    · rintro ⟨ha, hb⟩
      exact hb (by rw [h3 ha]; rfl)

@[simp] theorem Frame.instr_opcode (f : Frame) (op : Opcode) : (f.instr op).opcode = op := by cases op <;> rfl

/-- The payload bytes of a frame's command are the frame's. -/
theorem Frame.instr_payload {f : Frame} {op : Opcode} (h : checkFrame f = .ok op) : (f.instr op).payload = f.pay := by
  obtain ⟨_, _, h3, h4⟩ := checkFrame_ok_iff.1 h
  have ho : f.operand.getD [] = f.pay := by
    unfold Frame.operand
    split
    · rename_i hn; rw [h3 hn]; rfl
    · rfl
  cases op <;> first | exact ho | exact (h4 rfl).symm

/-- A well-formed command's payload fits `LEN`. -/
theorem Instr.payload_length_le {i : Instr} (h : i.wf = true) : i.payload.length ≤ maxLen := by
  have key : ∀ o : Operand, Operand.wf o = true → (o.getD []).length ≤ maxLen := by
    rintro (_ | pay) h
    · simp [maxLen]
    · simpa [Operand.wf] using h
  cases i <;> exact key _ h

/-- Reading the frame a well-formed command is written as (rules R101, R103). -/
theorem readFrame_encode {i : Instr} (h : i.wf = true) (rest : Bytes) :
    readFrame (encode i ++ rest) =
      some (⟨BitVec.ofNat 32 (be [i.opcode.code, i.flags, i.sel, 0]), i.seed.getD 0, i.payload⟩, rest) := by
  have hp := Instr.payload_length_le h
  have hlen : i.payload.length % 256 ^ 4 = i.payload.length := by
    refine Nat.mod_eq_of_lt ?_
    simp only [maxLen] at hp
    omega
  have hseed : (i.seed.getD 0).toNat % 256 ^ 8 = (i.seed.getD 0).toNat :=
    Nat.mod_eq_of_lt (i.seed.getD 0).isLt
  have e4 := be_beBytes 4 i.payload.length
  have e8 := be_beBytes 8 (i.seed.getD 0).toNat
  rw [hlen] at e4
  rw [hseed] at e8
  simp only [beBytes] at e4 e8
  simp only [encode, beBytes]
  exact (readFrame_whole e4).trans (by rw [e8, BitVec.ofNat_toNat, BitVec.setWidth_eq])

end Sys2Proof
end

