-- ==== Sys2Proof/Laws/HostContext.lean ====
section
/-! SUPPORT. What a host call and a run of chunk calls do, said once per outcome of the command, for any command set
`run`. -/

namespace Sys2Proof.Machine

variable {run : Instr → State → Result} {opened : Response → Except HostStop Bytes} {i : Instr} {s t : State}

/-- A command that answers gives its response. -/
theorem hostCall_of_respond {r : Response} (hi : i.wf = true) (h : run i s = .next (t.respond r))
    (ht : t.responses = s.responses) : hostCall run i s = (.ok r, t.respond r) := by
  simp [hostCall, hi, h, State.respond, ht]

/-- A refused command ends the call, the engine given back being the model's placeholder (log entry 25). -/
theorem hostCall_of_refused {why : Refusal} (hi : i.wf = true) (h : run i s = .refused why) :
    hostCall run i s = (.error (.refused why), s) := by simp [hostCall, hi, h]

/-- The call's result when its command succeeds, and when it fails. -/
theorem hostResult_of_finish {out : Bytes} (hi : i.wf = true) (h : run i s = finish out t)
    (ht : t.responses = s.responses) : hostResult run opened i s = (opened (.ok out), t.respond (.ok out)) := by
  simp only [hostResult, hostCall_of_respond hi h ht]

theorem hostResult_of_fail {kind : FailKind} (hi : i.wf = true) (h : run i s = fail kind s) :
    hostResult run opened i s = (opened (.failure kind), s.respond (.failure kind)) := by
  simp only [hostResult, hostCall_of_respond hi h rfl]

theorem hostResult_of_refused {why : Refusal} (hi : i.wf = true) (h : run i s = .refused why) :
    hostResult run opened i s = (.error (.refused why), s) := by
  simp only [hostResult, hostCall_of_refused hi h]

/-- A chunk that succeeds adds its response to what the later ones write (rule R336). -/
theorem chunkCalls_of_ok {j : Instr} {rest : List Instr} {out : Bytes} (h : hostResult run ctxSealed i s = (.ok out, t)) :
    chunkCalls run opened (i :: j :: rest) s =
      { chunkCalls run opened (j :: rest) t with written := out ++ (chunkCalls run opened (j :: rest) t).written } := by
  simp only [chunkCalls, h]

/-- A chunk that fails ends the run: nothing more is written, nothing written is taken back (rule R338). -/
theorem chunkCalls_of_error {j : Instr} {rest : List Instr} {why : HostStop}
    (h : hostResult run ctxSealed i s = (.error why, t)) :
    chunkCalls run opened (i :: j :: rest) s = { written := [], stop := some why, engine := t } := by
  simp only [chunkCalls, h]

end Sys2Proof.Machine
end

