-- ==== Sys2Proof/Laws/Ready.lean ====
section
/-! SUPPORT. When a transform executes normally: under `State.Ready` every mode function, and with it the command, ends
OK. -/

namespace Sys2Proof.Machine

/-- The RD counter block, on blocks and a 32-bit index, is a block. -/
theorem rdCounter_some {c : Params} {iv delta : Bytes} {i : Nat} (hi : iv.length = c.blockSize)
    (hd : delta.length = c.blockSize) (h : i < 2 ^ 32) :
    ∃ b, rdCounter iv delta i = some b ∧ b.length = c.blockSize := by
  have hp := c.blockSize_pos
  have h1 : mulMod32 delta i = some (mulLoop i delta).1 := if_pos ⟨by omega, h⟩
  have h2 : addMod iv (mulLoop i delta).1 = some (addLoop iv (mulLoop i delta).1).1 :=
    if_pos ⟨by simp [hi, hd], by omega⟩
  refine ⟨(addLoop iv (mulLoop i delta).1).1, ?_, ?_⟩
  · simp only [rdCounter, h1]
    exact h2
  · rw [addLoop_length (by simp [hi, hd]), hi]

/-- An RD keystream block with a 32-bit index, on a ready core. -/
theorem rdKs_ok {c : Params} {s : State} (hf : s.FnReady c) {delta : Bytes} {i : Nat}
    (hi : s.meIv.length = c.blockSize) (hd : delta.length = c.blockSize) (h : i < 2 ^ 32) :
    ∃ b, rdCounter s.meIv delta i = some b ∧ b.length = c.blockSize ∧
      rdKs c s delta i = .ok (cipherEnc c s.fnRk b) := by
  obtain ⟨b, h1, h2⟩ := rdCounter_some hi hd h
  refine ⟨b, h1, h2, ?_⟩
  unfold rdKs
  rw [if_neg (by omega), h1]
  exact bcE_ok hf.1 hf.2 h2

/-- A CTR keystream block, on a ready core. -/
theorem ctrKs_ok {c : Params} {s : State} (hf : s.FnReady c) (hi : s.meIv.length = c.blockSize)
    (h : 8 ≤ c.blockSize) (i : Nat) : ctrKs c s i = .ok (ctrBlock c s.fnRk s.meIv i) := by
  unfold ctrKs ctrAdd
  rw [if_pos (by omega), hi]
  refine bcE_ok hf.1 hf.2 ?_
  simp [hi]
  omega

theorem ctrBlock_length {c : Params} (rks : List Bytes) {iv : Bytes} (hi : iv.length = c.blockSize)
    (h : 8 ≤ c.blockSize) (i : Nat) : (ctrBlock c rks iv i).length = c.blockSize :=
  cipherEnc_length rks (by simp [hi]; omega)

/-- The CTR transform on a ready core: the data under the CTR keystream. -/
theorem ctrXform_ok {c : Params} {s : State} (hf : s.FnReady c) (hi : s.meIv.length = c.blockSize)
    (h : 8 ≤ c.blockSize) (data : Bytes) :
    ∃ out, UnderKeystream c (ctrBlock c s.fnRk s.meIv) s.meOff data out ∧
      ctrXform c data s =
        .ok (out, { s.afterTransforms c data.length with meOff := s.meOff + data.length }) := by
  obtain ⟨out, h1, h2⟩ := keystreamLoop_ok c.blockSize_pos (ks := ctrKs c s) (K := ctrBlock c s.fnRk s.meIv)
    (data := data) (off := s.meOff) (fun i _ => ⟨ctrKs_ok hf hi h i, ctrBlock_length _ hi h i⟩)
  refine ⟨out, h2, ?_⟩
  simp only [ctrXform, if_neg (show ¬ c.blockSize < 8 by omega), h1, ok_bind]
  rfl

/-- The OFB loop on a ready core. -/
theorem ofbLoop_ok {c : Params} {s : State} (hf : s.FnReady c) : ∀ {data fb : Bytes} {off : Nat},
    fb.length = c.blockSize → ∃ out fb', ofbLoop c s data fb off = .ok (out, fb')
  | [], fb, off, _ => ⟨[], fb, rfl⟩
  | d :: ds, fb, off, hfb => by
    obtain ⟨fb1, h1, hl⟩ : ∃ fb1, ofbNext c s fb off = .ok fb1 ∧ fb1.length = c.blockSize := by
      unfold ofbNext
      split
      · exact ⟨_, bcE_ok hf.1 hf.2 hfb, cipherEnc_length _ hfb⟩
      · exact ⟨_, rfl, hfb⟩
    have hq : off % c.blockSize < fb1.length := by rw [hl]; exact Nat.mod_lt _ c.blockSize_pos
    obtain ⟨out, fb', h2⟩ := ofbLoop_ok hf (data := ds) (off := off + 1) hl
    refine ⟨(d ^^^ fb1.getD (off % c.blockSize) 0) :: out, fb', ?_⟩
    simp only [ofbLoop, h1, ok_bind, byteAt_ok hq, h2]
    rfl

/-- The RD body on a ready core, up to the index limit. -/
theorem rdBody_ok {c : Params} {s : State} (hf : s.FnReady c) {delta data : Bytes}
    (hi : s.meIv.length = c.blockSize) (hd : delta.length = c.blockSize)
    (h : s.meOff + data.length ≤ 2 ^ 32 * c.blockSize) : ∃ out, rdBody c s delta data = .ok out := by
  have hk : ∀ i, i * c.blockSize < s.meOff + data.length →
      rdKs c s delta i = .ok (cipherEnc c s.fnRk ((rdCounter s.meIv delta i).getD [])) ∧
      (cipherEnc c s.fnRk ((rdCounter s.meIv delta i).getD [])).length = c.blockSize := by
    intro i hlt
    have : i < 2 ^ 32 := by
      by_contra hge
      have := Nat.mul_le_mul_right c.blockSize (Nat.le_of_not_lt hge)
      omega
    obtain ⟨b, h1, h2, h3⟩ := rdKs_ok hf hi hd this
    rw [h1, h3]
    exact ⟨rfl, cipherEnc_length _ h2⟩
  obtain ⟨out, h1, _⟩ := keystreamLoop_ok c.blockSize_pos hk
  exact ⟨out, h1⟩

/-- The mode function of a ready `ME_ENC` ends OK. -/
theorem modeEnc_ready {c : Params} {s : State} {data : Bytes} (h : s.Ready c .enc data) :
    ∃ out t, modeEnc c data s = .ok (out, t) := by
  have hb : s.bodyLen c .enc data = data.length := by simp [State.bodyLen]
  have ha := h.aligned
  unfold modeEnc
  cases hm : s.meMode <;> rw [hm] at ha <;> simp only
  case ecb => exact ⟨_, _, blockMode_answers (ecbEncStep_answers h.fn) (ha rfl) h.shaped.fb⟩
  case cbc => exact ⟨_, _, blockMode_answers (cbcEncStep_answers h.fn) (ha rfl) h.shaped.fb⟩
  case pcbc => exact ⟨_, _, blockMode_answers (pcbcEncStep_answers h.fn) (ha rfl) h.shaped.fb⟩
  case cfb => exact ⟨_, _, blockMode_answers (cfbEncStep_answers h.fn) (ha rfl) h.shaped.fb⟩
  case ofb =>
    obtain ⟨out, fb, h1⟩ := ofbLoop_ok h.fn (data := data) (off := s.meOff) h.shaped.fb
    exact ⟨out, _, by simp only [ofbXform, h1, ok_bind]; rfl⟩
  case ctr =>
    have h8 := h.ctrBlock hm
    obtain ⟨out, _, h1⟩ := ctrXform_ok h.fn h.shaped.iv h8 data
    exact ⟨out, _, h1⟩
  case rd =>
    have hr := h.rdIndex hm
    rw [hb] at hr
    obtain ⟨body, h1⟩ := rdBody_ok h.fn h.shaped.iv h.shaped.delta hr
    obtain ⟨hdr, h2⟩ : ∃ hdr, rdHeader c s = .ok hdr := by
      unfold rdHeader
      split
      · exact ⟨_, bcE_ok h.fn.1 h.fn.2 h.shaped.delta⟩
      · exact ⟨_, rfl⟩
    have hl : ¬(s.meFirst = true ∧ maxLen < data.length + c.blockSize) := by
      rintro ⟨h3, h4⟩
      have := h.rdLong hm h3 rfl
      omega
    exact ⟨hdr ++ body, { s.afterTransforms c ((if s.meFirst then 1 else 0) + data.length) with
      meFirst := false, meOff := s.meOff + data.length }, by simp only [rdEnc, h2, ok_bind, if_neg hl, h1]; rfl⟩

/-- The mode function of a ready `ME_DEC` ends OK. -/
theorem modeDec_ready {c : Params} {s : State} {data : Bytes} (h : s.Ready c .dec data) :
    ∃ out t, modeDec c data s = .ok (out, t) := by
  have ha := h.aligned
  unfold modeDec
  cases hm : s.meMode <;> rw [hm] at ha <;> simp only
  case ecb => exact ⟨_, _, blockMode_answers (ecbDecStep_answers h.fn) (ha rfl) h.shaped.fb⟩
  case cbc => exact ⟨_, _, blockMode_answers (cbcDecStep_answers h.fn) (ha rfl) h.shaped.fb⟩
  case pcbc => exact ⟨_, _, blockMode_answers (pcbcDecStep_answers h.fn) (ha rfl) h.shaped.fb⟩
  case cfb => exact ⟨_, _, blockMode_answers (cfbDecStep_answers h.fn) (ha rfl) h.shaped.fb⟩
  case ofb =>
    obtain ⟨out, fb, h1⟩ := ofbLoop_ok h.fn (data := data) (off := s.meOff) h.shaped.fb
    exact ⟨out, _, by simp only [ofbXform, h1, ok_bind]; rfl⟩
  case ctr =>
    have h8 := h.ctrBlock hm
    obtain ⟨out, _, h1⟩ := ctrXform_ok h.fn h.shaped.iv h8 data
    exact ⟨out, _, h1⟩
  case rd =>
    have hr := h.rdIndex hm
    have hH := h.rdHeader hm
    unfold rdDec rdOpen
    cases hf : s.meFirst
    · have hb : s.bodyLen c .dec data = data.length := by simp [State.bodyLen, hf]
      rw [hb] at hr
      obtain ⟨body, h1⟩ := rdBody_ok h.fn h.shaped.iv h.shaped.delta hr
      exact ⟨body, _, by simp only [Bool.false_eq_true, if_false, ok_bind, h1]; rfl⟩
    · have hb : s.bodyLen c .dec data = (data.drop c.blockSize).length := by simp [State.bodyLen, hm, hf]
      rw [hb] at hr
      have hlen := hH hf rfl
      have ht : (data.take c.blockSize).length = c.blockSize := by simp [hlen]
      obtain ⟨body, h1⟩ := rdBody_ok h.fn h.shaped.iv (cipherDec_length s.fnRk ht) hr
      refine ⟨body, { s.afterTransforms c (1 + (data.drop c.blockSize).length) with
        meDelta := cipherDec c s.fnRk (data.take c.blockSize), meFirst := false
        meOff := s.meOff + (data.drop c.blockSize).length }, ?_⟩
      simp only [if_true, if_neg (show ¬ data.length < c.blockSize by omega), bcD_ok h.fn.1 h.fn.2 ht, ok_bind]
      simp only [pure_bind, h1, ok_bind]
      rfl

/-- A ready `ME_ENC` ends OK, with what its mode function answers. -/
theorem meEnc_ready {c : Params} {s : State} {data : Bytes} (h : s.Ready c .enc data) :
    ∃ out t, modeEnc c data s = .ok (out, t) ∧
      meEnc c (some data) s = finish out { t with meDir := Dir.latch .enc t.meDir } := by
  obtain ⟨out, t, h1⟩ := modeEnc_ready h
  refine ⟨out, t, h1, ?_⟩
  obtain ⟨k, fb, ht, _⟩ := modeEnc_frame h1
  have hb : s.bodyLen c .enc data = data.length := by simp [State.bodyLen]
  have ho : t.meOff ≤ c.maxOff := by
    have := h.bound
    rw [hb] at this
    rw [ht]
    exact this
  unfold meEnc
  rw [transform_ok_iff.2 ⟨data, t, rfl, h.session, h.fn.1, h.aligned, h.direction, h1, ho, rfl⟩]
  rfl

/-- A ready `ME_DEC` ends OK, with what its mode function answers. -/
theorem meDec_ready {c : Params} {s : State} {data : Bytes} (h : s.Ready c .dec data) :
    ∃ out t, modeDec c data s = .ok (out, t) ∧
      meDec c (some data) s = finish out { t with meDir := Dir.latch .dec t.meDir } := by
  obtain ⟨out, t, h1⟩ := modeDec_ready h
  refine ⟨out, t, h1, ?_⟩
  obtain ⟨k, fb, delta, ht, _⟩ := modeDec_frame h1
  have ho : t.meOff ≤ c.maxOff := by
    have := h.bound
    rw [ht]
    exact this
  unfold meDec
  rw [transform_ok_iff.2 ⟨data, t, rfl, h.session, h.fn.1, h.aligned, h.direction, h1, ho, rfl⟩]
  rfl

end Sys2Proof.Machine
end

