-- ==== Sys2Proof/Laws/Stops.lean ====
section
/-! SUPPORT. What a transform can stop with: the failure kinds of any command, and, on a ready core and block registers of
one block, exactly the refusals spec/93_implementation_defined.md names. -/

namespace Sys2Proof.Machine

/-- A computation whose failures, if any, are InvalidState or InvalidArgument. -/
def OnlyInvalid {α : Type} (x : Except Stop α) : Prop :=
  ∀ k, x = .error (.failure k) → k = .invalidState ∨ k = .invalidArgument

theorem OnlyInvalid.ok {α : Type} (a : α) : OnlyInvalid (.ok a) := fun _ h => by cases h

theorem OnlyInvalid.refusal {α : Type} (r : Refusal) : OnlyInvalid (.error (.refusal r) : Except Stop α) :=
  fun _ h => by cases h

theorem OnlyInvalid.bind {α β : Type} {x : Except Stop α} {f : α → Except Stop β} (hx : OnlyInvalid x)
    (hf : ∀ a, OnlyInvalid (f a)) : OnlyInvalid (x >>= f) := by
  intro k h
  rcases bind_error.1 h with h | ⟨a, _, h⟩
  · exact hx k h
  · exact hf a k h

theorem onlyInvalid_inDomain {α : Type} (o : Option α) : OnlyInvalid (inDomain o) := by
  cases o
  · exact .refusal _
  · exact .ok _

theorem onlyInvalid_bcE (c : Params) (s : State) (op : Operand) : OnlyInvalid (bcE c s op) := by
  intro k h
  rcases bcE_cases c s op with ⟨_, _, _, _, _, h'⟩ | ⟨k', hk, h'⟩
  · rw [h'] at h; cases h
  · rw [h'] at h; cases h; exact hk

theorem onlyInvalid_bcD (c : Params) (s : State) (op : Operand) : OnlyInvalid (bcD c s op) := by
  intro k h
  rcases bcD_cases c s op with ⟨_, _, _, _, _, h'⟩ | ⟨k', hk, h'⟩
  · rw [h'] at h; cases h
  · rw [h'] at h; cases h; exact hk

theorem onlyInvalid_blockLoop {step : BlockStep} (hs : ∀ x fb, OnlyInvalid (step x fb)) :
    ∀ xs fb, OnlyInvalid (blockLoop step xs fb)
  | [], _ => .ok _
  | _ :: xs, _ => .bind (hs _ _) fun _ => .bind (onlyInvalid_blockLoop hs xs _) fun _ => .ok _

theorem onlyInvalid_blockMode {c : Params} {step : BlockStep} (hs : ∀ x fb, OnlyInvalid (step x fb)) (data : Bytes)
    (s : State) : OnlyInvalid (blockMode c step data s) :=
  .bind (onlyInvalid_inDomain _) fun _ => .bind (onlyInvalid_blockLoop hs _ _) fun _ => .ok _

theorem onlyInvalid_keystreamLoop {size : Nat} {ks : Nat → Except Stop Bytes} (hk : ∀ i, OnlyInvalid (ks i)) :
    ∀ data off, OnlyInvalid (keystreamLoop size ks data off)
  | [], _ => .ok _
  | _ :: ds, _ =>
    .bind (hk _) fun _ => .bind (onlyInvalid_inDomain _) fun _ =>
      .bind (onlyInvalid_keystreamLoop hk ds _) fun _ => .ok _

theorem onlyInvalid_ofbLoop (c : Params) (s : State) : ∀ data fb off, OnlyInvalid (ofbLoop c s data fb off)
  | [], _, _ => .ok _
  | _ :: ds, fb, off => by
    refine .bind ?_ fun _ => .bind (onlyInvalid_inDomain _) fun _ => .bind (onlyInvalid_ofbLoop c s ds _ _) fun _ => .ok _
    unfold ofbNext
    split
    · exact onlyInvalid_bcE c s _
    · exact .ok _

theorem onlyInvalid_ofbXform (c : Params) (data : Bytes) (s : State) : OnlyInvalid (ofbXform c data s) :=
  .bind (onlyInvalid_ofbLoop c s _ _ _) fun _ => .ok _

theorem onlyInvalid_ctrXform (c : Params) (data : Bytes) (s : State) : OnlyInvalid (ctrXform c data s) := by
  unfold ctrXform
  split
  · exact .refusal _
  · exact .bind (onlyInvalid_keystreamLoop
      (fun i => .bind (onlyInvalid_inDomain _) fun _ => onlyInvalid_bcE c s _) _ _) fun _ => .ok _

theorem onlyInvalid_rdBody (c : Params) (s : State) (delta data : Bytes) : OnlyInvalid (rdBody c s delta data) := by
  refine onlyInvalid_keystreamLoop (fun i => ?_) _ _
  unfold rdKs
  split
  · exact .refusal _
  · exact .bind (onlyInvalid_inDomain _) fun _ => onlyInvalid_bcE c s _

theorem onlyInvalid_rdEnc (c : Params) (data : Bytes) (s : State) : OnlyInvalid (rdEnc c data s) := by
  refine .bind ?_ fun _ => ?_
  · unfold rdHeader
    split
    · exact onlyInvalid_bcE c s _
    · exact .ok _
  · split
    · exact .refusal _
    · exact .bind (onlyInvalid_rdBody c s _ _) fun _ => .ok _

theorem onlyInvalid_rdDec (c : Params) (data : Bytes) (s : State) : OnlyInvalid (rdDec c data s) := by
  refine .bind ?_ fun _ => .bind (onlyInvalid_rdBody c s _ _) fun _ => .ok _
  unfold rdOpen
  split
  · split
    · intro k h; cases h; exact .inr rfl
    · exact .bind (onlyInvalid_bcD c s _) fun _ => .ok _
  · exact .ok _

/-- A mode function of `ME_ENC` fails with InvalidState or InvalidArgument only. -/
theorem onlyInvalid_modeEnc (c : Params) (data : Bytes) (s : State) : OnlyInvalid (modeEnc c data s) := by
  unfold modeEnc
  cases s.meMode
  · exact onlyInvalid_blockMode (fun x fb => .bind (onlyInvalid_bcE c s _) fun _ => .ok _) _ _
  · exact onlyInvalid_blockMode (fun x fb => .bind (onlyInvalid_inDomain _) fun _ =>
      .bind (onlyInvalid_bcE c s _) fun _ => .ok _) _ _
  · exact onlyInvalid_blockMode (fun x fb => .bind (onlyInvalid_inDomain _) fun _ =>
      .bind (onlyInvalid_bcE c s _) fun _ => .bind (onlyInvalid_inDomain _) fun _ => .ok _) _ _
  · exact onlyInvalid_blockMode (fun x fb => .bind (onlyInvalid_bcE c s _) fun _ =>
      .bind (onlyInvalid_inDomain _) fun _ => .ok _) _ _
  · exact onlyInvalid_ofbXform c data s
  · exact onlyInvalid_ctrXform c data s
  · exact onlyInvalid_rdEnc c data s

/-- A mode function of `ME_DEC` fails with InvalidState or InvalidArgument only. -/
theorem onlyInvalid_modeDec (c : Params) (data : Bytes) (s : State) : OnlyInvalid (modeDec c data s) := by
  unfold modeDec
  cases s.meMode
  · exact onlyInvalid_blockMode (fun x fb => .bind (onlyInvalid_bcD c s _) fun _ => .ok _) _ _
  · exact onlyInvalid_blockMode (fun x fb => .bind (onlyInvalid_bcD c s _) fun _ =>
      .bind (onlyInvalid_inDomain _) fun _ => .ok _) _ _
  · exact onlyInvalid_blockMode (fun x fb => .bind (onlyInvalid_bcD c s _) fun _ =>
      .bind (onlyInvalid_inDomain _) fun _ => .bind (onlyInvalid_inDomain _) fun _ => .ok _) _ _
  · exact onlyInvalid_blockMode (fun x fb => .bind (onlyInvalid_bcE c s _) fun _ =>
      .bind (onlyInvalid_inDomain _) fun _ => .ok _) _ _
  · exact onlyInvalid_ofbXform c data s
  · exact onlyInvalid_ctrXform c data s
  · exact onlyInvalid_rdDec c data s

/-- So does a transform command. -/
theorem onlyInvalid_transform {c : Params} {d : Dir} {run : Bytes → State → Except Stop (Bytes × State)}
    (hr : ∀ data s, OnlyInvalid (run data s)) (op : Operand) (s : State) : OnlyInvalid (transform c d run op s) := by
  refine .bind (fun k h => ?_) fun _ => .bind (fun k h => ?_) fun _ => .bind (hr _ _) fun _ =>
    .bind (fun k h => ?_) fun _ => .ok _
  · rcases meCheck_error h with h | h <;> cases h
    · exact .inl rfl
    · exact .inr rfl
  · cases (directionCheck_error h).1
  · cases (offsetCheck_error h).1

-- ---------------------------------------------------------------- refusals on a ready core

/-- What a keystream loop stops with, its blocks all being blocks. -/
theorem keystreamLoop_error {size : Nat} (hs : 0 < size) {ks : Nat → Except Stop Bytes}
    (hl : ∀ i b, ks i = .ok b → b.length = size) : ∀ {data : Bytes} {off : Nat} {e : Stop},
    keystreamLoop size ks data off = .error e → ∃ i, i * size < off + data.length ∧ ks i = .error e
  | [], _, _, h => by cases h
  | d :: ds, off, e, h => by
    simp only [keystreamLoop] at h
    rcases bind_error.1 h with h | ⟨b, hb, h⟩
    · refine ⟨off / size, ?_, h⟩
      have := Nat.div_mul_le_self off size
      simp only [List.length_cons]
      omega
    · have hq : off % size < b.length := by rw [hl _ _ hb]; exact Nat.mod_lt _ hs
      rw [byteAt_ok hq, ok_bind] at h
      rcases bind_error.1 h with h | ⟨_, _, h⟩
      · obtain ⟨i, h1, h2⟩ := keystreamLoop_error hs hl h
        exact ⟨i, by simp only [List.length_cons]; omega, h2⟩
      · cases h

/-- What the RD body stops with on a ready core: the index limit, and only past it. -/
theorem rdBody_error {c : Params} {s : State} (hf : s.FnReady c) {delta data : Bytes} {e : Stop}
    (hi : s.meIv.length = c.blockSize) (hd : delta.length = c.blockSize) (h : rdBody c s delta data = .error e) :
    e = .refusal .rdIndexTooLarge ∧ 2 ^ 32 * c.blockSize < s.meOff + data.length := by
  have hl : ∀ i b, rdKs c s delta i = .ok b → b.length = c.blockSize := by
    intro i b h
    unfold rdKs at h
    split at h
    · cases h
    · obtain ⟨_, _, h⟩ := bind_ok.1 h
      exact bcE_length h
  obtain ⟨i, h1, h2⟩ := keystreamLoop_error c.blockSize_pos hl h
  by_cases hi32 : i < 2 ^ 32
  · obtain ⟨b, _, _, h3⟩ := rdKs_ok hf hi hd hi32
    rw [h3] at h2; cases h2
  · unfold rdKs at h2
    rw [if_pos (by omega)] at h2
    cases h2
    refine ⟨rfl, ?_⟩
    have := Nat.mul_le_mul_right c.blockSize (Nat.le_of_not_lt hi32)
    omega

/-- What the mode function of `ME_ENC` stops with on a ready core, the block registers holding blocks. -/
theorem modeEnc_error {c : Params} {s : State} {data : Bytes} {e : Stop} (hf : s.FnReady c) (hs : s.Shaped c)
    (ha : s.meMode.requiresPadding = true → data.length % c.blockSize = 0) (h8 : s.meMode = .ctr → 8 ≤ c.blockSize)
    (h : modeEnc c data s = .error e) :
    (e = .refusal .rdIndexTooLarge ∧ s.meMode = .rd ∧ 2 ^ 32 * c.blockSize < s.meOff + data.length) ∨
    (e = .refusal .resultTooLong ∧ s.meMode = .rd ∧ s.meFirst = true ∧ maxLen < data.length + c.blockSize) := by
  unfold modeEnc at h
  cases hm : s.meMode <;> rw [hm] at h ha <;> simp only at h
  case ecb => rw [blockMode_answers (ecbEncStep_answers hf) (ha rfl) hs.fb] at h; cases h
  case cbc => rw [blockMode_answers (cbcEncStep_answers hf) (ha rfl) hs.fb] at h; cases h
  case pcbc => rw [blockMode_answers (pcbcEncStep_answers hf) (ha rfl) hs.fb] at h; cases h
  case cfb => rw [blockMode_answers (cfbEncStep_answers hf) (ha rfl) hs.fb] at h; cases h
  case ofb =>
    obtain ⟨out, fb, h1⟩ := ofbLoop_ok hf (data := data) (off := s.meOff) hs.fb
    rw [ofbXform, h1] at h; cases h
  case ctr =>
    obtain ⟨out, _, h1⟩ := ctrXform_ok hf hs.iv (h8 hm) data
    rw [h1] at h; cases h
  case rd =>
    unfold rdEnc at h
    rcases bind_error.1 h with h | ⟨hdr, _, h⟩
    · unfold rdHeader at h
      split at h
      · rw [bcE_ok hf.1 hf.2 hs.delta] at h; cases h
      · cases h
    · split at h
      · rename_i hc
        cases h
        exact .inr ⟨rfl, rfl, hc⟩
      · rcases bind_error.1 h with h | ⟨_, _, h⟩
        · obtain ⟨h1, h2⟩ := rdBody_error hf hs.iv hs.delta h
          exact .inl ⟨h1, rfl, h2⟩
        · cases h

/-- What the mode function of `ME_DEC` stops with on a ready core, the block registers holding blocks. -/
theorem modeDec_error {c : Params} {s : State} {data : Bytes} {e : Stop} (hf : s.FnReady c) (hs : s.Shaped c)
    (ha : s.meMode.requiresPadding = true → data.length % c.blockSize = 0) (h8 : s.meMode = .ctr → 8 ≤ c.blockSize)
    (h : modeDec c data s = .error e) :
    (e = .refusal .rdIndexTooLarge ∧ s.meMode = .rd ∧ 2 ^ 32 * c.blockSize < s.meOff + s.bodyLen c .dec data) ∨
    (e = .failure .invalidArgument ∧ s.meMode = .rd ∧ s.meFirst = true ∧ data.length < c.blockSize) := by
  unfold modeDec at h
  cases hm : s.meMode <;> rw [hm] at h ha <;> simp only at h
  case ecb => rw [blockMode_answers (ecbDecStep_answers hf) (ha rfl) hs.fb] at h; cases h
  case cbc => rw [blockMode_answers (cbcDecStep_answers hf) (ha rfl) hs.fb] at h; cases h
  case pcbc => rw [blockMode_answers (pcbcDecStep_answers hf) (ha rfl) hs.fb] at h; cases h
  case cfb => rw [blockMode_answers (cfbDecStep_answers hf) (ha rfl) hs.fb] at h; cases h
  case ofb =>
    obtain ⟨out, fb, h1⟩ := ofbLoop_ok hf (data := data) (off := s.meOff) hs.fb
    rw [ofbXform, h1] at h; cases h
  case ctr =>
    obtain ⟨out, _, h1⟩ := ctrXform_ok hf hs.iv (h8 hm) data
    rw [h1] at h; cases h
  case rd =>
    unfold rdDec rdOpen at h
    cases hfi : s.meFirst
    · rw [hfi] at h
      simp only [Bool.false_eq_true, if_false, ok_bind] at h
      rcases bind_error.1 h with h | ⟨_, _, h⟩
      · obtain ⟨h1, h2⟩ := rdBody_error hf hs.iv hs.delta h
        exact .inl ⟨h1, rfl, by simpa [State.bodyLen, hfi] using h2⟩
      · cases h
    · rw [hfi] at h
      simp only [if_true] at h
      split at h
      · rename_i hlen
        cases h
        exact .inr ⟨rfl, rfl, rfl, hlen⟩
      · rename_i hlen
        have ht : (data.take c.blockSize).length = c.blockSize := by
          rw [List.length_take]; omega
        rw [bcD_ok hf.1 hf.2 ht] at h
        simp only [ok_bind, pure_bind] at h
        rcases bind_error.1 h with h | ⟨_, _, h⟩
        · obtain ⟨h1, h2⟩ := rdBody_error hf hs.iv (cipherDec_length _ ht) h
          exact .inl ⟨h1, rfl, by simpa [State.bodyLen, hm, hfi] using h2⟩
        · cases h

end Sys2Proof.Machine
end

