-- ==== Sys2Proof/Tests/Slice0.lean ====
section
/-! SUPPORT. Tests: the checks of `Instr.wf`, decoding of frames written out by hand, one-step tests, and for every
statement with hypotheses a witness that meets them. Every expected value is from spec/95_test_vectors.md (the vector's name
is in the comment) or a worked example of the rule named. The toy plug-ins are those of spec/95_test_vectors.md section 2. -/

namespace Sys2Proof.Tests

open Sys2Proof Sys2Proof.Machine

-- ---------------------------------------------------------------- toy plug-ins and small states

/-- The toy plug-ins of spec/95_test_vectors.md section 2, TOYDELTA with them. -/
def toy (half rounds : Nat) (swap : Bool) : Params where
  halfPred := half - 1
  rounds := rounds
  keySchedule := fun key => (List.range rounds).map fun i => [key.getD (i % key.length) 0]
  roundByte := fun x k j => x.getD ((j + 1) % half) 0 + k.getD 0 0
  lenOk := fun _ => true
  adaptSwap := swap
  seedDeltaByte := fun seed size j => BitVec.ofNat 8 ((seed % (256 ^ size : Nat)).toNat / 256 ^ (size - 1 - j))
  ivHalfPos := fun j => j
  ivDeltaByte := fun hb j => if j < half then 0 else hb.getD (j - half) 0
  offWidth := 64
  wideCapsByte := fun _ => 0
  freeL := fun _ _ => 0
  freeR := fun _ _ => 0
  freeRound := fun _ => 0
  freeMode := fun _ => .ecb
  freeIv := fun _ _ => 0
  freeFb := fun _ _ => 0
  freeDelta := fun _ _ => 0
  freeFirst := fun _ => false

/-- TOY8. -/
def toy8 : Params := toy 4 4 false

/-- `n` bytes of a hexadecimal number. -/
def hx (n v : Nat) : Bytes := beBytes n v

/-- The vectors' `KEY`, `IV`, `P`. -/
def key8 : Bytes := [0x01, 0x23, 0x45, 0x67, 0x89, 0xAB, 0xCD, 0xEF]
def iv8 : Bytes := [0xA0, 0xA1, 0xA2, 0xA3, 0xA4, 0xA5, 0xA6, 0xA7]
def p0 : Bytes := [0x00, 0x11, 0x22, 0x33, 0x44, 0x55, 0x66, 0x77]
def p1 : Bytes := [0x88, 0x99, 0xAA, 0xBB, 0xCC, 0xDD, 0xEE, 0xFF]
def plain : Bytes := p0 ++ p1

/-- An 8-byte instance as reset leaves it. -/
def blank : State where
  fnInit := false
  fnRk := []
  fnL := zeros 4
  fnR := zeros 4
  fnI := 0
  meInit := false
  meMode := .ecb
  meIv := zeros 8
  meFb := zeros 8
  meOff := 0
  meDelta := zeros 8
  meFirst := false
  meDir := .none
  cmdStream := []
  responses := []
  draws := 0

/-- TOY8 after `FN_INIT KEY`. -/
def keyed : State := { blank with fnInit := true, fnRk := [[0x01], [0x23], [0x45], [0x67]] }

/-- A fresh session of mode `m` under the vectors' key and IV, with the delta of the RD vectors. -/
def session (m : Mode) : State :=
  { keyed with meInit := true, meMode := m, meIv := iv8, meFb := iv8, meDelta := [0, 0, 0, 1, 0, 0, 0, 3], meFirst := true }

/-- The same session in direction `d` and past its first transform. -/
def later (m : Mode) (d : Dir) : State := { session m with meFirst := false, meDir := d }

/-- The last response of an outcome that is a next state. -/
def answer : Result → Option Response
  | .next t => t.responses.getLast?
  | .fault _ => none
  | .refused _ => none

/-- The refusal of an outcome. -/
def refusal : Result → Option Refusal
  | .next _ => none
  | .fault _ => none
  | .refused r => some r

/-- A register of an outcome that is a next state. -/
def reg {α : Type} (f : State → α) : Result → Option α
  | .next t => some (f t)
  | .fault _ => none
  | .refused _ => none

/-- The state of an outcome, `blank` where it is none. -/
def stateOf : Result → State
  | .next t => t
  | .fault _ => blank
  | .refused _ => blank

/-- The outcome is a next state. -/
def isNext : Result → Bool
  | .next _ => true
  | .fault _ => false
  | .refused _ => false

theorem eq_next_of_isNext {r : Result} (h : isNext r = true) : r = .next (stateOf r) := by
  cases r <;> first | rfl | cases h

-- ---------------------------------------------------------------- well-formedness

/-- One byte more than `LEN` can count. -/
def tooLong : Bytes := List.replicate (maxLen + 1) 0

theorem test_operand_too_long : Operand.wf (some tooLong) = false := by
  rw [Operand.wf, tooLong, List.length_replicate]
  exact decide_eq_false (Nat.not_succ_le_self maxLen)

theorem test_wf_refuses_long_key : (Instr.fnInit (some tooLong)).wf = false := test_operand_too_long
theorem test_wf_refuses_long_block : (Instr.fnEnc (some tooLong)).wf = false := test_operand_too_long
theorem test_wf_refuses_long_block_dec : (Instr.fnDec (some tooLong)).wf = false := test_operand_too_long
theorem test_wf_refuses_long_iv : (Instr.meInit 1 (some tooLong) none).wf = false := test_operand_too_long
theorem test_wf_refuses_long_data : (Instr.meEnc (some tooLong)).wf = false := test_operand_too_long
theorem test_wf_refuses_long_data_dec : (Instr.meDec (some tooLong)).wf = false := test_operand_too_long
theorem test_wf_accepts : (Instr.fnInit (some key8)).wf = true ∧ (Instr.fnInit none).wf = true ∧
    Instr.sysReset.wf = true ∧ (Instr.meCaps 255).wf = true := by decide

-- ---------------------------------------------------------------- decoding, on frames written out from rules R101 to R108

/-- P1, P5: the unit SYS and FN commands. -/
theorem test_decode_sys_reset :
    decode [0x01, 0, 0, 0, 0, 0, 0, 0, 0, 0, 0, 0, 0, 0, 0, 0] = .command .sysReset [] := by decide
theorem test_decode_fn_init :
    decode ([0x10, 0, 0, 0, 0, 0, 0, 2, 0, 0, 0, 0, 0, 0, 0, 0, 0xAB, 0xCD] ++ [0x99]) =
      .command (.fnInit (some [0xAB, 0xCD])) [0x99] := by decide
theorem test_decode_fn_enc_null :
    decode [0x11, 0x01, 0, 0, 0, 0, 0, 0, 0, 0, 0, 0, 0, 0, 0, 0] = .command (.fnEnc none) [] := by decide
theorem test_decode_fn_dec_empty :
    decode [0x12, 0, 0, 0, 0, 0, 0, 0, 0, 0, 0, 0, 0, 0, 0, 0] = .command (.fnDec (some [])) [] := by decide
/-- `SEED` is not looked at where `SV = 0` (rule R105). -/
theorem test_decode_fn_caps :
    decode [0x13, 0, 0, 0, 0, 0, 0, 0, 0xFF, 1, 2, 3, 4, 5, 6, 7] = .command .fnCaps [] := by decide
/-- Rule R116, row `ME_INIT RD iv=.. seed=2002`. -/
theorem test_decode_me_init :
    decode ([0x20, 0x02, 0x06, 0, 0, 0, 0, 8, 0, 0, 0, 0, 0, 0, 0x07, 0xD2] ++ iv8) =
      .command (.meInit 6 (some iv8) (some 2002)) [] := by decide
theorem test_decode_me_enc :
    decode [0x21, 0, 0, 0, 0, 0, 0, 1, 0, 0, 0, 0, 0, 0, 0, 0, 0x55] = .command (.meEnc (some [0x55])) [] := by decide
theorem test_decode_me_dec :
    decode [0x22, 0x01, 0, 0, 0, 0, 0, 0, 0, 0, 0, 0, 0, 0, 0, 0] = .command (.meDec none) [] := by decide
theorem test_decode_me_caps :
    decode [0x23, 0, 0x05, 0, 0, 0, 0, 0, 0, 0, 0, 0, 0, 0, 0, 0] = .command (.meCaps 5) [] := by decide
/-- V-ERR-17 to V-ERR-24: malformed frames, by name. -/
theorem test_decode_rejects :
    decode [0x02, 0, 0, 0, 0, 0, 0, 0, 0, 0, 0, 0, 0, 0, 0, 0] = .rejected .unknownOpcode [] ∧
    decode [0xFF, 0x01, 0xFF, 0xFF, 0, 0, 0, 0, 0, 0, 0, 0, 0, 0, 0, 0] = .rejected .unknownOpcode [] ∧
    decode [0x13, 0, 0, 0x01, 0, 0, 0, 0, 0, 0, 0, 0, 0, 0, 0, 0] = .rejected .reservedBitSet [] ∧
    decode [0x21, 0, 0x01, 0, 0, 0, 0, 1, 0, 0, 0, 0, 0, 0, 0, 0, 0] = .rejected .reservedBitSet [] ∧
    decode ([0x20, 0x04, 0x06, 0, 0, 0, 0, 8, 0, 0, 0, 0, 0, 0, 0, 0] ++ iv8) = .rejected .reservedBitSet [] ∧
    decode ([0x11, 0x01, 0, 0, 0, 0, 0, 8, 0, 0, 0, 0, 0, 0, 0, 0] ++ p0) = .rejected .nullWithPayload [] ∧
    decode [0x13, 0, 0, 0, 0, 0, 0, 2, 0, 0, 0, 0, 0, 0, 0, 0, 0xAA, 0xBB] = .rejected .unexpectedPayload [] ∧
    decode ([0x10, 0x02, 0, 0, 0, 0, 0, 8, 0, 0, 0, 0, 0, 0, 0x03, 0xE9] ++ key8) = .rejected .reservedBitSet [] := by
  decide

-- ---------------------------------------------------------------- byte arithmetic

/-- V-BA-1, V-BA-8, V-BA-9, V-BA-10, V-BA-13, V-BA-15, V-BA-16, V-BA-20. -/
theorem test_byte_arith :
    Machine.xor (hx 4 0x00FF55AA) (hx 4 0x0F0F0F0F) = some (hx 4 0x0FF05AA5) ∧
    addMod (hx 4 0x00FFFFFF) (hx 4 1) = some (hx 4 0x01000000) ∧
    addMod (hx 4 0xFFFFFFFF) (hx 4 1) = some (hx 4 0) ∧
    addMod (hx 4 0xFFFFFFFF) (hx 4 0xFFFFFFFF) = some (hx 4 0xFFFFFFFE) ∧
    mulMod32 (hx 4 0x12345678) 0xFFFFFFFF = some (hx 4 0xEDCBA988) ∧
    mulMod32 (hx 8 0xFFFFFFFFFFFFFFFF) 0xFFFFFFFF = some (hx 8 0xFFFFFFFF00000001) ∧
    mulMod32 (hx 4 0xDEADBEEF) 256 = some (hx 4 0xADBEEF00) ∧
    ctrAdd (hx 16 0x0001020304050607FFFFFFFFFFFFFFFF) 1 = some (hx 16 0x00010203040506070000000000000000) ∧
    hx 3 0x0A0B0C = [0x0A, 0x0B, 0x0C] := by decide

-- ---------------------------------------------------------------- one step of each command

/-- V-RST of rule R391: the registers of rule R45 after `SYS_RESET`, in the middle of a session. -/
theorem test_sys_reset : answer (execOn toy8 .sysReset (later .cbc .dec)) = some (.ok []) ∧
    reg (fun t => (t.fnInit, t.fnRk, t.meInit, t.meOff, t.meDir)) (execOn toy8 .sysReset (later .cbc .dec)) =
      some (false, [], false, 0, Dir.none) := by decide

/-- V-FN-1's round keys, and V-FN-5's with a one-byte key. -/
theorem test_fn_init : reg (·.fnRk) (execOn toy8 (.fnInit (some key8)) blank) = some [[0x01], [0x23], [0x45], [0x67]] ∧
    reg (·.fnRk) (execOn toy8 (.fnInit (some [5])) blank) = some [[5], [5], [5], [5]] := by decide

/-- V-ERR-3, V-ERR-4: an earlier key stays in force. -/
theorem test_fn_init_fails : reg id (execOn toy8 (.fnInit none) keyed) = some (keyed.respond (.failure .invalidArgument)) ∧
    reg id (execOn toy8 (.fnInit (some [])) keyed) = some (keyed.respond (.failure .invalidArgument)) := by decide

/-- V-FN-1, V-FN-2, V-FN-8 (`R = 1`), V-FN-9 (`ADAPT_SWAP = 1`). -/
theorem test_fn_enc : answer (execOn toy8 (.fnEnc (some p0)) keyed) = some (.ok (hx 8 0x3B320954445844AC)) ∧
    answer (execOn toy8 (.fnEnc (some (zeros 8))) keyed) = some (.ok (hx 8 0x68686868EBEBEBEB)) ∧
    answer (execOn (toy 4 1 false) (.fnEnc (some p0)) { keyed with fnRk := [[1]] }) =
      some (.ok (hx 8 0x4455667756765A76)) ∧
    answer (execOn (toy 4 4 true) (.fnEnc (some p0)) keyed) = some (.ok (hx 8 0x667A22E24F462954)) := by decide

/-- V-FN-1, V-FN-4, V-FN-8; V-ERR-2. -/
theorem test_fn_dec : answer (execOn toy8 (.fnDec (some (hx 8 0x3B320954445844AC))) keyed) = some (.ok p0) ∧
    answer (execOn toy8 (.fnDec (some p0)) keyed) = some (.ok (hx 8 0x667A22E24F462954)) ∧
    answer (execOn (toy 4 1 false) (.fnDec (some p0)) { keyed with fnRk := [[1]] }) =
      some (.ok (hx 8 0x5676527600112233)) ∧
    answer (execOn toy8 (.fnDec none) blank) = some (.failure .invalidState) := by decide

/-- V-FN-11. -/
theorem test_fn_caps : answer (execOn toy8 .fnCaps blank) = some (.ok [0, 0, 0, 8]) ∧
    answer (execOn (toy 8 2 false) .fnCaps blank) = some (.ok [0, 0, 0, 16]) := by decide

/-- P4 commands 1 and 4: the delta of a seed, and of no seed; V-RD-10's delta, of seed -1 (rule R116). -/
theorem test_me_init :
    reg (fun t => (t.meDelta, t.meFirst, t.meFb)) (execOn toy8 (.meInit 6 (some iv8) (some 4294967299)) blank) =
      some ([0, 0, 0, 1, 0, 0, 0, 3], true, iv8) ∧
    reg (·.meDelta) (execOn toy8 (.meInit 6 (some iv8) none) blank) =
      some [0, 0, 0, 0, 0xA0, 0xA1, 0xA2, 0xA3] ∧
    reg (·.meDelta) (execOn toy8 (.meInit 6 (some iv8) (some (-1))) blank) = some (List.replicate 8 0xFF) := by decide

/-- V-ERR-7 to V-ERR-10; 93 U4 on an instance with `B = 4`. -/
theorem test_me_init_checks :
    answer (execOn toy8 (.meInit 7 none none) blank) = some (.failure .unsupported) ∧
    answer (execOn toy8 (.meInit 4 none none) blank) = some (.failure .invalidArgument) ∧
    answer (execOn toy8 (.meInit 4 (some (hx 4 0xA0A1A2A3)) none) blank) = some (.failure .invalidArgument) ∧
    answer (execOn toy8 (.meInit 0 none none) blank) = some (.ok []) ∧
    refusal (execOn (toy 2 1 false) (.meInit 5 (some (zeros 4)) none) blank) = some .ctrBlockTooSmall := by decide

/-- V-ECB-1, V-CBC-1, V-PCBC-1, V-CFB-1, V-OFB-1, V-CTR-1, V-RD-1. -/
theorem test_me_enc : [Mode.ecb, .cbc, .pcbc, .cfb, .ofb, .ctr, .rd].map
      (fun m => answer (execOn toy8 (.meEnc (some plain)) (session m))) =
    [some (.ok (hx 16 0x3B320954445844AC03CA61EC64D824EC)), some (.ok (hx 16 0x98E8B8C83B9B7B5BB66794C933670BC3)),
     some (.ok (hx 16 0x98E8B8C83B9B7B5B5DBDDDBD2050C030)), some (.ok (hx 16 0xCBC3FBE7F09DD2CBD1B965A5882C808C)),
     some (.ok (hx 16 0xCBC3FBE7F09DD2CB1E8B10598BB3979B)), some (.ok (hx 16 0xCBC3FBE7F09DD2CB5E4B676F78625A43)),
     some (.ok (hx 24 0x6D696869F4E8F3F3CBC3FBE7F09DD2CB40586B68697C5653))] := by decide

/-- The registers after V-CBC-1, V-PCBC-1, V-CFB-1, V-OFB-3 (11 bytes), V-RD-1; V-BLK-1; 93 U1. -/
theorem test_me_enc_state :
    reg (fun t => (t.meFb, t.meOff, t.meDir)) (execOn toy8 (.meEnc (some plain)) (session .cbc)) =
      some (hx 8 0xB66794C933670BC3, 16, Dir.enc) ∧
    reg (·.meFb) (execOn toy8 (.meEnc (some plain)) (session .pcbc)) = some (hx 8 0xD5247706EC8D2ECF) ∧
    reg (·.meFb) (execOn toy8 (.meEnc (some plain)) (session .cfb)) = some (hx 8 0xD1B965A5882C808C) ∧
    reg (fun t => (t.meFb, t.meOff)) (execOn toy8 (.meEnc (some (plain.take 11))) (session .ofb)) =
      some (hx 8 0x9612BAE2476E7964, 11) ∧
    reg (fun t => (t.meFirst, t.meOff)) (execOn toy8 (.meEnc (some plain)) (session .rd)) = some (false, 16) ∧
    answer (execOn toy8 (.meEnc (some [0, 0x11, 0x22])) (session .cfb)) = some (.failure .invalidArgument) ∧
    refusal (execOn toy8 (.meEnc (some p0)) (later .cbc .dec)) = some .directionMixed := by decide

/-- V-ECB-2, V-CBC-2, V-PCBC-2, V-CFB-2, V-OFB-4, CTR and V-RD-6. -/
theorem test_me_dec : [(Mode.ecb, hx 16 0x3B320954445844AC03CA61EC64D824EC),
      (.cbc, hx 16 0x98E8B8C83B9B7B5BB66794C933670BC3), (.pcbc, hx 16 0x98E8B8C83B9B7B5B5DBDDDBD2050C030),
      (.cfb, hx 16 0xCBC3FBE7F09DD2CBD1B965A5882C808C), (.ofb, hx 16 0xCBC3FBE7F09DD2CB1E8B10598BB3979B),
      (.ctr, hx 16 0xCBC3FBE7F09DD2CB5E4B676F78625A43),
      (.rd, hx 24 0x6D696869F4E8F3F3CBC3FBE7F09DD2CB40586B68697C5653)].map
      (fun p => answer (execOn toy8 (.meDec (some p.2)) (session p.1))) = List.replicate 7 (some (.ok plain)) := by decide

/-- V-RD-6's delta from another one, V-RD-5, V-RD-9; V-ERR-26. -/
theorem test_me_dec_rd :
    reg (fun t => (t.meDelta, t.meFirst, t.meOff)) (execOn toy8
      (.meDec (some (hx 24 0x6D696869F4E8F3F3CBC3FBE7F09DD2CB40586B68697C5653)))
      { session .rd with meDelta := zeros 8 }) = some ([0, 0, 0, 1, 0, 0, 0, 3], false, 16) ∧
    reg id (execOn toy8 (.meDec (some (hx 7 0x6D696869F4E8F3))) (session .rd)) =
      some ((session .rd).respond (.failure .invalidArgument)) ∧
    reg id (execOn toy8 (.meDec (some [])) (session .rd)) = some ((session .rd).respond (.failure .invalidArgument)) ∧
    answer (execOn toy8 (.meDec (some (hx 8 0x3B320954445844AC))) (later .ecb .enc)) = some (.ok p0) := by decide

/-- V-ERR-15, V-ERR-16. -/
theorem test_me_caps : [0, 1, 2, 3, 4, 5, 6, 9].map (fun sel => answer (execOn toy8 (.meCaps sel) blank)) =
    [some (.ok [1]), some (.ok [3]), some (.ok [3]), some (.ok [3]), some (.ok [2]), some (.ok [2]), some (.ok [2]),
     some (.failure .unsupported)] := by decide

/-- V-ERR-22 with P1's command 0 after it: the malformed frame is consumed, payload and all, and the next command stands at
the front. -/
theorem test_malformed_frame_is_consumed :
    reg (fun t => (t.responses, t.cmdStream)) (runNext (execOn toy8)
      { blank with cmdStream := [0x11, 0x01, 0, 0, 0, 0, 0, 8, 0, 0, 0, 0, 0, 0, 0, 0] ++ p0 ++ hx 16 (0x13 * 256 ^ 15) }) =
    some ([.failure .invalidArgument], hx 16 (0x13 * 256 ^ 15)) := by decide

-- ---------------------------------------------------------------- host side

/-- V-PAD-1 to V-PAD-4 on one byte and on a full block; V-PAD-5's lossy tail; V-PAD-6. -/
theorem test_padding :
    applyPad (fun _ => 0xAA) 8 .zeros [0x11] = .ok (hx 8 0x1100000000000000) ∧
    applyPad (fun _ => 0xAA) 8 .pkcs7 [0x11] = .ok (hx 8 0x1107070707070707) ∧
    applyPad (fun _ => 0xAA) 8 .ansiX923 [0x11] = .ok (hx 8 0x1100000000000007) ∧
    applyPad (fun _ => 0xAA) 8 .iso10126 [0x11] = .ok (hx 8 0x11AAAAAAAAAAAA07) ∧
    applyPad (fun _ => 0xAA) 8 .pkcs7 (hx 8 0x1122334455667788) = .ok (hx 16 0x11223344556677880808080808080808) ∧
    removePad .zeros (hx 8 0x1100000000000000) = .ok [0x11] ∧
    removePad .pkcs7 (hx 8 0x1122334455060707) = .error (.failure .dataIntegrity) ∧
    removePad .ansiX923 (hx 8 0x1122334455060707) = .error (.failure .dataIntegrity) ∧
    removePad .iso10126 (hx 8 0x1122334455060707) = .ok [0x11] ∧
    removePad .pkcs7 (hx 16 0x112233440C0C0C0C0C0C0C0C0C0C0C0C) = .ok (hx 4 0x11223344) := by decide

/-- The example line of rule R114, and V-CTX-1's buffer. -/
theorem test_assembler :
    assemble "ME_INIT RD iv=A0A1A2A3A4A5A6A7 seed=1001".toList = some (.command (.meInit 6 (some iv8) (some 1001))) ∧
    encode (.meInit 6 (some iv8) (some 1001)) =
      [0x20, 0x02, 0x06, 0, 0, 0, 0, 8, 0, 0, 0, 0, 0, 0, 0x03, 0xE9, 0xA0, 0xA1, 0xA2, 0xA3, 0xA4, 0xA5, 0xA6, 0xA7] ∧
    assemble "FN_INIT key=null".toList = some (.command (.fnInit none)) ∧
    ctxEncrypt toy8 (fun _ => 0) .ecb .pkcs7 (some []) = .ok (.meEnc (some (hx 8 0x0808080808080808))) := by decide

/-- A TOY8 context of mode `sel` and padding identifier `padId` under the vectors' key and IV. -/
def context (sel : Byte) (padId : Nat) : Except HostStop CipherContext :=
  (ctxConstruct (execOn toy8) (some key8) sel (some iv8) none padId blank).1

/-- V-CTX-1, V-CTX-3, V-CTX-5: construction, then one `Ctx.Encrypt`. -/
theorem test_ctx_encrypt :
    ((context 0 1).bind fun x => (x.encrypt toy8 (fun _ => 0) (execOn toy8) (some [])).1) =
      .ok (hx 8 0x70707070FBFBFBFB) ∧
    ((context 1 1).bind fun x => (x.encrypt toy8 (fun _ => 0) (execOn toy8) (some (hx 10 0x00112233445566778899))).1) =
      .ok (hx 16 0x98E8B8C83B9B7B5B6DBCD1A42CA66538) ∧
    ((context 4 1).bind fun x => (x.encrypt toy8 (fun _ => 0) (execOn toy8) (some (hx 3 0x001122))).1) =
      .ok (hx 3 0xCBC3FB) := by decide

/-- V-CTX-2; and an unknown mode or padding identifier fails the construction (rule R328). -/
theorem test_ctx_decrypt :
    ((context 0 1).bind fun x => (x.decrypt (execOn toy8) (some (hx 8 0x70707070FBFBFBFB))).1) = .ok [] ∧
    ((context 0 1).bind fun x => (x.decrypt (execOn toy8) none).1) = .error (.failure .invalidArgument) ∧
    context 7 1 = .error (.failure .unsupported) ∧ context 0 4 = .error (.failure .unsupported) := by decide

/-- What a chunked call on a context leaves written, and why it ended early. -/
def written (ctx : Except HostStop CipherContext) (call : CipherContext → ChunkRun) :
    Except HostStop (Bytes × Option HostStop) :=
  ctx.map fun x => ((call x).written, (call x).stop)

/-- Rules R335 to R337 with a buffer of 11 bytes, chunk size 8: V-CTX-3 in two chunks, and back. -/
theorem test_ctx_chunked :
    written (context 1 1) (fun x => x.encryptChunked toy8 (fun _ => 0) (execOn toy8) 11 (hx 10 0x00112233445566778899)) =
      .ok (hx 16 0x98E8B8C83B9B7B5B6DBCD1A42CA66538, none) ∧
    written (context 1 1) (fun x => x.decryptChunked toy8 (execOn toy8) 11 (hx 16 0x98E8B8C83B9B7B5B6DBCD1A42CA66538)) =
      .ok (hx 10 0x00112233445566778899, none) := by decide

/-- Rule R338: V-CTX-3's ciphertext with two bytes cut off; the second `ME_DEC` fails and the first chunk's output stays. So
with a session left in the other direction, refused at once. -/
theorem test_ctx_chunk_fails :
    written (context 1 1) (fun x => x.decryptChunked toy8 (execOn toy8) 11 (hx 14 0x98E8B8C83B9B7B5B6DBCD1A42CA6)) =
      .ok (hx 8 0x0011223344556677, some (.failure .invalidArgument)) ∧
    written (.ok { engine := later .cbc .dec, scheme := .pkcs7 })
        (fun x => x.encryptChunked toy8 (fun _ => 0) (execOn toy8) 11 (hx 10 0x00112233445566778899)) =
      .ok ([], some (.refused .directionMixed)) := by decide

-- ---------------------------------------------------------------- witnesses: hypotheses of the statements, met

/-- On the machine's own, uninterpreted instance: an initialised core. -/
def readyHere : State := { State.reset with fnInit := true, fnRk := List.replicate Config.params.rounds [] }

/-- On the same instance: a session of mode `m`. -/
def sessionHere (m : Mode) : State := { readyHere with meInit := true, meMode := m }

theorem fnReady_readyHere : readyHere.FnReady Config.params := ⟨rfl, List.length_replicate⟩

theorem witness_DecodeOfEncodeIsTheCommand :
    (Instr.meInit 6 (some iv8) (some (-1))).wf = true ∧ (Instr.fnDec none).wf = true ∧ (Instr.meEnc (some [])).wf = true := by
  decide

theorem witness_DecodedCommandComesFromItsFrame :
    decode ([0x22, 0, 0, 0, 0, 0, 0, 8, 0, 0, 0, 0, 0, 0, 0, 0] ++ p1 ++ [0x01]) = .command (.meDec (some p1)) [0x01] := by
  decide

/-- One malformed frame for each check, in their order, and the boundaries of the must-be-zero fields. -/
theorem witness_MalformedFramesFailInOrder :
    be [0, 0, 0, 8] = p0.length ∧ (zeros 8).length = 8 ∧
    ({ State.reset with cmdStream := [0x11, 0x01, 0, 0, 0, 0, 0, 8] ++ zeros 8 ++ p0 ++ [] }).cmdStream =
      [0x11, 0x01, 0, 0, 0, 0, 0, 8] ++ zeros 8 ++ p0 ++ [] ∧
    frameFailure 0x11 1 0 0 8 = some .invalidArgument ∧ frameFailure 0x24 1 1 1 8 = some .unsupported ∧
    frameFailure 0x01 1 0 0 0 = some .invalidArgument ∧ frameFailure 0x20 4 0 0 0 = some .invalidArgument ∧
    frameFailure 0x21 2 0 0 0 = some .invalidArgument ∧ frameFailure 0x23 0 0 1 0 = some .invalidArgument ∧
    frameFailure 0x13 0 0 0 1 = some .invalidArgument := by decide

theorem witness_WellMadeFramesDecode : be [0, 0, 0, 8] = p0.length ∧ (zeros 8).length = 8 ∧
    frameFailure 0x20 2 255 0 8 = none ∧ frameFailure 0x20 3 0 0 0 = none ∧ frameFailure 0x11 1 0 0 0 = none ∧
    frameFailure 0x21 0 0 0 8 = none ∧ frameFailure 0x23 0 255 0 0 = none ∧ frameFailure 0x01 0 0 0 0 = none := by decide

/-- Fifteen bytes; and a header whose last payload byte has not arrived. -/
theorem witness_EngineWaitsForAWholeFrame :
    ({ State.reset with cmdStream := zeros 15 }).cmdStream.length < 16 ∧
    (let w := [0x21, 0, 0, 0, 0, 0, 0, 8] ++ zeros 8 ++ p0.take 7
     ({ State.reset with cmdStream := w }).cmdStream.length <
      16 + be ((({ State.reset with cmdStream := w }).cmdStream.drop 4).take 4)) := by decide

theorem witness_StepRunsTheDecodedCommand : (Instr.fnInit (some key8)).wf = true ∧
    ({ State.reset with cmdStream := encode (.fnInit (some key8)) ++ [0x13] }).cmdStream =
      encode (.fnInit (some key8)) ++ [0x13] := by decide

theorem witness_ResponseFramesReadBack : ∀ pay, Response.ok p0 = .ok pay → pay.length ≤ maxLen := by
  intro pay h
  cases h
  decide

theorem witness_AddModAddsModuloThePower : p0.length = p1.length ∧ 1 ≤ p0.length := by decide

theorem witness_MulMod32MultipliesModuloThePower :
    1 ≤ [(0xFF : Byte)].length ∧ 2 ^ 32 - 1 < 2 ^ 32 ∧ ¬ 2 ^ 32 < 2 ^ 32 := by decide

/-- An IV of 8 bytes, one of 16, and one of 7. -/
theorem witness_CtrAddCountsInTheLastEightBytes : p1.length = 8 ∧ ([] ++ p1 : Bytes).length = 8 ∧ (p0 ++ p1).length = 16 ∧
    (p1.take 7).length < 8 := by decide

/-- Both ends of the multiplier's range: 0, and `2^32 - 1` where the last clause is empty. -/
theorem witness_ModularArithmeticLaws : 1 ≤ p0.length ∧ p1.length = p0.length ∧ iv8.length = p0.length ∧
    0 < 2 ^ 32 ∧ 2 ^ 32 - 1 < 2 ^ 32 ∧ 0 + 1 < 2 ^ 32 ∧ 2 ^ 32 - 2 + 1 < 2 ^ 32 := by decide

theorem witness_SplitCutsIntoBlocks : 0 < 8 ∧ plain.length % 8 = 0 ∧ ([] : Bytes).length % 8 = 0 := by decide

theorem witness_FeistelNetworksInvertEachOther : p0.length = toy8.blockSize := by decide

/-- A block, and a byte sequence that is none. -/
theorem witness_FeistelNetworksRoundByRound : p1.length = (toy 4 1 true).blockSize ∧
    (hx 3 0x001122).length ≠ (toy 4 1 true).blockSize := by decide

theorem fnReady_keyed : keyed.FnReady toy8 := ⟨rfl, rfl⟩

theorem witness_AdapterChoosesTheNetwork : keyed.FnReady toy8 ∧ keyed.FnReady (toy 4 4 true) ∧
    p0.length = toy8.blockSize ∧ p0.length = (toy 4 4 true).blockSize ∧
    (∃ y, bcE toy8 keyed (some p0) = .ok y) ∧ (∃ y, bcD toy8 keyed (some p0) = .ok y) :=
  ⟨⟨rfl, rfl⟩, ⟨rfl, rfl⟩, by decide, by decide, ⟨_, bcE_ok rfl rfl (by decide)⟩, ⟨_, bcD_ok rfl rfl (by decide)⟩⟩

theorem witness_FnInitCompletes : key8 ≠ [] ∧ toy8.keyLenOk key8.length = true ∧ (toy8.ks key8).length = toy8.rounds := by
  decide

theorem witness_FnEncAnswersTheCipher :
    readyHere.FnReady Config.params ∧ (zeros Config.params.blockSize).length = Config.params.blockSize :=
  ⟨fnReady_readyHere, zeros_length _⟩

theorem witness_FnDecAnswersTheCipher :
    readyHere.FnReady Config.params ∧ (zeros Config.params.blockSize).length = Config.params.blockSize :=
  ⟨fnReady_readyHere, zeros_length _⟩

theorem length_ne_succ (n : Nat) : (List.replicate (n + 1) ([] : Bytes)).length ≠ n := by simp

/-- Each of the four checks. -/
theorem witness_FnCheckFailsInOrder : State.reset.fnInit = false ∧
    (({ State.reset with fnInit := true, fnRk := List.replicate (Config.params.rounds + 1) [] }).fnInit = true ∧
      ({ State.reset with fnInit := true, fnRk := List.replicate (Config.params.rounds + 1) [] }).fnRk.length ≠
        Config.params.rounds) ∧
    readyHere.FnReady Config.params ∧ ([] : Bytes).length ≠ Config.params.blockSize :=
  ⟨rfl, ⟨rfl, length_ne_succ _⟩, fnReady_readyHere, (Config.params.blockSize_pos).ne⟩

theorem witness_BlockRoundTripThroughCommands : (zeros Config.params.blockSize).length = Config.params.blockSize ∧
    (∃ t out, exec (.fnEnc (some (zeros Config.params.blockSize))) readyHere = .next t ∧
      t.responses = readyHere.responses ++ [.ok out]) ∧
    (∃ t out, exec (.fnDec (some (zeros Config.params.blockSize))) readyHere = .next t ∧
      t.responses = readyHere.responses ++ [.ok out]) := by
  have hz := zeros_length Config.params.blockSize
  have hE := bcE_ok fnReady_readyHere.1 fnReady_readyHere.2 hz
  have hD := bcD_ok fnReady_readyHere.1 fnReady_readyHere.2 hz
  have h1 : exec (.fnEnc (some (zeros Config.params.blockSize))) readyHere =
      finish (cipherEnc Config.params readyHere.fnRk (zeros Config.params.blockSize))
        (readyHere.drawTransients Config.params) := by
    show fnEnc Config.params (some (zeros Config.params.blockSize)) readyHere = _
    rw [fnEnc, hE]
  have h2 : exec (.fnDec (some (zeros Config.params.blockSize))) readyHere =
      finish (cipherDec Config.params readyHere.fnRk (zeros Config.params.blockSize))
        (readyHere.drawTransients Config.params) := by
    show fnDec Config.params (some (zeros Config.params.blockSize)) readyHere = _
    rw [fnDec, hD]
  exact ⟨hz, ⟨_, _, h1, rfl⟩, ⟨_, _, h2, rfl⟩⟩

theorem witness_FnCapsAnswersTheBlockSize : toy8.blockSize < 2 ^ 32 := by decide

/-- Every mode but CTR; that CTR's premise can be met shows on a named instance. -/
theorem witness_MeInitCompletes : (zeros Config.params.blockSize).length = Config.params.blockSize ∧
    (Mode.rd = .ctr → 8 ≤ Config.params.blockSize) ∧ (Mode.ecb = .ctr → 8 ≤ Config.params.blockSize) ∧
    (Mode.ctr = .ctr → 8 ≤ toy8.blockSize) :=
  ⟨zeros_length _, fun h => absurd h (by decide), fun h => absurd h (by decide), fun _ => by decide⟩

/-- Each of the four checks. -/
theorem witness_MeCheckFailsInOrder : State.reset.meInit = false ∧
    (({ State.reset with meInit := true }).meInit = true ∧ ({ State.reset with meInit := true }).fnInit = false) ∧
    ((sessionHere .ofb).meInit = true ∧ (sessionHere .ofb).fnInit = true) ∧
    (sessionHere .cfb).meMode ∈ [Mode.ecb, .cbc, .pcbc, .cfb] ∧ [(0 : Byte)].length % Config.params.blockSize ≠ 0 := by
  refine ⟨rfl, ⟨rfl, rfl⟩, ⟨rfl, rfl⟩, by decide, ?_⟩
  rw [List.length_singleton, Nat.mod_eq_of_lt (by unfold Params.blockSize Params.half; omega)]
  exact Nat.one_ne_zero

theorem witness_DirectionMixingIsRefused :
    (∀ d : Dir, (({ sessionHere .cbc with meDir := d }).meInit = true ∧ ({ sessionHere .cbc with meDir := d }).fnInit = true ∧
      ({ sessionHere .cbc with meDir := d }).meMode ≠ .ecb)) ∧ ([] : Bytes).length % Config.params.blockSize = 0 ∧
    ({ sessionHere .rd with meDir := .dec }).meDir = .dec ∧ ({ sessionHere .rd with meDir := .enc }).meDir = .enc :=
  ⟨fun _ => ⟨rfl, rfl, Mode.noConfusion⟩, Nat.zero_mod _, rfl, rfl⟩

/-- A session on the machine's own instance is ready for empty input, in every mode but CTR. -/
theorem ready_sessionHere (m : Mode) (d : Dir) (hm : m ≠ .ctr) : (sessionHere m).Ready Config.params d [] where
  shaped := ⟨zeros_length _, zeros_length _, zeros_length _⟩
  fn := fnReady_readyHere
  session := rfl
  direction := fun _ => by cases d <;> rfl
  aligned := fun _ => Nat.zero_mod _
  bound := by
    have h : (sessionHere m).bodyLen Config.params d [] = 0 := by unfold State.bodyLen; split <;> simp
    rw [h]
    exact Nat.zero_le _
  ctrBlock := fun h => absurd h hm
  rdIndex := fun _ => by
    have h : (sessionHere m).bodyLen Config.params d [] = 0 := by unfold State.bodyLen; split <;> simp
    rw [h]
    exact Nat.zero_le _
  rdLong := fun _ h => by cases h
  rdHeader := fun _ h => by cases h

theorem witness_MeEncCompletes : ∀ m, m ≠ .ctr → (sessionHere m).Ready Config.params .enc [] :=
  fun m => ready_sessionHere m .enc

theorem witness_MeDecCompletes : ∀ m, m ≠ .ctr → (sessionHere m).Ready Config.params .dec [] :=
  fun m => ready_sessionHere m .dec

/-- A fresh session of every mode on TOY8 is ready for the vectors' plaintext, in both directions. -/
theorem ready_session (m : Mode) (d : Dir) : (session m).Ready toy8 d plain where
  shaped := ⟨rfl, rfl, rfl⟩
  fn := ⟨rfl, rfl⟩
  session := rfl
  direction := by cases m <;> cases d <;> decide
  aligned := fun _ => by decide
  bound := by cases m <;> cases d <;> decide
  ctrBlock := fun _ => by decide
  rdIndex := by cases m <;> cases d <;> decide
  rdLong := by cases m <;> cases d <;> decide
  rdHeader := by cases m <;> cases d <;> decide

/-- A session past its first transform is ready for input of any length in the modes that need no padding. -/
theorem ready_later : (later .rd .enc).Ready toy8 .enc [1, 2, 3] where
  shaped := ⟨rfl, rfl, rfl⟩
  fn := ⟨rfl, rfl⟩
  session := rfl
  direction := by decide
  aligned := by decide
  bound := by decide
  ctrBlock := by decide
  rdIndex := by decide
  rdLong := by decide
  rdHeader := by decide

theorem witness_EcbTransformsEachBlock :
    (session .ecb).meMode = .ecb ∧ (session .ecb).Ready toy8 .enc plain ∧ (session .ecb).Ready toy8 .dec plain :=
  ⟨rfl, ready_session _ _, ready_session _ _⟩

theorem witness_CbcChainsOnTheCiphertext :
    (session .cbc).meMode = .cbc ∧ (session .cbc).Ready toy8 .enc plain ∧ (session .cbc).Ready toy8 .dec plain :=
  ⟨rfl, ready_session _ _, ready_session _ _⟩

theorem witness_PcbcChainsOnBothTexts :
    (session .pcbc).meMode = .pcbc ∧ (session .pcbc).Ready toy8 .enc plain ∧ (session .pcbc).Ready toy8 .dec plain :=
  ⟨rfl, ready_session _ _, ready_session _ _⟩

theorem witness_CfbChainsOnTheCiphertext :
    (session .cfb).meMode = .cfb ∧ (session .cfb).Ready toy8 .enc plain ∧ (session .cfb).Ready toy8 .dec plain :=
  ⟨rfl, ready_session _ _, ready_session _ _⟩

/-- V-OFB-3's state in mid-block as well: `ME.FB = K_1` at offset 11. -/
theorem witness_OfbStaysInStepWithItsKeystream : Dir.enc ≠ .none ∧ Dir.dec ≠ .none ∧ (session .ofb).meMode = .ofb ∧
    (session .ofb).OfbSync toy8 ∧ (session .ofb).Ready toy8 .enc plain ∧ (session .ofb).Ready toy8 .dec plain ∧
    ({ session .ofb with meFb := hx 8 0x9612BAE2476E7964, meOff := 11 }).OfbSync toy8 :=
  ⟨by decide, by decide, rfl, rfl, ready_session _ _, ready_session _ _, by unfold State.OfbSync; decide⟩

theorem witness_CtrUsesItsCounterKeystream : Dir.enc ≠ .none ∧ Dir.dec ≠ .none ∧ (session .ctr).meMode = .ctr ∧
    (session .ctr).Ready toy8 .enc plain ∧ (session .ctr).Ready toy8 .dec plain :=
  ⟨by decide, by decide, rfl, ready_session _ _, ready_session _ _⟩

/-- A session's first encryption and a later one. -/
theorem witness_RdEncryptsUnderItsStride : (session .rd).meMode = .rd ∧ (session .rd).Ready toy8 .enc plain ∧
    (session .rd).meFirst = true ∧ (later .rd .enc).Ready toy8 .enc [1, 2, 3] ∧ (later .rd .enc).meFirst = false :=
  ⟨rfl, ready_session _ _, rfl, ready_later, rfl⟩

theorem witness_RdDecryptsUnderTheStrideOfItsHeader :
    (session .rd).meMode = .rd ∧ (session .rd).Ready toy8 .dec plain ∧ (session .rd).meFirst = true :=
  ⟨rfl, ready_session _ _, rfl⟩

theorem witness_RdFirstDecryptNeedsTheHeader :
    let s := { sessionHere .rd with meFirst := true }
    s.meInit = true ∧ s.fnInit = true ∧ s.meMode = .rd ∧ s.meFirst = true ∧ s.meDir ≠ .enc ∧
      ([] : Bytes).length < Config.params.blockSize :=
  ⟨rfl, rfl, rfl, rfl, by decide, Config.params.blockSize_pos⟩

theorem ready_empty (m : Mode) : ({ session m with meFirst := false }).Ready toy8 .dec [] where
  shaped := ⟨rfl, rfl, rfl⟩
  fn := ⟨rfl, rfl⟩
  session := rfl
  direction := by cases m <;> decide
  aligned := fun _ => by decide
  bound := by cases m <;> decide
  ctrBlock := fun _ => by decide
  rdIndex := by cases m <;> decide
  rdLong := by cases m <;> decide
  rdHeader := by cases m <;> decide

theorem ready_header : (session .rd).Ready toy8 .enc [] where
  shaped := ⟨rfl, rfl, rfl⟩
  fn := ⟨rfl, rfl⟩
  session := rfl
  direction := by decide
  aligned := by decide
  bound := by decide
  ctrBlock := by decide
  rdIndex := by decide
  rdLong := by decide
  rdHeader := by decide

theorem witness_EmptyInputChangesOnlyTheLatch :
    (∀ m, ({ session m with meFirst := false }).Ready toy8 .dec [] ∧ ({ session m with meFirst := false }).meFirst = false) ∧
    ((session .rd).Ready toy8 .enc [] ∧ (session .rd).meMode = .rd ∧ (session .rd).meFirst = true) ∧
    ((session .rd).meInit = true ∧ (session .rd).fnInit = true ∧ (session .rd).meDir ≠ .enc) :=
  ⟨fun m => ⟨ready_empty m, rfl⟩, ⟨ready_header, rfl, rfl⟩, rfl, rfl, by decide⟩

theorem witness_SessionRoundTrip : keyed.FnReady toy8 ∧ keyed.Shaped toy8 ∧ iv8.length = toy8.blockSize ∧
    8 ≤ toy8.blockSize ∧ plain.length % toy8.blockSize = 0 ∧ plain.length ≤ toy8.maxOff ∧ Mode.ctr ≠ .rd :=
  ⟨fnReady_keyed, ⟨rfl, rfl, rfl⟩, by decide, by decide, by decide, by decide, by decide⟩

theorem witness_RdRoundTripUnderAnySeed : keyed.FnReady toy8 ∧ iv8.length = toy8.blockSize ∧
    plain.length ≤ toy8.maxOff ∧ plain.length ≤ 2 ^ 32 * toy8.blockSize ∧ plain.length + toy8.blockSize ≤ maxLen :=
  ⟨fnReady_keyed, by decide, by decide, by decide, by decide⟩

/-- Scenario S3: the two ciphertexts of the vectors. -/
theorem witness_RdSeedsGiveDifferentCiphertexts : iv8.length = toy8.blockSize ∧
    toy8.deltaFromSeed 1001 ≠ toy8.deltaFromSeed 2002 ∧
    (∃ t1, runCommands (execOn toy8) [.meInit 6 (some iv8) (some 1001), .meEnc (some plain)] keyed = .next t1 ∧
      t1.responses = keyed.responses ++ [.ok [], .ok (hx 24 0x5368F86DE852F377CBC3FBE7F09DD2CBB65B67736C1A42E3)]) ∧
    (∃ t2, runCommands (execOn toy8) [.meInit 6 (some iv8) (some 2002), .meEnc (some plain)] keyed = .next t2 ∧
      t2.responses = keyed.responses ++ [.ok [], .ok (hx 24 0x3A60E871ECB9FB57CBC3FBE7F09DD2CB2D5BE76770372AA3)]) :=
  ⟨by decide, by decide, ⟨_, eq_next_of_isNext (by decide), by decide⟩, ⟨_, eq_next_of_isNext (by decide), by decide⟩⟩

/-- Cut at a block boundary, in every mode and direction (in a first RD decryption after the header). -/
theorem witness_SplitInputGivesTheSameSession : ∀ m d, d ≠ .none → (session m).Ready toy8 d (p0 ++ p1) ∧
    p0.length % toy8.blockSize = 0 ∧ toy8.blockSize ≤ p0.length :=
  fun m d _ => ⟨ready_session m d, by decide, by decide⟩

theorem witness_DifferentInputsEncryptDifferently : ∀ m, plain.length = (p0 ++ p0).length ∧ plain ≠ p0 ++ p0 ∧
    (session m).Ready toy8 .enc plain := fun m => ⟨by decide, by decide, ready_session m _⟩

theorem witness_FailureChangesNoState : exec (.fnEnc none) State.reset =
      .next { State.reset with responses := State.reset.responses ++ [.failure .invalidState] } := rfl

/-- A step that waits, and one that takes the frame of `FN_ENC null`. -/
theorem witness_OneResponsePerFrame : step State.reset = .next State.reset ∧
    step (State.reset.withFetchWord 32 0x11010000) =
      .next { State.reset with responses := State.reset.responses ++ [.failure .invalidState] } := ⟨rfl, rfl⟩

/-- A command of the first list; and `ME_ENC` in an ECB session, on empty input. -/
theorem witness_ReadOnlyCommandsRepeat : (Instr.meCaps 6).opcode ∈ [Opcode.fnEnc, .fnDec, .fnCaps, .meCaps] ∧
    exec (.meCaps 6) State.reset = .next { State.reset with responses := State.reset.responses ++ [.ok [2]] } ∧
    (Instr.meEnc (some [])).opcode ∈ [Opcode.meEnc, .meDec] ∧ (sessionHere .ecb).meMode = .ecb ∧
    ∃ t, exec (.meEnc (some [])) (sessionHere .ecb) = .next t := by
  refine ⟨by decide, rfl, by decide, rfl, ?_⟩
  obtain ⟨out, t, _, h⟩ := meEnc_ready (ready_sessionHere .ecb .enc (by decide))
  exact ⟨_, h⟩

theorem witness_RoundKeysAreSetOnlyByInit : (Instr.meCaps 6).opcode ∉ [Opcode.fnInit, .sysReset] ∧
    exec (.meCaps 6) State.reset = .next { State.reset with responses := State.reset.responses ++ [.ok [2]] } :=
  ⟨by decide, rfl⟩

/-- A transform in a session, for which `ME.DELTA` has to stand. -/
theorem witness_SessionRegistersBelongToInit : (Instr.meDec (some [])).opcode ∉ [Opcode.meInit, .sysReset] ∧
    (∃ t, exec (.meDec (some [])) (sessionHere .rd) = .next t) ∧
    ¬((Instr.meDec (some [])).opcode = .meDec ∧ (sessionHere .rd).meMode = .rd ∧ (sessionHere .rd).meFirst = true) := by
  refine ⟨by decide, ?_, by rintro ⟨_, _, h⟩; cases h⟩
  obtain ⟨out, t, _, h⟩ := meDec_ready (ready_sessionHere .rd .dec (by decide))
  exact ⟨_, h⟩

theorem witness_NothingRunsAfterSysReset : ∃ t, exec .sysReset readyHere = .next t := ⟨_, rfl⟩

/-- The invariant in a session of every mode but CTR on the machine's own instance. -/
theorem inv_sessionHere (m : Mode) (hm : m ≠ .ctr) (hr : m ≠ .rd) : (sessionHere m).Inv Config.params where
  shaped := ⟨zeros_length _, zeros_length _, zeros_length _⟩
  left := zeros_length _
  right := zeros_length _
  round := fun h => Nat.pos_of_ne_zero h
  keys := fun _ => List.length_replicate
  noKeys := fun h => by cases h
  idle := fun h => by cases h
  fresh := fun _ => rfl
  bound := Nat.zero_le _
  aligned := fun _ _ => Nat.zero_mod _
  ctrBlock := fun _ h => absurd h hm
  first := fun _ h => absurd h hr

/-- A session with `ME_CAPS CTR` waiting in the command stream. -/
def framedHere : State := (sessionHere .cbc).withFetchWord 32 0x23000500

theorem witness_StepKeepsTheInvariant : framedHere.Inv Config.params ∧ ∃ t, step framedHere = .next t :=
  let h := inv_sessionHere .cbc (by decide) (by decide)
  ⟨{ shaped := ⟨h.shaped.iv, h.shaped.fb, h.shaped.delta⟩, left := h.left, right := h.right, round := h.round
     keys := h.keys, noKeys := h.noKeys, idle := h.idle, fresh := h.fresh, bound := h.bound, aligned := h.aligned
     ctrBlock := h.ctrBlock, first := h.first }, _, rfl⟩

/-- A CBC session after one `ME_ENC empty`. -/
def encryptingHere : State := { sessionHere .cbc with meDir := .enc }

/-- That session, against its direction. -/
theorem witness_RefusalsAreTheSpecsOwn : encryptingHere.Inv Config.params ∧
    exec (.meDec (some [])) encryptingHere = .refused .directionMixed := by
  have h := inv_sessionHere .cbc (by decide) (by decide)
  refine ⟨{ shaped := ⟨h.shaped.iv, h.shaped.fb, h.shaped.delta⟩, left := h.left, right := h.right, round := h.round
            keys := h.keys, noKeys := h.noKeys, idle := fun hi => Bool.noConfusion hi, fresh := fun _ => rfl, bound := h.bound
            aligned := h.aligned, ctrBlock := h.ctrBlock, first := fun _ hr => Mode.noConfusion hr }, ?_⟩
  have hc : meCheck Config.params encryptingHere (some []) = .ok [] :=
    meCheck_ok_iff.2 ⟨rfl, rfl, rfl, fun _ => Nat.zero_mod _⟩
  show meDec Config.params (some []) encryptingHere = _
  rw [meDec, transform, hc]
  rfl

/-- Both block sizes at the byte's boundary. -/
theorem witness_PaddingComesOffAgain : 0 < 255 ∧ 255 ≤ 255 ∧ 255 < 256 ∧ PadScheme.pkcs7 ≠ .zeros := by decide

/-- Each clause: no byte, a zero byte, a byte one above the length. -/
theorem witness_BadLengthBytesAreRejected : PadScheme.iso10126 ≠ .zeros ∧ ([] : Bytes).getLast? = none ∧
    [1, (0 : Byte)].getLast? = some 0 ∧ [1, (3 : Byte)].getLast? = some 3 ∧ [1, (3 : Byte)].length < (3 : Byte).toNat := by
  decide

end Sys2Proof.Tests
end

section
/-! SUPPORT. The statements about the state (spec/10_state.md): what a command that answers can have done, said once, and
from it who writes the round keys and the session registers, and that every step keeps the invariant. -/

namespace Sys2Proof.Machine

-- ---------------------------------------------------------------- what a command that answers has done

/-- The registers after a successful transform of direction `d` that ran `n` block transforms over `len` bytes of body
and ends with the feedback `fb` and the stride `delta`; its response is not sent yet. -/
def State.commitTransform (c : Params) (d : Dir) (n : Nat) (fb delta : Bytes) (len : Nat) (s : State) : State :=
  { s.afterTransforms c n with
    meFb := fb, meOff := s.meOff + len, meDelta := delta
    meFirst := if s.meMode = .rd then false else s.meFirst
    meDir := d.latch s.meDir }

/-- A transform of direction `d` on `data` has taken `s` to `t`, its response not sent yet: the checks it passed, and what
it wrote. A new feedback or stride is a block where the old one was, and the stride is new on an RD session's first
decryption only (rule R38). -/
structure Transformed (c : Params) (d : Dir) (data : Bytes) (s t : State) : Prop where
  session : s.meInit = true
  core : s.fnInit = true
  direction : s.meMode ≠ .ecb → Dir.opposes s.meDir d = false
  aligned : s.meMode.requiresPadding = true → data.length % c.blockSize = 0
  bound : s.meOff + s.bodyLen c d data ≤ c.maxOff
  registers : ∃ n fb delta, t = s.commitTransform c d n fb delta (s.bodyLen c d data) ∧
    (s.meFb.length = c.blockSize → fb.length = c.blockSize) ∧
    (¬(d = .dec ∧ s.meMode = .rd ∧ s.meFirst = true) → delta = s.meDelta) ∧
    (s.meDelta.length = c.blockSize → delta.length = c.blockSize)

/-- A successful command `i` has taken `s` to `t`, its response not sent yet: one constructor a way to succeed. -/
inductive Writes (c : Params) (s : State) : Instr → State → Prop
  | sysReset : Writes c s .sysReset (s.sysReset c)
  | fnInit (key : Bytes) (hlen : c.keyLenOk key.length = true) (hcount : (c.ks key).length = c.rounds) :
      Writes c s (.fnInit (some key)) { s with fnRk := c.ks key, fnInit := true }
  | fnEnc (block : Bytes) (hready : s.FnReady c) (hblock : block.length = c.blockSize) :
      Writes c s (.fnEnc (some block)) (s.drawTransients c)
  | fnDec (block : Bytes) (hready : s.FnReady c) (hblock : block.length = c.blockSize) :
      Writes c s (.fnDec (some block)) (s.drawTransients c)
  | fnCaps : Writes c s .fnCaps s
  | meInitEcb (sel : Byte) (iv : Operand) (seed : Option (BitVec 64)) (hsel : Mode.ofSel sel = some .ecb) :
      Writes c s (.meInit sel iv seed) (openWithoutIv c .ecb s)
  | meInitIv (sel : Byte) (m : Mode) (iv : Bytes) (seed : Option (BitVec 64)) (hsel : Mode.ofSel sel = some m)
      (hmode : m ≠ .ecb) (hctr : m = .ctr → 8 ≤ c.blockSize) (hblock : iv.length = c.blockSize) :
      Writes c s (.meInit sel (some iv) seed) (openWithIv c m iv seed s)
  | meEnc (data : Bytes) (t : State) (h : Transformed c .enc data s t) : Writes c s (.meEnc (some data)) t
  | meDec (data : Bytes) (t : State) (h : Transformed c .dec data s t) : Writes c s (.meDec (some data)) t
  | meCaps (sel : Byte) (m : Mode) (hsel : Mode.ofSel sel = some m) : Writes c s (.meCaps sel) s

/-- How a command that answers ends: it fails and only says so, or it succeeds and has written what `Writes` says. -/
def Answered (c : Params) (i : Instr) (s t : State) : Prop :=
  (∃ k, t = s.respond (.failure k)) ∨ ∃ out u, Writes c s i u ∧ t = u.respond (.ok out)

theorem answered_of_fail {c : Params} {i : Instr} {s t : State} {r : Result} {k : FailKind} (hr : r = fail k s)
    (h : r = .next t) : Answered c i s t := by
  rw [hr] at h; cases h
  exact .inl ⟨k, rfl⟩

theorem answered_of_finish {c : Params} {i : Instr} {s t u : State} {r : Result} {out : Bytes} (hw : Writes c s i u)
    (hr : r = finish out u) (h : r = .next t) : Answered c i s t := by
  rw [hr] at h; cases h
  exact .inr ⟨out, u, hw, rfl⟩

theorem answered_of_commit {c : Params} {i : Instr} {s t : State} {r : Except Stop (Bytes × State)}
    (hw : ∀ out u, r = .ok (out, u) → Writes c s i u) (h : commit s r = .next t) : Answered c i s t := by
  rcases commit_cases s r with ⟨out, u, hok, hr⟩ | ⟨k, _, hr⟩ | ⟨why, _, hr⟩
  · exact answered_of_finish (hw out u hok) hr h
  · exact answered_of_fail hr h
  · cases hr.symm.trans h

/-- A successful `ME_ENC`. -/
theorem transformed_of_transform_enc {c : Params} {op : Operand} {s t : State} {out : Bytes}
    (h : transform c .enc (modeEnc c) op s = .ok (out, t)) : ∃ data, op = some data ∧ Transformed c .enc data s t := by
  obtain ⟨data, u, hop, hsession, hcore, haligned, hdir, hrun, hoff, rfl⟩ := transform_ok_iff.1 h
  obtain ⟨n, fb, rfl, _, _, hfb⟩ := modeEnc_frame hrun
  have hbody : s.bodyLen c .enc data = data.length := by simp [State.bodyLen]
  exact ⟨data, hop, hsession, hcore, hdir, haligned, by rw [hbody]; exact hoff, n, fb, s.meDelta,
    by simp [State.commitTransform, hbody], fun hl => (hfb hl).1, fun _ => rfl, id⟩

/-- A successful `ME_DEC`. -/
theorem transformed_of_transform_dec {c : Params} {op : Operand} {s t : State} {out : Bytes}
    (h : transform c .dec (modeDec c) op s = .ok (out, t)) : ∃ data, op = some data ∧ Transformed c .dec data s t := by
  obtain ⟨data, u, hop, hsession, hcore, haligned, hdir, hrun, hoff, rfl⟩ := transform_ok_iff.1 h
  obtain ⟨n, fb, delta, rfl, _, hkeep, _, hfirst, hfb⟩ := modeDec_frame hrun
  refine ⟨data, hop, hsession, hcore, hdir, haligned, hoff, n, fb, delta, by simp [State.commitTransform],
    fun hl => (hfb hl).1, fun hn => hkeep (by simpa using hn), fun hl => ?_⟩
  by_cases hf : s.meMode = .rd ∧ s.meFirst = true
  · exact (hfirst hf.1 hf.2).1
  · rwa [hkeep hf]

/-- Everything a command that answers can have done. -/
theorem execOn_next {c : Params} {i : Instr} {s t : State} (h : execOn c i s = .next t) : Answered c i s t := by
  cases i with
  | sysReset => exact answered_of_finish .sysReset rfl h
  | fnInit key =>
    rcases fnInit_cases c key s with ⟨k, _, hr⟩ | ⟨key, rfl, hlen, hcount, hr⟩
    · exact answered_of_fail hr h
    · exact answered_of_finish (.fnInit key hlen hcount) hr h
  | fnEnc block =>
    rcases fnEnc_cases c block s with ⟨b, rfl, hI, hR, hblock, hr⟩ | ⟨k, _, hr⟩
    · exact answered_of_finish (.fnEnc b ⟨hI, hR⟩ hblock) hr h
    · exact answered_of_fail hr h
  | fnDec block =>
    rcases fnDec_cases c block s with ⟨b, rfl, hI, hR, hblock, hr⟩ | ⟨k, _, hr⟩
    · exact answered_of_finish (.fnDec b ⟨hI, hR⟩ hblock) hr h
    · exact answered_of_fail hr h
  | fnCaps => exact answered_of_finish .fnCaps rfl h
  | meInit sel iv seed =>
    rcases meInit_cases c sel iv seed s with
      ⟨k, _, hr⟩ | ⟨_, _, hr⟩ | ⟨hsel, hr⟩ | ⟨m, v, hsel, hmode, hctr, rfl, hblock, hr⟩
    · exact answered_of_fail hr h
    · cases hr.symm.trans h
    · exact answered_of_finish (.meInitEcb sel iv seed hsel) hr h
    · exact answered_of_finish (.meInitIv sel m v seed hsel hmode hctr hblock) hr h
  | meEnc data =>
    refine answered_of_commit (fun out u hok => ?_) h
    obtain ⟨d, rfl, hd⟩ := transformed_of_transform_enc hok
    exact .meEnc d u hd
  | meDec data =>
    refine answered_of_commit (fun out u hok => ?_) h
    obtain ⟨d, rfl, hd⟩ := transformed_of_transform_dec hok
    exact .meDec d u hd
  | meCaps sel =>
    change meCaps sel s = .next t at h
    unfold meCaps at h
    split at h
    · exact answered_of_fail rfl h
    next m hsel => exact answered_of_finish (.meCaps sel m hsel) rfl h

/-- `execOn_next` for `exec`, which is `execOn` at `Config.params`. -/
theorem exec_next {i : Instr} {s t : State} (h : exec i s = .next t) : Answered Config.params i s t :=
  execOn_next (by cases i <;> exact h)

/-- Everything a step that answers can have done: wait, take a malformed frame, or take a command and run it. -/
theorem step_next {s t : State} (h : step s = .next t) :
    t = s ∨ (∃ rest k, t = (s.consume rest).respond (.failure k)) ∨ ∃ rest i, exec i (s.consume rest) = .next t := by
  unfold step runNext at h
  split at h
  · cases h; exact .inl rfl
  · cases h; exact .inr (.inl ⟨_, _, rfl⟩)
  · exact .inr (.inr ⟨_, _, h⟩)

-- ---------------------------------------------------------------- who writes which register

@[simp] theorem openWithIv_fnRk (c : Params) (m : Mode) (iv : Bytes) (seed : Option (BitVec 64)) (s : State) :
    (openWithIv c m iv seed s).fnRk = s.fnRk := by rw [openWithIv_eq]

@[simp] theorem openWithIv_fnInit (c : Params) (m : Mode) (iv : Bytes) (seed : Option (BitVec 64)) (s : State) :
    (openWithIv c m iv seed s).fnInit = s.fnInit := by rw [openWithIv_eq]

/-- A transform reads the round keys and does not write them. -/
theorem Transformed.keys {c : Params} {d : Dir} {data : Bytes} {s t : State} (h : Transformed c d data s t) :
    t.fnRk = s.fnRk ∧ t.fnInit = s.fnInit := by
  obtain ⟨n, fb, delta, rfl, _⟩ := h.registers
  simp [State.commitTransform]

/-- The commands that initialise neither the engine nor the core leave the round keys alone (rule R21). -/
theorem Writes.keys {c : Params} {i : Instr} {s t : State} (h : Writes c s i t)
    (hi : i.opcode ∉ [Opcode.fnInit, .sysReset]) : t.fnRk = s.fnRk ∧ t.fnInit = s.fnInit := by
  cases h with
  | sysReset | fnInit => simp [Instr.opcode] at hi
  | fnEnc | fnDec | fnCaps | meCaps | meInitEcb => exact ⟨rfl, rfl⟩
  | meInitIv => simp
  | meEnc _ _ h | meDec _ _ h => exact h.keys

/-- `t` is in the session of `s`: its IV and mode, an offset no smaller, and the same stride if `keepsDelta` (rules R34,
R36, R38). -/
def SameSession (keepsDelta : Prop) (s t : State) : Prop :=
  t.meIv = s.meIv ∧ t.meMode = s.meMode ∧ t.meInit = s.meInit ∧ s.meOff ≤ t.meOff ∧
    (keepsDelta → t.meDelta = s.meDelta)

/-- A transform stays in its session; only an RD session's first decryption writes the stride. -/
theorem Transformed.sameSession {c : Params} {d : Dir} {data : Bytes} {s t : State} (h : Transformed c d data s t) :
    SameSession (¬(d = .dec ∧ s.meMode = .rd ∧ s.meFirst = true)) s t := by
  obtain ⟨n, fb, delta, rfl, _, hkeep, _⟩ := h.registers
  refine ⟨?_, ?_, ?_, Nat.le_add_right _ _, hkeep⟩ <;> simp [State.commitTransform]

/-- The commands that open no session stay in the one that is open. -/
theorem Writes.sameSession {c : Params} {i : Instr} {s t : State} (h : Writes c s i t)
    (hi : i.opcode ∉ [Opcode.meInit, .sysReset]) :
    SameSession (¬(i.opcode = .meDec ∧ s.meMode = .rd ∧ s.meFirst = true)) s t := by
  cases h with
  | sysReset | meInitEcb | meInitIv => simp [Instr.opcode] at hi
  | fnInit | fnEnc | fnDec | fnCaps | meCaps => exact ⟨rfl, rfl, rfl, Nat.le_refl _, fun _ => rfl⟩
  | meEnc _ _ h | meDec _ _ h => simpa [Instr.opcode] using h.sameSession

/-- Settles O51: a failure writes nothing, and `Writes.keys` covers the successes. -/
theorem roundKeysAreSetOnlyByInit : Obligations.RoundKeysAreSetOnlyByInit := by
  intro i s t hi h
  rcases exec_next h with ⟨k, rfl⟩ | ⟨out, u, hw, rfl⟩
  · exact ⟨rfl, rfl⟩
  · exact hw.keys hi

/-- Settles O52: a failure writes nothing, and `Writes.sameSession` covers the successes. -/
theorem sessionRegistersBelongToInit : Obligations.SessionRegistersBelongToInit := by
  intro i s t hi h
  rcases exec_next h with ⟨k, rfl⟩ | ⟨out, u, hw, rfl⟩
  · exact ⟨rfl, rfl, rfl, Nat.le_refl _, fun _ => rfl⟩
  · exact hw.sameSession hi

-- ---------------------------------------------------------------- the invariant

/-- The invariant reads the registers, and of the transient ones only their shape. -/
theorem State.Inv.of_sameRegisters {c : Params} {s t : State} (h : s.Inv c) (hr : s.SameRegisters t)
    (hleft : t.fnL.length = c.half) (hright : t.fnR.length = c.half) (hround : c.rounds ≠ 0 → t.fnI < c.rounds) :
    t.Inv c := by
  obtain ⟨⟨hiv, hfb, hdelta⟩, _, _, _, hkeys, hnoKeys, hidle, hfresh, hbound, haligned, hctr, hfirst⟩ := h
  obtain ⟨e1, e2, e3, e4, e5, e6, e7, e8, e9, e10⟩ := hr
  rw [e1, e2] at hkeys hnoKeys
  rw [e3, e7, e10] at hidle
  rw [e7, e10] at hfresh
  rw [e3, e4] at haligned hctr hfirst
  rw [e7] at hbound haligned
  rw [e9, e10] at hfirst
  exact ⟨⟨e5 ▸ hiv, e6 ▸ hfb, e8 ▸ hdelta⟩, hleft, hright, hround, hkeys, hnoKeys, hidle, hfresh, hbound,
    haligned, hctr, hfirst⟩

theorem State.SameRegisters.refl (s : State) : s.SameRegisters s := by simp [State.SameRegisters]

theorem State.Inv.respond {c : Params} {s : State} (h : s.Inv c) (r : Response) : (s.respond r).Inv c :=
  h.of_sameRegisters (.refl s) h.left h.right h.round

theorem State.Inv.consume {c : Params} {s : State} (h : s.Inv c) (rest : Bytes) : (s.consume rest).Inv c :=
  h.of_sameRegisters (.refl s) h.left h.right h.round

theorem State.Inv.drawTransients {c : Params} {s : State} (h : s.Inv c) : (s.drawTransients c).Inv c :=
  h.of_sameRegisters (.refl s) (by simp) (by simp) (c.drawRound_lt _)

theorem State.Inv.afterTransforms {c : Params} {s : State} (h : s.Inv c) (n : Nat) : (s.afterTransforms c n).Inv c := by
  rcases State.afterTransforms_eq c n s with he | he <;> rw [he]
  · exact h
  · exact h.drawTransients

/-- `SYS_RESET` establishes the invariant from any state. -/
theorem State.inv_sysReset (c : Params) (s : State) : (s.sysReset c).Inv c where
  shaped := ⟨by simp, by simp, by simp⟩
  left := by simp
  right := by simp
  round := c.drawRound_lt _
  keys := by simp
  noKeys := by simp
  idle := by simp
  fresh := by simp
  bound := Nat.zero_le _
  aligned := by simp
  ctrBlock := by simp
  first := by simp

/-- New round keys keep the invariant when they are counted (rule R172). -/
theorem State.Inv.setKeys {c : Params} {s : State} (h : s.Inv c) {rks : List Bytes} (hcount : rks.length = c.rounds) :
    ({ s with fnRk := rks, fnInit := true } : State).Inv c :=
  { h with
    shaped := ⟨h.shaped.iv, h.shaped.fb, h.shaped.delta⟩
    keys := fun _ => hcount
    noKeys := by simp }

/-- A fresh session meets the invariant, if its block registers hold blocks and it is none that rule R268 excludes. -/
theorem State.Inv.freshSession {c : Params} {s : State} (h : s.Inv c) {m : Mode} {iv fb delta : Bytes} {first : Bool}
    (n : Nat) (hiv : iv.length = c.blockSize) (hfb : fb.length = c.blockSize) (hdelta : delta.length = c.blockSize)
    (hctr : m = .ctr → 8 ≤ c.blockSize) (hfirst : m = .rd → first = true) :
    ({ s with meMode := m, meOff := 0, meDir := .none, meInit := true, meIv := iv, meFb := fb, meDelta := delta,
              meFirst := first, draws := n } : State).Inv c where
  shaped := ⟨hiv, hfb, hdelta⟩
  left := h.left
  right := h.right
  round := h.round
  keys := h.keys
  noKeys := h.noKeys
  idle := by simp
  fresh := by simp
  bound := Nat.zero_le _
  aligned := by simp
  ctrBlock := fun _ => hctr
  first := fun _ hm => by simp [hfirst hm]

theorem State.Inv.openWithIv {c : Params} {s : State} (h : s.Inv c) {m : Mode} {iv : Bytes}
    (seed : Option (BitVec 64)) (hiv : iv.length = c.blockSize) (hctr : m = .ctr → 8 ≤ c.blockSize) :
    (openWithIv c m iv seed s).Inv c := by
  rw [openWithIv_eq]
  refine h.freshSession _ hiv hiv ?_ hctr fun hm => if_pos hm
  split <;> simp

theorem State.Inv.openWithoutIv {c : Params} {s : State} (h : s.Inv c) : (openWithoutIv c .ecb s).Inv c := by
  rw [openWithoutIv_eq]
  exact h.freshSession _ (by simp) (by simp) (by simp) (by simp) (by simp)

/-- After a transform the direction latch is set (rule R39). -/
theorem Dir.latch_ne_none {d : Dir} (hd : d ≠ .none) (old : Dir) : d.latch old ≠ .none := by
  cases old <;> simp [Dir.latch, hd]

/-- Only RD has a header, so in the block-aligned modes the whole input is body. -/
theorem State.bodyLen_of_requiresPadding {c : Params} {s : State} (h : s.meMode.requiresPadding = true) (d : Dir)
    (data : Bytes) : s.bodyLen c d data = data.length := by
  have hm : s.meMode ≠ .rd := by rintro hm; simp [hm, Mode.requiresPadding] at h
  simp [State.bodyLen, hm]

/-- A transform keeps the invariant: it moves the offset by whole blocks in the block-aligned modes, and in RD it clears
`ME.FIRST` when it sets the latch. -/
theorem Transformed.inv {c : Params} {d : Dir} {data : Bytes} {s t : State} (h : Transformed c d data s t)
    (hd : d ≠ .none) (hs : s.Inv c) : t.Inv c := by
  obtain ⟨n, fb, delta, rfl, hfb, _, hdelta⟩ := h.registers
  have hu := hs.afterTransforms n
  have hlatch := Dir.latch_ne_none hd s.meDir
  exact {
    shaped := ⟨hu.shaped.iv, hfb hs.shaped.fb, hdelta hs.shaped.delta⟩
    left := hu.left
    right := hu.right
    round := hu.round
    keys := hu.keys
    noKeys := hu.noKeys
    idle := by simp [State.commitTransform, h.session]
    fresh := fun hn => absurd hn hlatch
    bound := h.bound
    aligned := by
      intro _ hp
      replace hp : s.meMode.requiresPadding = true := by simpa [State.commitTransform] using hp
      have hoff := hs.aligned h.session hp
      have hlen := h.aligned hp
      change (s.meOff + s.bodyLen c d data) % c.blockSize = 0
      rw [State.bodyLen_of_requiresPadding hp, Nat.add_mod, hoff, hlen, Nat.zero_mod]
    ctrBlock := hu.ctrBlock
    first := by
      intro _ hm
      replace hm : s.meMode = .rd := by simpa [State.commitTransform] using hm
      simp [State.commitTransform, hm, hlatch] }

/-- A successful command keeps the invariant. -/
theorem Writes.inv {c : Params} {i : Instr} {s t : State} (h : Writes c s i t) (hs : s.Inv c) : t.Inv c := by
  cases h with
  | sysReset => exact State.inv_sysReset c s
  | fnInit key _ hcount => exact hs.setKeys hcount
  | fnEnc | fnDec => exact hs.drawTransients
  | fnCaps | meCaps => exact hs
  | meInitEcb => exact hs.openWithoutIv
  | meInitIv sel m iv seed _ _ hctr hblock => exact hs.openWithIv seed hblock hctr
  | meEnc data _ h => exact h.inv (by simp) hs
  | meDec data _ h => exact h.inv (by simp) hs

/-- A command keeps the invariant, whether it succeeds or fails. -/
theorem Answered.inv {c : Params} {i : Instr} {s t : State} (h : Answered c i s t) (hs : s.Inv c) : t.Inv c := by
  rcases h with ⟨k, rfl⟩ | ⟨out, u, hw, rfl⟩
  · exact hs.respond _
  · exact (hw.inv hs).respond _

/-- Settles O57: the invariant does not look at the two streams, and every command keeps it (`Answered.inv`). -/
theorem stepKeepsTheInvariant : Obligations.StepKeepsTheInvariant := by
  intro s t hs h
  rcases step_next h with rfl | ⟨rest, k, rfl⟩ | ⟨rest, i, hi⟩
  · exact hs
  · exact (hs.consume rest).respond _
  · exact (exec_next hi).inv (hs.consume rest)

/-- Settles O55, by the definition of `State.reset`. -/
theorem resetValuesOfTheSpec : Obligations.ResetValuesOfTheSpec := ⟨rfl, rfl, rfl, rfl, rfl⟩

/-- Settles O56: the registers are all of their lengths, and neither keys nor session are there. -/
theorem invariantHoldsAtReset : Obligations.InvariantHoldsAtReset where
  shaped := ⟨zeros_length _, zeros_length _, zeros_length _⟩
  left := zeros_length _
  right := zeros_length _
  round := Nat.pos_of_ne_zero
  keys := by simp [State.reset]
  noKeys := fun _ => rfl
  idle := fun _ => ⟨rfl, rfl⟩
  fresh := fun _ => rfl
  bound := Nat.zero_le _
  aligned := by simp [State.reset]
  ctrBlock := by simp [State.reset]
  first := by simp [State.reset]

-- ---------------------------------------------------------------- the direction rule

/-- A transform that passes `MeCheck` against the session's direction is refused before its mode function runs, in every
mode but ECB (rule R39; 93 U1). -/
theorem transform_opposed {c : Params} {d : Dir} {run : Bytes → State → Except Stop (Bytes × State)} {data : Bytes}
    {s : State} (hsession : s.meInit = true) (hcore : s.fnInit = true) (hmode : s.meMode ≠ .ecb)
    (haligned : s.meMode.requiresPadding = true → data.length % c.blockSize = 0)
    (hopposed : Dir.opposes s.meDir d = true) :
    transform c d run (some data) s = .error (.refusal .directionMixed) := by
  have hcheck : meCheck c s (some data) = .ok data := meCheck_ok_iff.2 ⟨hsession, hcore, rfl, haligned⟩
  have hdir : directionCheck s d = .error (.refusal .directionMixed) := if_pos ⟨hmode, hopposed⟩
  rw [transform, hcheck, ok_bind, hdir, error_bind]

/-- Settles O30, by `transform_opposed` in both directions. -/
theorem directionMixingIsRefused : Obligations.DirectionMixingIsRefused := by
  intro data s hsession hcore hmode haligned
  have hrefused : ∀ d run, Dir.opposes s.meDir d = true →
      commit s (transform Config.params d run (some data) s) = .refused .directionMixed := fun d run hopposed => by
    rw [transform_opposed hsession hcore hmode haligned hopposed]; rfl
  exact ⟨fun hdec => hrefused .enc _ (by rw [hdec]; rfl), fun henc => hrefused .dec _ (by rw [henc]; rfl)⟩

end Sys2Proof.Machine
end

section
/-! SUPPORT. Repeating a command (spec/20_memory.md rule R71): the read-only commands answer from the persistent registers
alone, and an ECB transform answers from all of them but the offset and the latch, which are all it writes. -/

namespace Sys2Proof.Machine

/-- The machine runs the commands at its own parameters. -/
theorem exec_eq_execOn (i : Instr) (s : State) : exec i s = execOn Config.params i s := by cases i <;> rfl

-- ---------------------------------------------------------------- the read-only commands

/-- The command `run` answers `r` wherever the persistent registers are those of `s`, and writes transient ones only. -/
def AnswersFrom (c : Params) (run : State → Result) (s : State) (r : Response) : Prop :=
  ∀ t, s.SameRegisters t → ∃ n, run t = .next ((t.afterTransforms c n).respond r)

theorem State.sameRegisters_afterTransforms_respond (c : Params) (s : State) (n : Nat) (r : Response) :
    s.SameRegisters ((s.afterTransforms c n).respond r) := by simp [State.SameRegisters]

/-- A command that answers from the persistent registers alone keeps them, and a repeat completes with the same response. -/
theorem AnswersFrom.repeats {c : Params} {run : State → Result} {s t : State} {r : Response}
    (ha : AnswersFrom c run s r) (h : run s = .next t) :
    s.SameRegisters t ∧ t.responses = s.responses ++ [r] ∧ ∃ u, run t = .next u ∧ u.responses = t.responses ++ [r] := by
  obtain ⟨n, hs⟩ := ha s (.refl s)
  cases h.symm.trans hs
  have hsame := State.sameRegisters_afterTransforms_respond c s n r
  obtain ⟨m, ht⟩ := ha _ hsame
  exact ⟨hsame, by simp, _, ht, by simp⟩

theorem fnEnc_answersFrom (c : Params) (op : Operand) (s : State) : ∃ r, AnswersFrom c (fnEnc c op) s r := by
  have hport : ∀ t, s.SameRegisters t → bcE c t op = bcE c s op := fun t ⟨hinit, hkeys, _⟩ =>
    bcE_congr hinit.symm hkeys.symm op
  rcases bcE_cases c s op with ⟨b, _, _, _, _, hok⟩ | ⟨k, _, hfail⟩
  · exact ⟨.ok (cipherEnc c s.fnRk b), fun t ht => ⟨1, by rw [fnEnc, hport t ht, hok]; rfl⟩⟩
  · exact ⟨.failure k, fun t ht => ⟨0, by rw [fnEnc, hport t ht, hfail]; rfl⟩⟩

theorem fnDec_answersFrom (c : Params) (op : Operand) (s : State) : ∃ r, AnswersFrom c (fnDec c op) s r := by
  have hport : ∀ t, s.SameRegisters t → bcD c t op = bcD c s op := fun t ⟨hinit, hkeys, _⟩ =>
    bcD_congr hinit.symm hkeys.symm op
  rcases bcD_cases c s op with ⟨b, _, _, _, _, hok⟩ | ⟨k, _, hfail⟩
  · exact ⟨.ok (cipherDec c s.fnRk b), fun t ht => ⟨1, by rw [fnDec, hport t ht, hok]; rfl⟩⟩
  · exact ⟨.failure k, fun t ht => ⟨0, by rw [fnDec, hport t ht, hfail]; rfl⟩⟩

theorem meCaps_answersFrom (c : Params) (sel : Byte) (s : State) : ∃ r, AnswersFrom c (meCaps sel) s r := by
  cases hsel : Mode.ofSel sel with
  | none => exact ⟨.failure .unsupported, fun t _ => ⟨0, by rw [meCaps, hsel]; rfl⟩⟩
  | some m => exact ⟨.ok [m.capsByte], fun t _ => ⟨0, by rw [meCaps, hsel]; rfl⟩⟩

/-- The read-only commands answer from the persistent registers alone. -/
theorem execOn_answersFrom (c : Params) {i : Instr} (hi : i.opcode ∈ [Opcode.fnEnc, .fnDec, .fnCaps, .meCaps])
    (s : State) : ∃ r, AnswersFrom c (execOn c i) s r := by
  cases i with
  | fnEnc block => exact fnEnc_answersFrom c block s
  | fnDec block => exact fnDec_answersFrom c block s
  | fnCaps => exact ⟨.ok (capsBlockSize c), fun t _ => ⟨0, rfl⟩⟩
  | meCaps sel => exact meCaps_answersFrom c sel s
  | sysReset | fnInit | meInit | meEnc | meDec => simp [Instr.opcode] at hi

-- ---------------------------------------------------------------- the ECB transforms

/-- Two states agree on every persistent register but `ME.OFF` and the latch. -/
def State.SameButOffset (s t : State) : Prop := s.SameRegisters { t with meOff := s.meOff, meDir := s.meDir }

theorem State.SameButOffset.refl (s : State) : s.SameButOffset s := State.SameRegisters.refl s

/-- What an ECB transform reads is the same in two such states. -/
theorem State.SameButOffset.ecbInputs {s t : State} (h : s.SameButOffset t) : t.fnInit = s.fnInit ∧ t.fnRk = s.fnRk ∧
    t.meInit = s.meInit ∧ t.meMode = s.meMode ∧ t.meFb = s.meFb := by
  obtain ⟨hinit, hkeys, hsession, hmode, _, hfb, _⟩ := h
  exact ⟨hinit.symm, hkeys.symm, hsession.symm, hmode.symm, hfb.symm⟩

/-- The output of a transform before the offset limit is looked at (93 U2), in a mode without a direction rule. -/
def ecbOutput (c : Params) (run : Bytes → State → Except Stop (Bytes × State)) (op : Operand) (s : State) :
    Except Stop Bytes := do
  let data ← meCheck c s op
  let (out, _) ← run data s
  return out

/-- The response a command's output makes; a refusal makes none. -/
def responseOf : Except Stop Bytes → Option Response
  | .ok out => some (.ok out)
  | .error (.failure k) => some (.failure k)
  | .error (.refusal _) => none

/-- The mode function `run` is fit for ECB: there it writes no persistent register but the offset and the latch, and its
output does not depend on those two. -/
structure EcbRun (run : Bytes → State → Except Stop (Bytes × State)) : Prop where
  writes : ∀ {data out : Bytes} {s u : State}, s.meMode = .ecb → run data s = .ok (out, u) →
    s.SameButOffset u ∧ u.responses = s.responses
  reads : ∀ {s t : State}, s.meMode = .ecb → s.SameButOffset t → ∀ data,
    Prod.fst <$> run data t = Prod.fst <$> run data s

/-- A stopped command that answers has failed. -/
theorem stopIn_next {s t : State} {stop : Stop} (h : stopIn s stop = .next t) :
    ∃ k, stop = .failure k ∧ t = s.respond (.failure k) := by
  rcases stopIn_cases s stop with ⟨k, hstop, hk⟩ | ⟨why, _, hwhy⟩
  · cases hk.symm.trans h
    exact ⟨k, hstop, rfl⟩
  · cases hwhy.symm.trans h

/-- The output of a block-aligned mode depends on `ME.FB` and on what its step reads. -/
theorem blockMode_output_congr {c : Params} {step : BlockStep} {s t : State} (hfb : t.meFb = s.meFb) (data : Bytes) :
    Prod.fst <$> blockMode c step data t = Prod.fst <$> blockMode c step data s := by
  unfold blockMode
  cases inDomain (split c.blockSize data) with
  | error e => rfl
  | ok blocks =>
    rw [ok_bind, ok_bind, hfb]
    cases blockLoop step blocks s.meFb <;> rfl

theorem modeEnc_ecbRun (c : Params) : EcbRun (modeEnc c) where
  writes hm h := by
    obtain ⟨n, fb, rfl, hfb, _⟩ := modeEnc_frame h
    simp [State.SameButOffset, State.SameRegisters, hm, hfb]
  reads := by
    intro s t hm h data
    obtain ⟨hinit, hkeys, _, hmode, hfb⟩ := h.ecbInputs
    have hstep : ecbEncStep c t = ecbEncStep c s := by
      funext x fb; rw [ecbEncStep, ecbEncStep, bcE_congr hinit hkeys]
    simp only [modeEnc, hmode, hm, hstep]
    exact blockMode_output_congr hfb data

theorem modeDec_ecbRun (c : Params) : EcbRun (modeDec c) where
  writes hm h := by
    obtain ⟨n, fb, delta, rfl, hfb, hdelta, _⟩ := modeDec_frame h
    simp [State.SameButOffset, State.SameRegisters, hm, hfb, hdelta]
  reads := by
    intro s t hm h data
    obtain ⟨hinit, hkeys, _, hmode, hfb⟩ := h.ecbInputs
    have hstep : ecbDecStep c t = ecbDecStep c s := by
      funext x fb; rw [ecbDecStep, ecbDecStep, bcD_congr hinit hkeys]
    simp only [modeDec, hmode, hm, hstep]
    exact blockMode_output_congr hfb data

section
variable {c : Params} {d : Dir} {run : Bytes → State → Except Stop (Bytes × State)} {op : Operand} {s t : State}

/-- The checks and the mode function give the same output where the registers differ in the offset and the latch only. -/
theorem EcbRun.output_congr (hr : EcbRun run) (hm : s.meMode = .ecb) (h : s.SameButOffset t) :
    ecbOutput c run op t = ecbOutput c run op s := by
  have hreads := hr.reads hm h
  obtain ⟨hinit, _, hsession, hmode, _⟩ := h.ecbInputs
  have hcheck : meCheck c t op = meCheck c s op := by
    unfold meCheck
    rw [hinit, hsession, hmode]
  unfold ecbOutput
  rw [hcheck]
  exact congrArg _ (funext fun data => hreads data)

/-- An ECB transform that answers has written the offset and the latch only, and its response is that of `ecbOutput`. -/
theorem EcbRun.answers (hr : EcbRun run) (hm : s.meMode = .ecb)
    (h : commit s (transform c d run op s) = .next t) :
    s.SameButOffset t ∧ ∃ r, t.responses = s.responses ++ [r] ∧ responseOf (ecbOutput c run op s) = some r := by
  have hdir : directionCheck s d = .ok () := directionCheck_ok_iff.2 fun hn => absurd hm hn
  unfold transform at h
  cases hcheck : meCheck c s op with
  | error e =>
    rw [hcheck] at h
    obtain ⟨k, rfl, rfl⟩ := stopIn_next h
    exact ⟨.refl s, .failure k, rfl, by rw [ecbOutput, hcheck]; rfl⟩
  | ok data =>
    rw [hcheck, ok_bind, hdir, ok_bind] at h
    cases hrun : run data s with
    | error e =>
      rw [hrun] at h
      obtain ⟨k, rfl, rfl⟩ := stopIn_next h
      exact ⟨.refl s, .failure k, rfl, by rw [ecbOutput, hcheck, ok_bind, hrun]; rfl⟩
    | ok result =>
      obtain ⟨out, v⟩ := result
      obtain ⟨hsame, hresp⟩ := hr.writes hm hrun
      rw [hrun, ok_bind] at h
      cases hoff : offsetCheck c v with
      | error e =>
        obtain ⟨rfl, _⟩ := offsetCheck_error hoff
        simp only [hoff, error_bind] at h
        cases h
      | ok =>
        simp only [hoff, ok_bind] at h
        cases h
        exact ⟨hsame, .ok out, by simp [hresp], by rw [ecbOutput, hcheck, ok_bind, hrun]; rfl⟩

/-- An ECB transform writes the offset and the latch only, and a repeat that runs gives the same response. -/
theorem EcbRun.repeats (hr : EcbRun run) (hm : s.meMode = .ecb)
    (h : commit s (transform c d run op s) = .next t) :
    s.SameButOffset t ∧ ∃ r, t.responses = s.responses ++ [r] ∧
      ∀ u, commit t (transform c d run op t) = .next u → u.responses = t.responses ++ [r] := by
  obtain ⟨hsame, r, hresp, hout⟩ := hr.answers hm h
  refine ⟨hsame, r, hresp, fun u hu => ?_⟩
  obtain ⟨_, _, _, hmode, _⟩ := hsame.ecbInputs
  obtain ⟨_, r', hresp', hout'⟩ := hr.answers (hmode.trans hm) hu
  rw [hr.output_congr hm hsame, hout] at hout'
  cases hout'
  exact hresp'

end

/-- Settles O50: `execOn_answersFrom` for the read-only commands, `EcbRun.repeats` for the two ECB transforms. -/
theorem readOnlyCommandsRepeat : Obligations.ReadOnlyCommandsRepeat := by
  refine ⟨fun i s t hi h => ?_, fun i s t hi hm h => ?_⟩
  · obtain ⟨r, ha⟩ := execOn_answersFrom Config.params hi s
    rw [exec_eq_execOn] at h
    obtain ⟨hsame, hresp, u, hu, hrepeat⟩ := ha.repeats h
    exact ⟨hsame, r, u, hresp, (exec_eq_execOn i t).trans hu, hrepeat⟩
  · cases i with
    | meEnc data => exact (modeEnc_ecbRun Config.params).repeats hm h
    | meDec data => exact (modeDec_ecbRun Config.params).repeats hm h
    | sysReset | fnInit | fnEnc | fnDec | fnCaps | meInit | meCaps => simp [Instr.opcode] at hi

end Sys2Proof.Machine
end

section
/-! SUPPORT. The statements about frames (spec/30_encoding.md): the checks on a frame's fields agree with those on its
bytes (rules R105, R108), a decoded command stands in its frame, a step takes one whole frame and answers once, and a
response frame reads back. -/

namespace Sys2Proof

open Machine

-- ---------------------------------------------------------------- the must-be-zero bits

theorem append_byte_eq_zero_iff {w : Nat} {x : BitVec w} {y : Byte} : x ++ y = 0#(w + 8) ↔ x = 0#w ∧ y = 0#8 := by
  simp only [← BitVec.toNat_inj, toNat_append_byte, BitVec.toNat_ofNat, Nat.zero_mod]
  omega

/-- A mask over four bytes that spares the first is a mask on each of the others. -/
theorem and_bytes_eq_zero_iff (a₀ a₁ a₂ a₃ m₁ m₂ m₃ : Byte) :
    (a₀ ++ a₁ ++ a₂ ++ a₃) &&& (0#8 ++ m₁ ++ m₂ ++ m₃) = 0#(8 + 8 + 8 + 8) ↔
      a₁ &&& m₁ = 0#8 ∧ a₂ &&& m₂ = 0#8 ∧ a₃ &&& m₃ = 0#8 := by
  rw [BitVec.and_append, append_byte_eq_zero_iff, BitVec.and_append, append_byte_eq_zero_iff, BitVec.and_append,
    append_byte_eq_zero_iff, BitVec.and_zero]
  simp only [true_and, and_assoc]

/-- No must-be-zero bit lies in `OPC`, so the check on the command word is one on each of its other bytes (rule R105). -/
theorem cw_and_mbz_eq_zero_iff (opc flg sel rsv : Byte) (op : Opcode) :
    BitVec.ofNat 32 (be [opc, flg, sel, rsv]) &&& op.mbz = 0 ↔
      flg &&& op.mbz.extractLsb' 16 8 = 0#8 ∧ sel &&& op.mbz.extractLsb' 8 8 = 0#8 ∧
        rsv &&& op.mbz.extractLsb' 0 8 = 0#8 := by
  have hmbz : op.mbz = 0#8 ++ op.mbz.extractLsb' 16 8 ++ op.mbz.extractLsb' 8 8 ++ op.mbz.extractLsb' 0 8 := by
    cases op <;> rfl
  conv_lhs => rw [hmbz, cw_eq_append]
  exact and_bytes_eq_zero_iff ..

/-- A byte with a bit above bit 0. -/
theorem and_0xFE_ne_zero_iff : ∀ b : Byte, ¬ b &&& 0xFE#8 = 0#8 ↔ 2 ≤ b.toNat := by decide

/-- A byte with a bit above bit 1. -/
theorem and_0xFC_ne_zero_iff : ∀ b : Byte, ¬ b &&& 0xFC#8 = 0#8 ↔ 4 ≤ b.toNat := by decide

theorem and_0xFF_eq (b : Byte) : b &&& 0xFF#8 = b := BitVec.and_allOnes

/-- The must-be-zero check on a header's bytes is the one on the command word (rule R105). -/
theorem mbzBroken_iff (flg sel rsv : Byte) (op : Opcode) :
    mbzBroken op.code flg sel rsv = true ↔ BitVec.ofNat 32 (be [op.code, flg, sel, rsv]) &&& op.mbz ≠ 0 := by
  rw [ne_eq, cw_and_mbz_eq_zero_iff]
  cases op <;>
    simp [mbzBroken, Opcode.code, Opcode.mbz, and_0xFF_eq, and_0xFE_ne_zero_iff, and_0xFC_ne_zero_iff, imp_iff_not_or,
      or_assoc]

-- ---------------------------------------------------------------- the frame checks

/-- The bytes that name no command (rule R108 step 1). -/
theorem Opcode.ofByte_eq_none_iff {b : Byte} : Opcode.ofByte b = none ↔
    b.toNat ∉ [0x01, 0x10, 0x11, 0x12, 0x13, 0x20, 0x21, 0x22, 0x23] := by
  have hcodes : [0x01, 0x10, 0x11, 0x12, 0x13, 0x20, 0x21, 0x22, 0x23] = Opcode.all.map fun op => op.code.toNat := rfl
  rw [hcodes]
  simp [Opcode.ofByte, BitVec.toNat_inj]

/-- The commands without a payload, by their code (rule R105). -/
theorem Opcode.noPayload_iff (op : Opcode) : op.noPayload = true ↔ op.code.toNat ∈ [0x01, 0x13, 0x23] := by
  cases op <;> decide

theorem getLsbD_zero_iff (b : Byte) : b.getLsbD 0 = true ↔ b.toNat % 2 = 1 := by simp [BitVec.getLsbD]

theorem getLsbD_one_iff (b : Byte) : b.getLsbD 1 = true ↔ b.toNat / 2 % 2 = 1 := by
  simp [BitVec.getLsbD, Nat.testBit_eq_decide_div_mod_eq]

/-- The frame checks on a header's bytes and those on the frame's fields agree (rule R108). -/
theorem checkFrame_cases {opc flg sel rsv : Byte} {f : Frame} (hcw : f.cw = BitVec.ofNat 32 (be [opc, flg, sel, rsv])) :
    (∃ op, checkFrame f = .ok op ∧ frameFailure opc flg sel rsv f.pay.length = none) ∨
    ∃ why, checkFrame f = .error why ∧ frameFailure opc flg sel rsv f.pay.length = some why.kind := by
  cases ho : Opcode.ofByte opc with
  | none =>
    exact .inr ⟨.unknownOpcode, by rw [checkFrame, Frame.opc_eq hcw, ho], if_pos (Opcode.ofByte_eq_none_iff.1 ho)⟩
  | some op =>
    have hknown := (Opcode.ofByte_eq_none_iff (b := opc)).not.1 (by simp [ho])
    obtain rfl := Opcode.ofByte_eq_some ho
    simp only [checkFrame, Frame.opc_eq hcw, Frame.np_eq hcw, hcw, ho, frameFailure, if_neg hknown, mbzBroken_iff,
      Opcode.noPayload_iff, getLsbD_zero_iff]
    split_ifs
    · exact .inr ⟨.reservedBitSet, rfl, rfl⟩
    · exact .inr ⟨.nullWithPayload, rfl, rfl⟩
    · exact .inr ⟨.unexpectedPayload, rfl, rfl⟩
    · exact .inl ⟨op, rfl, rfl⟩

-- ---------------------------------------------------------------- the command of a frame

/-- A bit that must be zero is zero. -/
theorem getLsbD_of_and_eq_zero {w : Nat} {x m : BitVec w} (h : x &&& m = 0) {i : Nat} (hm : m.getLsbD i = true) :
    x.getLsbD i = false := by
  have hbit : (x &&& m).getLsbD i = false := by rw [h]; simp
  simpa [hm] using hbit

/-- The operand of a frame's command is the frame's: where the command takes none, `NP` must be 0 and `PAY` empty. -/
theorem Frame.instr_operand {f : Frame} {op : Opcode} (h : checkFrame f = .ok op) : (f.instr op).operand = f.operand := by
  obtain ⟨_, hmbz, _, hpay⟩ := checkFrame_ok_iff.1 h
  have hempty (hn : op.noPayload = true) : f.operand = some [] := by
    have hbit : op.mbz.getLsbD 16 = true := by revert hn; cases op <;> decide
    rw [Frame.operand, Frame.np, getLsbD_of_and_eq_zero hmbz hbit, hpay hn]
    rfl
  cases op with
  | sysReset | fnCaps | meCaps => exact (hempty rfl).symm
  | fnInit | fnEnc | fnDec | meInit | meEnc | meDec => rfl

/-- The `SEL` byte of a frame's command is the frame's: where the command does not use it, it must be 0. -/
theorem Frame.instr_sel {f : Frame} {op : Opcode} (h : checkFrame f = .ok op) : (f.instr op).sel = f.sel := by
  obtain ⟨_, hmbz, _, _⟩ := checkFrame_ok_iff.1 h
  have hzero (hbits : ∀ i < 8, op.mbz.getLsbD (8 + i) = true) : 0 = f.sel := by
    apply BitVec.eq_of_getLsbD_eq
    intro i hi
    simp [Frame.sel, getLsbD_of_and_eq_zero hmbz (hbits i hi)]
  cases op with
  | meInit | meCaps => rfl
  | sysReset | fnInit | fnEnc | fnDec | fnCaps | meEnc | meDec => exact hzero (by decide)

/-- A command is well-formed when its payload fits `LEN`. -/
theorem Instr.wf_iff (i : Instr) : i.wf = true ↔ i.payload.length ≤ maxLen := by
  have hwf : i.wf = Operand.wf i.operand := by cases i <;> rfl
  rw [hwf, Instr.payload]
  cases i.operand <;> simp [Operand.wf]

-- ---------------------------------------------------------------- what the decoder answers

/-- Everything the decoder can answer: it waits, or it has read a frame and answers what the frame checks say. -/
theorem decode_cases (stream : Bytes) : (readFrame stream = none ∧ decode stream = .waiting) ∨
    ∃ f rest, readFrame stream = some (f, rest) ∧
      ((∃ why, checkFrame f = .error why ∧ decode stream = .rejected why rest) ∨
        ∃ op, checkFrame f = .ok op ∧ decode stream = .command (f.instr op) rest) := by
  cases hread : readFrame stream with
  | none => exact .inl ⟨rfl, decode_waiting hread⟩
  | some read =>
    obtain ⟨f, rest⟩ := read
    refine .inr ⟨f, rest, rfl, ?_⟩
    cases hcheck : checkFrame f with
    | error why => exact .inl ⟨why, rfl, decode_rejected hread hcheck⟩
    | ok op => exact .inr ⟨op, rfl, decode_command hread hcheck⟩

/-- The header of a frame the engine reads: 16 bytes, the first of them `OPC`, and `LEN` counts the payload (rules R101,
R102). -/
theorem exists_header_of_readFrame {stream rest : Bytes} {f : Frame} (h : readFrame stream = some (f, rest)) :
    ∃ hdr : Bytes, hdr.length = 16 ∧ hdr.head? = some f.opc ∧ be ((hdr.drop 4).take 4) = f.pay.length ∧
      f.pay.length ≤ maxLen ∧ stream = hdr ++ (f.pay ++ rest) := by
  obtain ⟨opc, flg, sel, rsv, l0, l1, l2, l3, s0, s1, s2, s3, s4, s5, s6, s7, hstream, hlen, hcw, _⟩ :=
    readFrame_eq_some h
  have hmax : f.pay.length ≤ maxLen := by
    have hlt := be_lt [l0, l1, l2, l3]
    rw [hlen] at hlt
    simp only [List.length_cons, List.length_nil] at hlt
    simp only [maxLen]
    omega
  exact ⟨[opc, flg, sel, rsv, l0, l1, l2, l3, s0, s1, s2, s3, s4, s5, s6, s7], rfl,
    congrArg some (Frame.opc_eq hcw).symm, hlen, hmax, hstream⟩

/-- Reading a frame whose seed field is a sequence of eight bytes (rules R101, R102). -/
theorem exists_readFrame {opc flg sel rsv l0 l1 l2 l3 : Byte} {seed pay : Bytes}
    (hlen : be [l0, l1, l2, l3] = pay.length) (hseed : seed.length = 8) (rest : Bytes) :
    ∃ f, readFrame ([opc, flg, sel, rsv, l0, l1, l2, l3] ++ seed ++ pay ++ rest) = some (f, rest) ∧
      f.cw = BitVec.ofNat 32 (be [opc, flg, sel, rsv]) ∧ f.seed = BitVec.ofNat 64 (be seed) ∧ f.pay = pay := by
  match seed, hseed with
  | [_, _, _, _, _, _, _, _], _ => exact ⟨_, readFrame_whole hlen, rfl, rfl, rfl⟩

/-- Settles O2: the decoder's frame has its header, and the command's payload is the frame's. -/
theorem decodedCommandComesFromItsFrame : Obligations.DecodedCommandComesFromItsFrame := by
  intro stream i rest h
  rcases decode_cases stream with ⟨_, hd⟩ | ⟨f, rest', hread, ⟨why, _, hd⟩ | ⟨op, hcheck, hd⟩⟩
  · cases hd.symm.trans h
  · cases hd.symm.trans h
  · cases hd.symm.trans h
    obtain ⟨hdr, hlen, hopc, hcount, hmax, hstream⟩ := exists_header_of_readFrame hread
    obtain ⟨hcode, _⟩ := checkFrame_ok_iff.1 hcheck
    rw [Instr.wf_iff, Frame.instr_payload hcheck, Frame.instr_opcode, ← hcode]
    exact ⟨hmax, hdr, hlen, hopc, hcount, hstream⟩

/-- Settles O3: the frame is read whole, and the frame checks answer what its bytes say (`checkFrame_cases`). -/
theorem malformedFramesFailInOrder : Obligations.MalformedFramesFailInOrder := by
  intro s opc flg sel rsv l0 l1 l2 l3 seed pay rest k hlen hseed hstream hfail
  refine ⟨?_, rfl⟩
  obtain ⟨f, hread, hcw, _, rfl⟩ := exists_readFrame hlen hseed rest
  rcases checkFrame_cases hcw with ⟨op, _, hnone⟩ | ⟨why, hcheck, hsome⟩
  · cases hnone.symm.trans hfail
  · cases hsome.symm.trans hfail
    rw [step, runNext, hstream, decode_rejected hread hcheck]
    exact fail_eq _ _

/-- Settles O4: the frame checks pass (`checkFrame_cases`), and the command's operand, `SEL` and seed are the frame's. -/
theorem wellMadeFramesDecode : Obligations.WellMadeFramesDecode := by
  intro opc flg sel rsv l0 l1 l2 l3 seed pay rest hlen hseed hfail
  obtain ⟨f, hread, hcw, hfseed, rfl⟩ := exists_readFrame hlen hseed rest
  rcases checkFrame_cases hcw with ⟨op, hcheck, _⟩ | ⟨why, _, hsome⟩
  · obtain ⟨hcode, _⟩ := checkFrame_ok_iff.1 hcheck
    refine ⟨f.instr op, decode_command hread hcheck, ?_, ?_, ?_, fun hop => ?_⟩
    · rw [Frame.instr_opcode, ← hcode, Frame.opc_eq hcw]
    · simp only [Frame.instr_operand hcheck, Frame.operand, Frame.np_eq hcw, getLsbD_zero_iff]
    · rw [Frame.instr_sel hcheck, Frame.sel_eq hcw]
    · obtain rfl : op = .meInit := by rwa [Frame.instr_opcode] at hop
      simp only [Frame.instr, Instr.seed, Frame.sv_eq hcw, getLsbD_one_iff, hfseed]
  · cases hfail.symm.trans hsome

/-- Settles O7, by evaluating the encoder on the seventeen frames. -/
theorem workedFramesOfTheSpec : Obligations.WorkedFramesOfTheSpec := by
  unfold Obligations.WorkedFramesOfTheSpec
  decide

-- ---------------------------------------------------------------- one response per frame

/-- A transform touches neither stream. -/
theorem Machine.Transformed.streams {c : Params} {d : Dir} {data : Bytes} {s t : State} (h : Transformed c d data s t) :
    t.cmdStream = s.cmdStream ∧ t.responses = s.responses := by
  obtain ⟨n, fb, delta, rfl, _⟩ := h.registers
  simp [State.commitTransform]

/-- What a command writes before its response is sent touches neither stream. -/
theorem Machine.Writes.streams {c : Params} {i : Instr} {s t : State} (h : Writes c s i t) :
    t.cmdStream = s.cmdStream ∧ t.responses = s.responses := by
  cases h with
  | sysReset | fnInit | fnEnc | fnDec | fnCaps | meCaps | meInitEcb => exact ⟨rfl, rfl⟩
  | meInitIv => simp [openWithIv_eq]
  | meEnc _ _ h | meDec _ _ h => exact h.streams

/-- A command that answers sends one response and leaves the command stream alone. -/
theorem Machine.Answered.streams {c : Params} {i : Instr} {s t : State} (h : Answered c i s t) :
    t.cmdStream = s.cmdStream ∧ ∃ r, t.responses = s.responses ++ [r] := by
  rcases h with ⟨k, rfl⟩ | ⟨out, u, hw, rfl⟩
  · exact ⟨rfl, _, rfl⟩
  · obtain ⟨hcmd, hresp⟩ := hw.streams
    exact ⟨hcmd, .ok out, congrArg (· ++ [Response.ok out]) hresp⟩

/-- Settles O49: a step that does not wait has read a frame, and rejecting it or running its command answers once. -/
theorem oneResponsePerFrame : Obligations.OneResponsePerFrame := by
  intro s t h
  rcases decode_cases s.cmdStream with ⟨_, hd⟩ | ⟨f, rest, hread, hd⟩
  · rw [step, runNext, hd] at h
    cases h
    exact .inl rfl
  · have hanswer : t.cmdStream = rest ∧ ∃ r, t.responses = s.responses ++ [r] := by
      rcases hd with ⟨why, _, hd⟩ | ⟨op, _, hd⟩ <;> rw [step, runNext, hd] at h
      · cases h
        exact ⟨rfl, _, rfl⟩
      · exact (exec_next h).streams
    obtain ⟨rfl, r, hresp⟩ := hanswer
    obtain ⟨hdr, hlen, _, hcount, _, hstream⟩ := exists_header_of_readFrame hread
    have hfront : ((hdr ++ f.pay).drop 4).take 4 = (hdr.drop 4).take 4 := by
      rw [List.drop_append_of_le_length (by omega), List.take_append_of_le_length (by simp [hlen])]
    exact .inr ⟨hdr ++ f.pay, r, by rw [hstream, List.append_assoc],
      by rw [hfront, hcount, List.length_append, hlen], hresp⟩

-- ---------------------------------------------------------------- responses

theorem FailKind.ofCode_code (k : FailKind) : FailKind.ofCode k.code = some k := by cases k <;> decide

/-- Status 0 is OK and no failure (rule R111). -/
theorem FailKind.code_ne_zero (k : FailKind) : k.code ≠ 0#8 := by cases k <;> decide

/-- An OK frame whose `LEN` counts the payload (rule R110). -/
theorem Response.decode_ok {l0 l1 l2 l3 : Byte} {pay : Bytes} (h : be [l0, l1, l2, l3] = pay.length) (rest : Bytes) :
    Response.decode ([0, 0, 0, 0, l0, l1, l2, l3] ++ pay ++ rest) = some (.ok pay, rest) := by
  simp only [List.cons_append, List.nil_append, Response.decode, h]
  simp

/-- A failure frame (rule R111). -/
theorem Response.decode_failure (k : FailKind) (rest : Bytes) :
    Response.decode ((Response.failure k).encode ++ rest) = some (.failure k, rest) := by
  change Response.decode (k.code :: 0 :: 0 :: 0 :: 0 :: 0 :: 0 :: 0 :: rest) = _
  simp [Response.decode, be, FailKind.ofCode_code, FailKind.code_ne_zero]

/-- Settles O9: a payload that fits `LEN` is counted by it (`be_beBytes`), and the status says which response it is. -/
theorem responseFramesReadBack : Obligations.ResponseFramesReadBack := by
  intro r rest hmax
  cases r with
  | failure k => exact Response.decode_failure k rest
  | ok pay =>
    have hlen : be (beBytes 4 pay.length) = pay.length := by
      rw [be_beBytes]
      exact Nat.mod_eq_of_lt (Nat.lt_of_le_pred (by decide) (hmax pay rfl))
    exact Response.decode_ok hlen rest

end Sys2Proof
end

section
/-! SUPPORT. The statements about the byte-arithmetic unit (spec/40_byte_arith.md): what the carry loops of rules R145 and
R146 leave undone is their final carry, so that on `n` bytes `AddMod` and `MulMod32` are the sum and the product of numbers
under `be_n`, and the laws of rule R147 are those of the natural numbers. -/

namespace Sys2Proof.Machine

-- ---------------------------------------------------------------- byte sequences as numbers modulo 256^n

/-- `be_n` of rule R8 sees its argument modulo `256^n` only. -/
theorem beBytes_mod (n v : Nat) : beBytes n (v % 256 ^ n) = beBytes n v :=
  be_injective (by simp) (by simp only [be_beBytes, Nat.mod_mod])

/-- Writing back what `be` read. -/
theorem beBytes_be (a : Bytes) : beBytes a.length (be a) = a :=
  be_injective (by simp) (by rw [be_beBytes, Nat.mod_eq_of_lt (be_lt a)])

/-- Every byte sequence of length `n` is `be_n` of a number. -/
theorem exists_eq_beBytes {n : Nat} {a : Bytes} (h : a.length = n) : ∃ x, a = beBytes n x :=
  ⟨be a, by rw [← h, beBytes_be]⟩

/-- A byte sequence that makes up the number `v` together with a carry out of its top is `be_n(v mod 256^n)`. -/
theorem eq_beBytes_of_carry {n v carry : Nat} {out : Bytes} (hlen : out.length = n)
    (h : be out + carry * 256 ^ n = v) : out = beBytes n (v % 256 ^ n) := by
  subst hlen
  rw [← h, Nat.add_mul_mod_self_right, beBytes_mod, beBytes_be]

theorem zeros_eq_beBytes (n : Nat) : zeros n = beBytes n 0 := by
  induction n with
  | zero => rfl
  | succ n ih =>
    rw [beBytes, ← ih, Nat.zero_div]
    rfl

-- ---------------------------------------------------------------- the carry loops

/-- One byte of a carry loop: of the column total `t`, the low byte is written and the rest carried on. -/
theorem be_ofNat_cons_add_carry (t : Nat) (out : Bytes) :
    be (BitVec.ofNat 8 t :: out) + t / 256 * 256 ^ (out.length + 1) = t * 256 ^ out.length + be out := by
  have hbyte : t % 256 + 256 * (t / 256) = t := Nat.mod_add_div t 256
  calc be (BitVec.ofNat 8 t :: out) + t / 256 * 256 ^ (out.length + 1)
      = (t % 256 + 256 * (t / 256)) * 256 ^ out.length + be out := by
        simp only [be, BitVec.toNat_ofNat, Nat.reducePow, Nat.pow_succ]
        ring
    _ = t * 256 ^ out.length + be out := by rw [hbyte]

/-- The loop of `AddMod` and its final carry make up the sum (rule R145). -/
theorem be_addLoop : ∀ {a b : Bytes}, a.length = b.length →
    be (addLoop a b).1 + (addLoop a b).2 * 256 ^ a.length = be a + be b
  | [], [], _ => rfl
  | [], _ :: _, h => by simp at h
  | _ :: _, [], h => by simp at h
  | x :: xs, y :: ys, h => by
    have hlen : xs.length = ys.length := by simpa using h
    have ih := be_addLoop hlen
    have hcol := be_ofNat_cons_add_carry (x.toNat + y.toNat + (addLoop xs ys).2) (addLoop xs ys).1
    rw [addLoop_length hlen] at hcol
    rw [addLoop, List.length_cons, hcol, be, be, ← hlen]
    linarith

/-- The loop of `MulMod32` and its final carry make up the product (rule R146). -/
theorem be_mulLoop (m : Nat) (a : Bytes) :
    be (mulLoop m a).1 + (mulLoop m a).2 * 256 ^ a.length = be a * m := by
  induction a with
  | nil => simp [mulLoop, be]
  | cons x xs ih =>
    have hcol := be_ofNat_cons_add_carry (x.toNat * m + (mulLoop m xs).2) (mulLoop m xs).1
    rw [mulLoop_length] at hcol
    rw [mulLoop, List.length_cons, hcol, be]
    linarith

-- ---------------------------------------------------------------- AddMod and MulMod32

/-- Settles O10: the loop makes up the sum with its final carry (`be_addLoop`), which `AddMod` drops. -/
theorem addModAddsModuloThePower : Obligations.AddModAddsModuloThePower := by
  intro a b hlen hpos
  rw [addMod, if_pos ⟨hlen, hpos⟩, eq_beBytes_of_carry (addLoop_length hlen) (be_addLoop hlen)]

/-- Settles O11: the loop makes up the product with its final carry (`be_mulLoop`), which `MulMod32` drops. -/
theorem mulMod32MultipliesModuloThePower : Obligations.MulMod32MultipliesModuloThePower := by
  intro a m hpos
  simp only [mulMod32, hpos, true_and, ← eq_beBytes_of_carry (mulLoop_length m a) (be_mulLoop m a)]

/-- On `n` bytes `AddMod` adds under `be_n`. -/
theorem addMod_beBytes {n : Nat} (hn : 1 ≤ n) (x y : Nat) :
    addMod (beBytes n x) (beBytes n y) = some (beBytes n (x + y)) := by
  rw [addModAddsModuloThePower _ _ (by simp) (by simpa using hn)]
  simp only [beBytes_length, be_beBytes, ← Nat.add_mod, beBytes_mod]

/-- On `n` bytes `MulMod32` multiplies under `be_n`. -/
theorem mulMod32_beBytes {n m : Nat} (hn : 1 ≤ n) (hm : m < 2 ^ 32) (x : Nat) :
    mulMod32 (beBytes n x) m = some (beBytes n (x * m)) := by
  rw [mulMod32MultipliesModuloThePower _ _ (by simpa using hn), if_pos hm]
  simp only [beBytes_length, be_beBytes, Nat.mod_mul_mod, beBytes_mod]

/-- `m`-fold addition multiplies under `be_n`. -/
theorem timesByAddition_beBytes {n : Nat} (hn : 1 ≤ n) (x m : Nat) :
    timesByAddition (beBytes n x) m = some (beBytes n (x * m)) := by
  induction m with
  | zero => simp [timesByAddition, zeros_eq_beBytes]
  | succ m ih => rw [timesByAddition, ih, Option.bind_some, addMod_beBytes hn, Nat.mul_succ]

/-- Settles O13: every operand is `be_n` of a number, under which the laws are those of the natural numbers. -/
theorem modularArithmeticLaws : Obligations.ModularArithmeticLaws := by
  intro a b e m hn hb he hm
  generalize hlen : a.length = n at hn hb he
  obtain ⟨x, rfl⟩ := exists_eq_beBytes hlen
  obtain ⟨y, rfl⟩ := exists_eq_beBytes hb
  obtain ⟨z, rfl⟩ := exists_eq_beBytes he
  have hadd := addMod_beBytes hn
  have hmul := mulMod32_beBytes hn hm
  simp only [zeros_eq_beBytes, hadd, hmul, timesByAddition_beBytes hn, Option.bind_some, Nat.add_zero, true_and]
  refine ⟨by rw [Nat.add_comm], by rw [Nat.add_assoc], by rw [Nat.add_mul], fun hm' => ?_⟩
  rw [mulMod32_beBytes hn hm', Option.bind_some, hadd, Nat.mul_succ, Nat.add_assoc]

-- ---------------------------------------------------------------- CtrAdd

/-- `CtrAdd` with the last 8 bytes named: the bytes before them pass through (rule R148). -/
theorem ctrAdd_append {pre last : Bytes} (h : last.length = 8) (i : Nat) :
    ctrAdd (pre ++ last) i = some (pre ++ beBytes 8 ((be last + i) % 2 ^ 64)) := by
  have hpre : (pre ++ last).length - 8 = pre.length := by rw [List.length_append, h, Nat.add_sub_cancel]
  rw [ctrAdd, if_pos (by simp [h]), hpre, List.take_left, List.drop_left]

/-- Settles O12: `ctrAdd_append`, with a count that depends on `i` modulo `2^64` only. -/
theorem ctrAddCountsInTheLastEightBytes : Obligations.CtrAddCountsInTheLastEightBytes := by
  refine ⟨fun pre last i h => ?_, fun iv i h => if_neg (by omega)⟩
  have hlast : beBytes 8 (be last) = last := by rw [← h, beBytes_be]
  have hlt : be last < 2 ^ 64 := by simpa [h] using be_lt last
  refine ⟨beBytes 8 ((be last + i) % 2 ^ 64), ctrAdd_append h i, beBytes_length _ _, ?_, ?_, ?_⟩
  · rw [be_beBytes]
    exact Nat.mod_mod _ _
  · rw [ctrAdd_append h, ← Nat.add_assoc, Nat.add_mod_right]
  · rw [ctrAdd_append h, Nat.add_zero, Nat.mod_eq_of_lt hlt, hlast]

-- ---------------------------------------------------------------- Split

theorem takeBlocks_flatten {size n : Nat} {d : Bytes} (h : d.length = size * n) :
    (takeBlocks size n d).flatten = d := by
  induction n generalizing d with
  | zero => exact (List.eq_nil_of_length_eq_zero h).symm
  | succ n ih =>
    have hrest : (d.drop size).length = size * n := by rw [List.length_drop, h, Nat.mul_succ, Nat.add_sub_cancel]
    rw [takeBlocks, List.flatten_cons, ih hrest, List.take_append_drop]

theorem takeBlocks_getD {size n i : Nat} (h : i < n) (d : Bytes) :
    (takeBlocks size n d).getD i [] = (d.drop (i * size)).take size := by
  induction n generalizing i d with
  | zero => cases h
  | succ n ih =>
    cases i with
    | zero => simp [takeBlocks]
    | succ i =>
      rw [takeBlocks, List.getD_cons_succ, ih (Nat.lt_of_succ_lt_succ h), List.drop_drop, Nat.succ_mul, Nat.add_comm]

/-- Settles O14: on aligned data the `n / B` blocks taken off the front use up the data. -/
theorem splitCutsIntoBlocks : Obligations.SplitCutsIntoBlocks := by
  intro size d _ halign
  have hlen : d.length = size * (d.length / size) := (Nat.mul_div_cancel' (Nat.dvd_of_mod_eq_zero halign)).symm
  refine ⟨_, split_eq_some halign, takeBlocks_length _ _ _, takeBlocks_flatten hlen, fun i hi => ?_⟩
  refine ⟨takeBlocks_getD (by simpa using hi) d, takeBlocks_mem_length hlen _ ?_⟩
  rw [List.getD_eq_getElem _ _ hi]
  exact List.getElem_mem hi

end Sys2Proof.Machine
end

section
/-! SUPPORT. The statements about the Feistel core (spec/41_feistel.md): a forward round and the backward round of its
round key are converse relations on datapath pairs, whatever the round function, and so are the networks, the two calls of
the block-cipher port and, on a core in one state, the two commands. -/

namespace Sys2Proof.Machine

-- ---------------------------------------------------------------- the rounds

/-- A forward round and the backward round of its round key are converse: the second exclusive-or undoes the first. -/
theorem encRound_eq_some_iff_decRound {c : Params} {k : Bytes} {p q : Bytes × Bytes} :
    encRound c p k = some q ↔ decRound c k q = some p := by
  obtain ⟨l, r⟩ := p
  obtain ⟨l', r'⟩ := q
  simp only [encRound, decRound, xor, Params.rf_length, Option.bind_eq_bind, Option.pure_def, Option.bind_eq_some_iff,
    Option.ite_none_right_eq_some, Option.some.injEq, Prod.mk.injEq]
  constructor
  · rintro ⟨_, ⟨hl, rfl⟩, rfl, rfl⟩
    exact ⟨_, ⟨by simp [hl], rfl⟩, zipXor_cancel (by simp [hl]), rfl⟩
  · rintro ⟨_, ⟨hr, rfl⟩, rfl, rfl⟩
    exact ⟨_, ⟨by simp [hr], rfl⟩, rfl, zipXor_cancel (by simp [hr])⟩

/-- The forward rounds and the backward rounds are converse. -/
theorem encRounds_eq_some_iff_decRounds {c : Params} {rks : List Bytes} {p q : Bytes × Bytes} :
    encRounds c rks p = some q ↔ decRounds c rks q = some p := by
  induction rks generalizing p with
  | nil => simp [encRounds, decRounds, eq_comm]
  | cons k ks ih =>
    simp only [encRounds, decRounds, Option.bind_eq_bind, Option.bind_eq_some_iff, encRound_eq_some_iff_decRound, ih,
      and_comm]

/-- One more round key at the end is one more forward round (rule R176). -/
theorem encRounds_concat (c : Params) (rks : List Bytes) (k : Bytes) (p : Bytes × Bytes) :
    encRounds c (rks ++ [k]) p = (encRounds c rks p).bind fun q => encRound c q k := by
  induction rks generalizing p with
  | nil => simp [encRounds]
  | cons k' ks ih => simp only [List.cons_append, encRounds, ih, Option.bind_eq_bind, Option.bind_assoc]

/-- The forward rounds keep half-blocks. -/
theorem Halves.of_encRounds {c : Params} {rks : List Bytes} {p q : Bytes × Bytes} (hp : Halves c p)
    (h : encRounds c rks p = some q) : Halves c q := by
  obtain ⟨_, hq, hhalves⟩ := encRounds_some rks hp
  cases h.symm.trans hq
  exact hhalves

/-- The backward rounds keep half-blocks. -/
theorem Halves.of_decRounds {c : Params} {rks : List Bytes} {p q : Bytes × Bytes} (hp : Halves c p)
    (h : decRounds c rks p = some q) : Halves c q := by
  obtain ⟨_, hq, hhalves⟩ := decRounds_some rks hp
  cases h.symm.trans hq
  exact hhalves

-- ---------------------------------------------------------------- the networks

/-- `SplitHalves` answers exactly the half-blocks that join to its operand (rule R144). -/
theorem splitHalves_eq_some_iff {c : Params} {b : Bytes} {p : Bytes × Bytes} :
    splitHalves c.half b = some p ↔ Halves c p ∧ p.1 ++ p.2 = b := by
  constructor
  · intro h
    by_cases hb : b.length = c.blockSize
    · obtain ⟨hsplit, hhalves⟩ := splitHalves_eq_some hb
      cases h.symm.trans hsplit
      exact ⟨hhalves, List.take_append_drop _ _⟩
    · cases h.symm.trans (splitHalves_eq_none hb)
  · rintro ⟨⟨hl, hr⟩, rfl⟩
    rw [splitHalves, if_pos (by rw [List.length_append, hl, hr, Nat.two_mul]), List.take_left' hl, List.drop_left' hl]

/-- A network whose rounds keep half-blocks takes the halves of one block to the halves of another. -/
theorem network_eq_some_iff {c : Params} {rounds : Bytes × Bytes → Option (Bytes × Bytes)}
    (hrounds : ∀ {p q}, Halves c p → rounds p = some q → Halves c q) {b x : Bytes} :
    ((splitHalves c.half b).bind fun p => (rounds p).bind fun q => some (q.1 ++ q.2)) = some x ↔
      ∃ p q, splitHalves c.half b = some p ∧ rounds p = some q ∧ splitHalves c.half x = some q := by
  simp only [Option.bind_eq_some_iff, Option.some.injEq]
  constructor
  · rintro ⟨p, hp, q, hq, hx⟩
    exact ⟨p, q, hp, hq, splitHalves_eq_some_iff.2 ⟨hrounds (splitHalves_eq_some_iff.1 hp).1 hq, hx⟩⟩
  · rintro ⟨p, q, hp, hq, hx⟩
    exact ⟨p, hp, q, hq, (splitHalves_eq_some_iff.1 hx).2⟩

theorem feistelEnc_eq_some_iff {c : Params} {rks : List Bytes} {b x : Bytes} :
    feistelEnc c rks b = some x ↔ ∃ p q, splitHalves c.half b = some p ∧ encRounds c rks p = some q ∧
      splitHalves c.half x = some q := network_eq_some_iff Halves.of_encRounds

theorem feistelDec_eq_some_iff {c : Params} {rks : List Bytes} {b x : Bytes} :
    feistelDec c rks b = some x ↔ ∃ p q, splitHalves c.half b = some p ∧ decRounds c rks p = some q ∧
      splitHalves c.half x = some q := network_eq_some_iff Halves.of_decRounds

/-- The two networks are converse (rule R182). -/
theorem feistelEnc_eq_some_iff_feistelDec {c : Params} {rks : List Bytes} {b x : Bytes} :
    feistelEnc c rks b = some x ↔ feistelDec c rks x = some b := by
  rw [feistelEnc_eq_some_iff, feistelDec_eq_some_iff, exists_comm]
  simp only [encRounds_eq_some_iff_decRounds]
  exact exists_congr fun q => exists_congr fun p => ⟨fun ⟨hp, h, hq⟩ => ⟨hq, h, hp⟩, fun ⟨hq, h, hp⟩ => ⟨hp, h, hq⟩⟩

/-- A byte sequence that is no block has no value under either network (rule R140; 93 U6). -/
theorem feistel_eq_none {c : Params} {b : Bytes} (h : b.length ≠ c.blockSize) (rks : List Bytes) :
    feistelEnc c rks b = none ∧ feistelDec c rks b = none := by
  simp [feistelEnc, feistelDec, splitHalves_eq_none h]

/-- Settles O15: both networks have a value on a block, and they are converse. -/
theorem feistelNetworksInvertEachOther : Obligations.FeistelNetworksInvertEachOther := by
  intro c rks block hblock
  obtain ⟨_, _, _, hx, hxlen⟩ := feistelEnc_some rks hblock
  obtain ⟨_, _, _, hy, hylen⟩ := feistelDec_some rks hblock
  exact ⟨_, _, hx, hxlen, hy, hylen, feistelEnc_eq_some_iff_feistelDec.1 hx, feistelEnc_eq_some_iff_feistelDec.2 hy⟩

/-- The forward network joins what the forward rounds make of the block's halves. -/
theorem feistelEnc_of_encRounds {c : Params} {rks : List Bytes} {b : Bytes} {q : Bytes × Bytes}
    (hblock : b.length = c.blockSize) (hq : encRounds c rks (b.take c.half, b.drop c.half) = some q) :
    feistelEnc c rks b = some (q.1 ++ q.2) := by
  obtain ⟨hsplit, hhalves⟩ := splitHalves_eq_some hblock
  exact feistelEnc_eq_some_iff.2 ⟨_, q, hsplit, hq, splitHalves_eq_some_iff.2 ⟨hhalves.of_encRounds hq, rfl⟩⟩

/-- The backward network joins what the backward rounds make of the block's halves. -/
theorem feistelDec_of_decRounds {c : Params} {rks : List Bytes} {b : Bytes} {q : Bytes × Bytes}
    (hblock : b.length = c.blockSize) (hq : decRounds c rks (b.take c.half, b.drop c.half) = some q) :
    feistelDec c rks b = some (q.1 ++ q.2) := by
  obtain ⟨hsplit, hhalves⟩ := splitHalves_eq_some hblock
  exact feistelDec_eq_some_iff.2 ⟨_, q, hsplit, hq, splitHalves_eq_some_iff.2 ⟨hhalves.of_decRounds hq, rfl⟩⟩

/-- Settles O16: the added round key gives the last of the rounds that the block's halves go through. -/
theorem feistelNetworksRoundByRound : Obligations.FeistelNetworksRoundByRound := by
  intro c rks k block
  refine ⟨fun hblock => ?_, fun hblock => feistel_eq_none hblock rks⟩
  have hsplit := (splitHalves_eq_some hblock).1
  refine ⟨feistelEnc_eq_some_iff.2 ⟨_, _, hsplit, rfl, hsplit⟩, feistelDec_eq_some_iff.2 ⟨_, _, hsplit, rfl, hsplit⟩,
    ?_, ?_⟩
  · obtain ⟨q, hq, hhalves, henc, _⟩ := feistelEnc_some rks hblock
    have hlast : encRounds c (rks ++ [k]) (block.take c.half, block.drop c.half) =
        some (q.2, zipXor q.1 (c.rf q.2 k)) := by
      rw [encRounds_concat, hq, Option.bind_some, (encRound_eq k hhalves).1]
    refine ⟨_, henc, ?_⟩
    rw [List.take_left' hhalves.1, List.drop_left' hhalves.1, feistelEnc_of_encRounds hblock hlast]
  · obtain ⟨q, hq, hhalves, hdec, _⟩ := feistelDec_some rks hblock
    have hlast : decRounds c (k :: rks) (block.take c.half, block.drop c.half) =
        some (zipXor q.2 (c.rf q.1 k), q.1) := by
      rw [decRounds, hq, Option.bind_eq_bind, Option.bind_some, (decRound_eq k hhalves).1]
    refine ⟨_, hdec, ?_⟩
    rw [List.take_left' hhalves.1, List.drop_left' hhalves.1, feistelDec_of_decRounds hblock hlast]

-- ---------------------------------------------------------------- the block-cipher port

/-- The block cipher's Encrypt and Decrypt are converse, whichever way round `ADAPT_SWAP` puts the networks. -/
theorem blockEnc_eq_some_iff_blockDec {c : Params} {rks : List Bytes} {b x : Bytes} :
    blockEnc c rks b = some x ↔ blockDec c rks x = some b := by
  unfold blockEnc blockDec
  split
  · exact feistelEnc_eq_some_iff_feistelDec.symm
  · exact feistelEnc_eq_some_iff_feistelDec

/-- `BC.E` answers exactly on a ready core and a block, and there it is the block cipher's Encrypt (rule R180). -/
theorem bcE_eq_ok_iff {c : Params} {s : State} {b out : Bytes} :
    bcE c s (some b) = .ok out ↔ s.FnReady c ∧ b.length = c.blockSize ∧ blockEnc c s.fnRk b = some out := by
  rcases bcE_cases c s (some b) with ⟨_, hb, hinit, hkeys, hblock, hok⟩ | ⟨_, _, herr⟩
  · cases hb
    simp [hok, (blockEnc_some s.fnRk hblock).1, State.FnReady, hinit, hkeys, hblock]
  · refine ⟨fun h => by simp [herr] at h, fun ⟨⟨hinit, hkeys⟩, hblock, _⟩ => ?_⟩
    cases (bcE_ok hinit hkeys hblock).symm.trans herr

/-- `BC.D` answers exactly on a ready core and a block, and there it is the block cipher's Decrypt (rule R181). -/
theorem bcD_eq_ok_iff {c : Params} {s : State} {b out : Bytes} :
    bcD c s (some b) = .ok out ↔ s.FnReady c ∧ b.length = c.blockSize ∧ blockDec c s.fnRk b = some out := by
  rcases bcD_cases c s (some b) with ⟨_, hb, hinit, hkeys, hblock, hok⟩ | ⟨_, _, herr⟩
  · cases hb
    simp [hok, (blockDec_some s.fnRk hblock).1, State.FnReady, hinit, hkeys, hblock]
  · refine ⟨fun h => by simp [herr] at h, fun ⟨⟨hinit, hkeys⟩, hblock, _⟩ => ?_⟩
    cases (bcD_ok hinit hkeys hblock).symm.trans herr

/-- `BC.E` and `BC.D` are converse, in any one state of the core. -/
theorem bcE_eq_ok_iff_bcD {c : Params} {s : State} {b x : Bytes} :
    bcE c s (some b) = .ok x ↔ bcD c s (some x) = .ok b := by
  constructor
  · intro h
    obtain ⟨hready, _, henc⟩ := bcE_eq_ok_iff.1 h
    exact bcD_eq_ok_iff.2 ⟨hready, bcE_length h, blockEnc_eq_some_iff_blockDec.1 henc⟩
  · intro h
    obtain ⟨hready, _, hdec⟩ := bcD_eq_ok_iff.1 h
    exact bcE_eq_ok_iff.2 ⟨hready, bcD_length h, blockEnc_eq_some_iff_blockDec.2 hdec⟩

/-- Settles O17: `BC.E` and `BC.D` are `blockEnc` and `blockDec`, which choose by `ADAPT_SWAP`. -/
theorem adapterChoosesTheNetwork : Obligations.AdapterChoosesTheNetwork := by
  intro c s b hready hblock
  refine ⟨?_, fun y => bcE_eq_ok_iff_bcD.1, fun y => bcE_eq_ok_iff_bcD.2⟩
  obtain ⟨_, _, _, hx, _⟩ := feistelEnc_some s.fnRk hblock
  obtain ⟨_, _, _, hy, _⟩ := feistelDec_some s.fnRk hblock
  refine ⟨_, _, hx, hy, bcE_eq_ok_iff.2 ⟨hready, hblock, ?_⟩, bcD_eq_ok_iff.2 ⟨hready, hblock, ?_⟩⟩
  · rw [blockEnc, hx, hy, apply_ite some]
  · rw [blockDec, hx, hy, apply_ite some]

-- ---------------------------------------------------------------- FN_ENC and FN_DEC

/-- How `FN_ENC` and `FN_DEC` end, given what the port has answered. -/
def answerBlock (c : Params) (s : State) : Except Stop Bytes → Result
  | .error stop => stopIn s stop
  | .ok out => finish out (s.drawTransients c)

theorem fnEnc_eq_answerBlock (c : Params) (op : Operand) (s : State) : fnEnc c op s = answerBlock c s (bcE c s op) := by
  unfold fnEnc
  cases bcE c s op <;> rfl

theorem fnDec_eq_answerBlock (c : Params) (op : Operand) (s : State) : fnDec c op s = answerBlock c s (bcD c s op) := by
  unfold fnDec
  cases bcD c s op <;> rfl

theorem fnEnc_of_bcE {c : Params} {op : Operand} {s : State} {out : Bytes} (h : bcE c s op = .ok out) :
    fnEnc c op s = finish out (s.drawTransients c) := by
  rw [fnEnc_eq_answerBlock, h]
  rfl

theorem fnDec_of_bcD {c : Params} {op : Operand} {s : State} {out : Bytes} (h : bcD c s op = .ok out) :
    fnDec c op s = finish out (s.drawTransients c) := by
  rw [fnDec_eq_answerBlock, h]
  rfl

/-- A command that answers the bytes `out` has them from the port, and has left the round keys alone. -/
theorem answerBlock_answers {c : Params} {s t : State} {r : Except Stop Bytes} {out : Bytes}
    (h : answerBlock c s r = .next t) (hout : t.responses = s.responses ++ [.ok out]) :
    r = .ok out ∧ t.fnInit = s.fnInit ∧ t.fnRk = s.fnRk := by
  cases r with
  | ok out' =>
    cases h
    obtain rfl : out' = out := by simpa using hout
    exact ⟨rfl, rfl, rfl⟩
  | error stop =>
    rcases stopIn_cases s stop with ⟨k, rfl, _⟩ | ⟨why, rfl, _⟩
    · cases h
      simp at hout
    · cases h

/-- Settles O21: the port answers the cipher's block, and the transient registers are drawn as half-blocks. -/
theorem fnEncAnswersTheCipher : Obligations.FnEncAnswersTheCipher := by
  intro b s ⟨hinit, hkeys⟩ hblock
  have hport := bcE_ok hinit hkeys hblock
  have hexec : exec (.fnEnc (some b)) s = finish _ (s.drawTransients Config.params) := fnEnc_of_bcE hport
  exact ⟨_, _, _, _, hport, hexec, cipherEnc_length s.fnRk hblock, tabulate_length _ _, tabulate_length _ _⟩

/-- Settles O22: the port answers the cipher's block, and the transient registers are drawn as half-blocks. -/
theorem fnDecAnswersTheCipher : Obligations.FnDecAnswersTheCipher := by
  intro b s ⟨hinit, hkeys⟩ hblock
  have hport := bcD_ok hinit hkeys hblock
  have hexec : exec (.fnDec (some b)) s = finish _ (s.drawTransients Config.params) := fnDec_of_bcD hport
  exact ⟨_, _, _, _, hport, hexec, cipherDec_length s.fnRk hblock, tabulate_length _ _, tabulate_length _ _⟩

/-- Settles O24: the first command's answer is the port's, and the second command's port reads the same round keys and
undoes it. -/
theorem blockRoundTripThroughCommands : Obligations.BlockRoundTripThroughCommands := by
  intro b s t out _
  constructor
  · intro h hout
    obtain ⟨hport, hinit, hkeys⟩ := answerBlock_answers ((fnEnc_eq_answerBlock _ _ _).symm.trans h) hout
    have hback : bcD Config.params t (some out) = .ok b := by rw [bcD_congr hinit hkeys, ← bcE_eq_ok_iff_bcD, hport]
    exact ⟨_, fnDec_of_bcD hback, rfl⟩
  · intro h hout
    obtain ⟨hport, hinit, hkeys⟩ := answerBlock_answers ((fnDec_eq_answerBlock _ _ _).symm.trans h) hout
    have hback : bcE Config.params t (some out) = .ok b := by rw [bcE_congr hinit hkeys, bcE_eq_ok_iff_bcD, hport]
    exact ⟨_, fnEnc_of_bcE hback, rfl⟩

/-- A failed `FnCheck` fails both commands. -/
theorem fnEnc_fnDec_of_fnCheck {c : Params} {op : Operand} {s : State} {k : FailKind}
    (h : fnCheck c s op = .error (.failure k)) : fnEnc c op s = fail k s ∧ fnDec c op s = fail k s := by
  rw [fnEnc, fnDec, bcE, bcD, h]
  exact ⟨rfl, rfl⟩

/-- Settles O23: the four failures are `FnCheck`'s. -/
theorem fnCheckFailsInOrder : Obligations.FnCheckFailsInOrder := by
  intro op s k h
  suffices hcheck : fnCheck Config.params s op = .error (.failure k) from fnEnc_fnDec_of_fnCheck hcheck
  unfold fnCheck
  cases hinit : s.fnInit with
  | false => simpa [hinit] using h
  | true =>
    by_cases hkeys : s.fnRk.length = Config.params.rounds
    · cases op with
      | none => simpa [hinit, hkeys] using h
      | some b =>
        have hblock : b.length ≠ Config.params.blockSize := fun hb => by simp [hinit, hkeys, hb] at h
        simpa [hinit, hkeys, hblock] using h
    · simpa [hinit, hkeys] using h

-- ---------------------------------------------------------------- FN_INIT and FN_CAPS

/-- `FN_INIT` on a key: the checks of rule R172 in order, then the round keys. -/
theorem fnInit_some (c : Params) (key : Bytes) (s : State) : fnInit c (some key) s =
    if key.length = 0 then fail .invalidArgument s
    else if c.keyLenOk key.length = false then fail .invalidArgument s
    else if (c.ks key).length ≠ c.rounds then fail .invalidState s
    else finish [] { s with fnRk := c.ks key, fnInit := true } := by
  unfold fnInit keyCheck
  by_cases hempty : key.length = 0
  · simp [hempty, stopIn]
  · cases hlen : c.keyLenOk key.length with
    | false => simp [hempty, hlen, stopIn]
    | true => simp [hempty, hlen]

/-- Settles O19: `fnInit_some`, and a null key. -/
theorem fnInitChecksThenStoresRoundKeys : Obligations.FnInitChecksThenStoresRoundKeys := by
  intro key s
  cases key with
  | none => rfl
  | some key =>
    refine (fnInit_some Config.params key s).trans ?_
    simp only [fail_eq, finish_eq, ← apply_ite Host.Outcome.next]

/-- Settles O20: such a key passes the checks of `fnInit_some`. -/
theorem fnInitCompletes : Obligations.FnInitCompletes := by
  intro c key s hkey hlen hcount
  refine ⟨_, ?_, ⟨rfl, hcount⟩, rfl⟩
  refine (fnInit_some c key s).trans ?_
  rw [if_neg (mt List.eq_nil_of_length_eq_zero hkey), if_neg (by simp [hlen]), if_neg (not_not_intro hcount), finish_eq]

@[simp] theorem capsBlockSize_length (c : Params) : (capsBlockSize c).length = 4 := by
  unfold capsBlockSize
  split
  · exact beBytes_length _ _
  · exact tabulate_length _ _

/-- Where `B` fits 32 bits, `FN_CAPS` answers it. -/
theorem be_capsBlockSize {c : Params} (h : c.blockSize < 2 ^ 32) : be (capsBlockSize c) = c.blockSize := by
  rw [capsBlockSize, if_pos h, be_beBytes]
  exact Nat.mod_eq_of_lt h

/-- Settles O25: `FN_CAPS` answers `capsBlockSize` in every state. -/
theorem fnCapsAnswersTheBlockSize : Obligations.FnCapsAnswersTheBlockSize :=
  ⟨fun _ => ⟨_, capsBlockSize_length _, rfl⟩, fun _ _ h => ⟨_, capsBlockSize_length _, be_capsBlockSize h, rfl⟩⟩

end Sys2Proof.Machine
end

section
/-! SUPPORT. The statements about the mode engine's commands (spec/42_mode_common.md): `ME_CAPS` and `ME_INIT` on every
operand, the checks of `MeCheck`, and, for both directions at once, what a transform that is ready writes and answers and
what it does on empty input. -/

namespace Sys2Proof.Machine

-- ---------------------------------------------------------------- ME_CAPS and ME_INIT

/-- What `ME_CAPS` answers (rule R206). -/
def capsAnswer (sel : Byte) : Response :=
  match Mode.ofSel sel with
  | none => .failure .unsupported
  | some m => .ok [m.capsByte]

theorem meCaps_eq (sel : Byte) (s : State) : meCaps sel s = .next (s.respond (capsAnswer sel)) := by
  unfold meCaps capsAnswer
  cases Mode.ofSel sel <;> rfl

/-- The table of rule R206. -/
theorem capsAnswer_eq : ∀ sel : Byte, capsAnswer sel =
    if sel.toNat = 0 then .ok [1]
    else if sel.toNat ≤ 3 then .ok [3]
    else if sel.toNat ≤ 6 then .ok [2]
    else .failure .unsupported := by decide

/-- Settles O28: `ME_CAPS` only answers, and its answer is that of the table. -/
theorem meCapsAnswersTheModeFlags : Obligations.MeCapsAnswersTheModeFlags := by
  intro sel s
  rw [← capsAnswer_eq]
  exact meCaps_eq sel s

theorem modeOfNumber_toNat : ∀ sel : Byte, modeOfNumber sel.toNat = Mode.ofSel sel := by decide

theorem Mode.requiresIv_iff (m : Mode) : m.requiresIv = true ↔ m ≠ .ecb := by cases m <;> decide

theorem Mode.requiresPadding_iff (m : Mode) : m.requiresPadding = true ↔ m ∈ [Mode.ecb, .cbc, .pcbc, .cfb] := by
  cases m <;> decide

theorem Mode.ofSel_sel (m : Mode) : Mode.ofSel m.sel = some m := by cases m <;> rfl

section
variable {c : Params} {sel : Byte} {m : Mode} {seed : Option (BitVec 64)} {s : State}

/-- An ECB session does not look at the IV (rule R202). -/
theorem meInit_ecb (hsel : Mode.ofSel sel = some .ecb) (iv : Operand) :
    meInit c sel iv seed s = finish [] (openWithoutIv c .ecb s) := by
  rw [meInit, hsel]
  rfl

/-- A session of another mode does not open without an IV. -/
theorem meInit_null (hsel : Mode.ofSel sel = some m) (hmode : m ≠ .ecb) : meInit c sel none seed s =
    if m = .ctr ∧ c.blockSize < 8 then .refused .ctrBlockTooSmall else fail .invalidArgument s := by
  simp only [meInit, hsel, (Mode.requiresIv_iff m).2 hmode, ivCheck, stopIn, if_true]

/-- A session of another mode opens with an IV of one block. -/
theorem meInit_some (hsel : Mode.ofSel sel = some m) (hmode : m ≠ .ecb) (iv : Bytes) : meInit c sel (some iv) seed s =
    if m = .ctr ∧ c.blockSize < 8 then .refused .ctrBlockTooSmall
    else if iv.length ≠ c.blockSize then fail .invalidArgument s
    else finish [] (openWithIv c m iv seed s) := by
  simp only [meInit, hsel, (Mode.requiresIv_iff m).2 hmode, ivCheck, if_true]
  by_cases hiv : iv.length = c.blockSize <;> simp [hiv, stopIn]

end

/-- Settles O26: the free values are those drawn, and the session registers are `openWithIv_eq` and `openWithoutIv_eq`. -/
theorem meInitOpensASession : Obligations.MeInitOpensASession := by
  intro sel iv seed s
  refine ⟨tabulate _ (Config.params.freeIv s.draws), tabulate _ (Config.params.freeFb s.draws),
    tabulate _ (Config.params.freeDelta s.draws), Config.params.freeFirst s.draws, s.draws + 1,
    tabulate_length _ _, tabulate_length _ _, tabulate_length _ _, ?_⟩
  change meInit Config.params sel iv seed s = _
  rw [modeOfNumber_toNat]
  cases hsel : Mode.ofSel sel with
  | none => rw [meInit, hsel]; rfl
  | some m =>
    cases m with
    | ecb => exact meInit_ecb hsel iv
    | cbc | pcbc | cfb | ofb | ctr | rd =>
      cases iv with
      | none => exact meInit_null hsel (by decide)
      | some v =>
        refine (meInit_some hsel (by decide) v).trans ?_
        rw [openWithIv_eq]
        rfl

/-- Settles O27: such an operand passes the checks, and the session registers are `openWithIv_eq` and
`openWithoutIv_eq`. -/
theorem meInitCompletes : Obligations.MeInitCompletes := by
  intro m iv seed s hiv hctr
  have hsel := Mode.ofSel_sel m
  by_cases hmode : m = .ecb
  · subst hmode
    have hexec : exec (.meInit Mode.ecb.sel (some iv) seed) s = finish [] (openWithoutIv Config.params .ecb s) :=
      meInit_ecb (seed := seed) hsel (some iv)
    exact ⟨_, hexec, rfl, rfl, rfl, rfl, rfl, fun h => absurd rfl h, Mode.noConfusion, rfl, rfl⟩
  · have hblock : ¬(m = .ctr ∧ Config.params.blockSize < 8) := fun ⟨hm, hlt⟩ => absurd (hctr hm) (Nat.not_le_of_lt hlt)
    have hexec : exec (.meInit m.sel (some iv) seed) s = finish [] (openWithIv Config.params m iv seed s) := by
      refine (meInit_some hsel hmode iv).trans ?_
      rw [if_neg hblock, if_neg (not_not_intro hiv)]
    rw [openWithIv_eq] at hexec
    exact ⟨_, hexec, rfl, rfl, rfl, rfl, rfl, fun _ => ⟨rfl, rfl⟩, fun hm => if_pos hm, rfl, rfl⟩

-- ---------------------------------------------------------------- MeCheck

/-- A failed `MeCheck` fails both transforms. -/
theorem meEnc_meDec_of_meCheck {c : Params} {op : Operand} {s : State} {k : FailKind}
    (h : meCheck c s op = .error (.failure k)) : meEnc c op s = fail k s ∧ meDec c op s = fail k s := by
  rw [meEnc, meDec, transform, transform, h]
  exact ⟨rfl, rfl⟩

/-- Settles O29: the four failures are `MeCheck`'s. -/
theorem meCheckFailsInOrder : Obligations.MeCheckFailsInOrder := by
  intro op s k h
  suffices hcheck : meCheck Config.params s op = .error (.failure k) from meEnc_meDec_of_meCheck hcheck
  simp only [← Mode.requiresPadding_iff] at h
  unfold meCheck
  cases hsession : s.meInit with
  | false => simpa [hsession] using h
  | true =>
    cases hcore : s.fnInit with
    | false => simpa [hsession, hcore] using h
    | true =>
      cases op with
      | none => simpa [hsession, hcore] using h
      | some data =>
        by_cases hpart : s.meMode.requiresPadding = true ∧ data.length % Config.params.blockSize ≠ 0
        · simpa [hsession, hcore, hpart] using h
        · simp [hsession, hcore, if_neg hpart] at h

-- ---------------------------------------------------------------- a transform in either direction

/-- The mode function of a direction. -/
def modeFn (c : Params) : Dir → Bytes → State → Except Stop (Bytes × State)
  | .dec => modeDec c
  | .enc => modeEnc c
  | .none => modeEnc c

/-- Both transforms are `transform` at their mode function. -/
theorem execOn_transformCommand (c : Params) {d : Dir} (hd : d ≠ .none) (data : Bytes) (s : State) :
    execOn c (transformCommand d data) s = commit s (transform c d (modeFn c d) (some data) s) := by
  cases d with
  | none => exact absurd rfl hd
  | enc | dec => rfl

/-- A transform that ends OK is committed and answered. -/
theorem execOn_of_transform {c : Params} {d : Dir} (hd : d ≠ .none) {data out : Bytes} {s t : State}
    (h : transform c d (modeFn c d) (some data) s = .ok (out, t)) :
    execOn c (transformCommand d data) s = .next (t.respond (.ok out)) := by
  rw [execOn_transformCommand c hd, h]
  rfl

/-- What the mode function of a direction that ends OK has done. -/
theorem modeFn_frame {c : Params} {d : Dir} {data out : Bytes} {s t : State} (h : modeFn c d data s = .ok (out, t)) :
    ∃ n fb delta, t = { s.afterTransforms c n with
        meFb := fb, meOff := s.meOff + s.bodyLen c d data, meDelta := delta
        meFirst := if s.meMode = .rd then false else s.meFirst } ∧
      (s.meMode ∈ [Mode.ecb, .ctr, .rd] → fb = s.meFb) ∧
      (¬(d = .dec ∧ s.meMode = .rd ∧ s.meFirst = true) → delta = s.meDelta) ∧
      (s.meFb.length = c.blockSize → fb.length = c.blockSize ∧ out.length = s.outLen c d data) := by
  cases d with
  | dec =>
    obtain ⟨n, fb, delta, ht, hfb, hdelta, _, _, hlen⟩ := modeDec_frame h
    exact ⟨n, fb, delta, ht, hfb, by simpa using hdelta, hlen⟩
  | enc | none =>
    obtain ⟨n, fb, rfl, hfb, _, hlen⟩ := modeEnc_frame h
    exact ⟨n, fb, s.meDelta, by simp [State.bodyLen], hfb, fun _ => rfl, by simpa [State.outLen] using hlen⟩

theorem modeFn_ready {c : Params} {d : Dir} {data : Bytes} {s : State} (hd : d ≠ .none) (h : s.Ready c d data) :
    ∃ out t, modeFn c d data s = .ok (out, t) := by
  cases d with
  | none => exact absurd rfl hd
  | enc => exact modeEnc_ready h
  | dec => exact modeDec_ready h

/-- A ready transform ends OK. -/
theorem transform_ready {c : Params} {d : Dir} {data : Bytes} {s : State} (hd : d ≠ .none) (h : s.Ready c d data) :
    ∃ out t, modeFn c d data s = .ok (out, t) ∧
      transform c d (modeFn c d) (some data) s = .ok (out, { t with meDir := d.latch t.meDir }) := by
  obtain ⟨out, t, hrun⟩ := modeFn_ready hd h
  obtain ⟨_, _, _, ht, _⟩ := modeFn_frame hrun
  exact ⟨out, t, hrun, transform_ok_iff.2
    ⟨data, t, rfl, h.session, h.fn.1, h.aligned, h.direction, hrun, by rw [ht]; exact h.bound, rfl⟩⟩

theorem Dir.latch_eq (d old : Dir) : d.latch old = if old = .none then d else old := by cases old <;> rfl

/-- After a command only the transient registers and the draw counter depend on its block transforms. -/
theorem State.afterTransforms_eta (c : Params) (n : Nat) (s : State) :
    ∃ l r i k, s.afterTransforms c n = { s with fnL := l, fnR := r, fnI := i, draws := k } := by
  rcases State.afterTransforms_eq c n s with h | h
  · exact ⟨_, _, _, _, h⟩
  · exact ⟨_, _, _, _, h⟩

/-- What a ready transform writes, and how much it answers (rules R36, R38, R39, R215). -/
theorem transform_completes {c : Params} {d : Dir} {data : Bytes} {s : State} (hd : d ≠ .none) (h : s.Ready c d data) :
    ∃ (out fb delta l r : Bytes) (i n : Nat), execOn c (transformCommand d data) s = .next { s with
        meFb := fb, meOff := s.meOff + s.bodyLen c d data, meDelta := delta
        meFirst := if s.meMode = .rd then false else s.meFirst
        meDir := if s.meDir = .none then d else s.meDir
        fnL := l, fnR := r, fnI := i, draws := n, responses := s.responses ++ [.ok out] } ∧
      out.length = s.outLen c d data ∧ fb.length = c.blockSize ∧
      (s.meMode ∈ [Mode.ecb, .ctr, .rd] → fb = s.meFb) ∧
      (¬(d = .dec ∧ s.meMode = .rd ∧ s.meFirst = true) → delta = s.meDelta) := by
  obtain ⟨out, t, hrun, hok⟩ := transform_ready hd h
  obtain ⟨n, fb, delta, rfl, hfb, hdelta, hlen⟩ := modeFn_frame hrun
  obtain ⟨hfblen, hout⟩ := hlen h.shaped.fb
  obtain ⟨l, r, i, k, htransients⟩ := State.afterTransforms_eta c n s
  refine ⟨out, fb, delta, l, r, i, k, ?_, hout, hfblen, hfb, hdelta⟩
  rw [execOn_of_transform hd hok, htransients, ← Dir.latch_eq]
  rfl

/-- Settles O31: `transform_completes`, whose new stride an encryption leaves as it was. -/
theorem meEncCompletes : Obligations.MeEncCompletes := by
  intro data s h
  obtain ⟨out, fb, delta, l, r, i, n, hexec, hout, hfblen, hfb, hdelta⟩ := transform_completes (by decide) h
  obtain rfl := hdelta (by simp)
  exact ⟨out, fb, l, r, i, n, hexec, hout, hfblen, hfb⟩

/-- Settles O32: `transform_completes`; what a decryption answers is its body. -/
theorem meDecCompletes : Obligations.MeDecCompletes := by
  intro data s h
  obtain ⟨out, fb, delta, l, r, i, n, hexec, hout, hfblen, hfb, hdelta⟩ := transform_completes (by decide) h
  have hbody : s.bodyLen Config.params .dec data = out.length := by simp [hout, State.bodyLen, State.outLen]
  rw [hbody] at hexec
  exact ⟨out, fb, delta, l, r, i, n, hexec, by simpa [State.outLen] using hout, hfblen, hfb, by simpa using hdelta⟩

-- ---------------------------------------------------------------- empty input

theorem blockMode_nil (c : Params) (step : BlockStep) (s : State) : blockMode c step [] s = .ok ([], s) := by
  have hsplit : split c.blockSize [] = some [] := by simp [split, takeBlocks]
  rw [blockMode, hsplit]
  rfl

theorem ctrXform_nil {c : Params} (h : 8 ≤ c.blockSize) (s : State) : ctrXform c [] s = .ok ([], s) := by
  rw [ctrXform, if_neg (Nat.not_lt_of_le h)]
  rfl

/-- A session that is not before its first RD transform stays as it is when `ME.FIRST` is cleared. -/
theorem State.clearFirst_eq {s : State} (h : s.meFirst = false) : { s with meFirst := false } = s := by rw [← h]

theorem rdEnc_nil_later {c : Params} {s : State} (h : s.meFirst = false) : rdEnc c [] s = .ok ([], s) := by
  rw [rdEnc, rdHeader, h]
  exact congrArg (fun t => Except.ok ([], t)) (State.clearFirst_eq h)

theorem rdDec_nil_later {c : Params} {s : State} (h : s.meFirst = false) : rdDec c [] s = .ok ([], s) := by
  rw [rdDec, rdOpen, h]
  exact congrArg (fun t => Except.ok ([], t)) (State.clearFirst_eq h)

/-- On empty input a mode function does nothing, but for the header of RD (rule R217). -/
theorem modeFn_nil {c : Params} {s : State} (d : Dir) (hctr : s.meMode = .ctr → 8 ≤ c.blockSize)
    (hfirst : ¬(s.meMode = .rd ∧ s.meFirst = true)) : modeFn c d [] s = .ok ([], s) := by
  have hboth : modeEnc c [] s = .ok ([], s) ∧ modeDec c [] s = .ok ([], s) := by
    unfold modeEnc modeDec
    cases hm : s.meMode with
    | ecb | cbc | pcbc | cfb => exact ⟨blockMode_nil .., blockMode_nil ..⟩
    | ofb => exact ⟨rfl, rfl⟩
    | ctr => exact ⟨ctrXform_nil (hctr hm) s, ctrXform_nil (hctr hm) s⟩
    | rd =>
      have hlater : s.meFirst = false := by simpa [hm] using hfirst
      exact ⟨rdEnc_nil_later hlater, rdDec_nil_later hlater⟩
  cases d with
  | dec => exact hboth.2
  | enc | none => exact hboth.1

/-- The first RD encryption of empty input answers the header alone (rule R286). -/
theorem rdEnc_nil_first {c : Params} {s : State} (hready : s.FnReady c) (hdelta : s.meDelta.length = c.blockSize)
    (hlong : c.blockSize ≤ maxLen) (h : s.meFirst = true) : rdEnc c [] s =
      .ok (cipherEnc c s.fnRk s.meDelta, { s.drawTransients c with meFirst := false }) := by
  have hfits : ¬(s.meFirst = true ∧ maxLen < ([] : Bytes).length + c.blockSize) := fun ⟨_, hlt⟩ => by
    rw [List.length_nil] at hlt
    omega
  rw [rdEnc, rdHeader, if_pos h, bcE_ok hready.1 hready.2 hdelta, ok_bind, if_neg hfits]
  simp [h, rdBody, keystreamLoop, pure, Except.pure, State.afterTransforms]

/-- An RD session's first decryption of less than a header fails, whatever the core's round keys (rule R288). -/
theorem meDec_shortHeader {c : Params} {s : State} {data : Bytes} (hsession : s.meInit = true) (hcore : s.fnInit = true)
    (hmode : s.meMode = .rd) (hfirst : s.meFirst = true) (hdir : s.meDir ≠ .enc) (hshort : data.length < c.blockSize) :
    meDec c (some data) s = fail .invalidArgument s := by
  have hcheck : meCheck c s (some data) = .ok data :=
    meCheck_ok_iff.2 ⟨hsession, hcore, rfl, fun h => by simp [hmode, Mode.requiresPadding] at h⟩
  have hallowed : directionCheck s .dec = .ok () := directionCheck_ok_iff.2 fun _ => by
    cases hd : s.meDir with
    | none | dec => rfl
    | enc => exact absurd hd hdir
  have hrun : modeDec c data s = .error (.failure .invalidArgument) := by
    simp only [modeDec, hmode]
    rw [rdDec, rdOpen, if_pos hfirst, if_pos hshort]
    rfl
  rw [meDec, transform, hcheck, ok_bind, hallowed, ok_bind, hrun]
  rfl

/-- Settles O42: `modeFn_nil` in the ordinary case, and RD's two first calls. -/
theorem emptyInputChangesOnlyTheLatch : Obligations.EmptyInputChangesOnlyTheLatch := by
  refine ⟨fun c s d hd h hfirst => ?_, fun c s h hmode hfirst => ?_, fun c s hsession hcore hmode hfirst hdir => ?_⟩
  · obtain ⟨out, t, hrun, hok⟩ := transform_ready hd h
    cases (modeFn_nil d h.ctrBlock hfirst).symm.trans hrun
    rw [execOn_of_transform hd hok, ← Dir.latch_eq]
    rfl
  · obtain ⟨out, t, hrun, hexec⟩ := meEnc_ready h
    have hlong : c.blockSize ≤ maxLen := by simpa using h.rdLong hmode hfirst rfl
    simp only [modeEnc, hmode] at hrun
    cases (rdEnc_nil_first h.fn h.shaped.delta hlong hfirst).symm.trans hrun
    exact ⟨_, hexec, rfl, rfl, rfl⟩
  · exact meDec_shortHeader hsession hcore hmode hfirst hdir c.blockSize_pos

end Sys2Proof.Machine
end

section
/-! SUPPORT. Input cut in two (spec/42_mode_common.md rule R216): the loops of the mode functions go on where they stopped,
so in every mode and direction two calls answer what one does, whatever the first has done to the registers that no mode
function reads. -/

namespace Sys2Proof.Machine

-- ---------------------------------------------------------------- the loops

/-- Whole blocks in front are cut off as they are without what follows. -/
theorem takeBlocks_append {size n : Nat} (m : Nat) {x : Bytes} (y : Bytes) (hx : x.length = size * n) :
    takeBlocks size (n + m) (x ++ y) = takeBlocks size n x ++ takeBlocks size m y := by
  induction n generalizing x with
  | zero =>
    obtain rfl : x = [] := List.eq_nil_of_length_eq_zero hx
    simp [takeBlocks]
  | succ n ih =>
    have hle : size ≤ x.length := hx ▸ Nat.le_mul_of_pos_right _ n.succ_pos
    have hrest : (x.drop size).length = size * n := by rw [List.length_drop, hx, Nat.mul_succ, Nat.add_sub_cancel]
    rw [Nat.succ_add_eq_add_succ n m, Nat.add_succ, takeBlocks, takeBlocks, List.take_append_of_le_length hle,
      List.drop_append_of_le_length hle, ih hrest, List.cons_append]

/-- A loop over the whole is the loop over the first part and, from the feedback that leaves, over the second. -/
theorem blockLoop_append {step : BlockStep} {xs ys : List Bytes} {fb out fb2 : Bytes}
    (h : blockLoop step (xs ++ ys) fb = .ok (out, fb2)) : ∃ o1 fb1 o2, blockLoop step xs fb = .ok (o1, fb1) ∧
      blockLoop step ys fb1 = .ok (o2, fb2) ∧ out = o1 ++ o2 := by
  induction xs generalizing fb out with
  | nil => exact ⟨[], fb, out, rfl, h, rfl⟩
  | cons x xs ih =>
    obtain ⟨⟨y, fb0⟩, hstep, h⟩ := bind_ok.1 h
    obtain ⟨⟨out', _⟩, hloop, h⟩ := bind_ok.1 h
    cases h
    obtain ⟨o1, fb1, o2, hxs, hys, rfl⟩ := ih hloop
    refine ⟨y ++ o1, fb1, o2, ?_, hys, (List.append_assoc ..).symm⟩
    simp only [blockLoop, hstep, hxs, ok_bind]
    rfl

theorem ofbLoop_append {c : Params} {s : State} {x y fb out fb2 : Bytes} {off : Nat}
    (h : ofbLoop c s (x ++ y) fb off = .ok (out, fb2)) : ∃ o1 fb1 o2, ofbLoop c s x fb off = .ok (o1, fb1) ∧
      ofbLoop c s y fb1 (off + x.length) = .ok (o2, fb2) ∧ out = o1 ++ o2 := by
  induction x generalizing fb out off with
  | nil => exact ⟨[], fb, out, rfl, h, rfl⟩
  | cons a x ih =>
    obtain ⟨fb0, hnext, h⟩ := bind_ok.1 h
    obtain ⟨k, hbyte, h⟩ := bind_ok.1 h
    obtain ⟨⟨out', _⟩, hloop, h⟩ := bind_ok.1 h
    cases h
    obtain ⟨o1, fb1, o2, hx, hy, rfl⟩ := ih hloop
    refine ⟨(a ^^^ k) :: o1, fb1, o2, ?_, ?_, rfl⟩
    · simp only [ofbLoop, hnext, hbyte, hx, ok_bind]
      rfl
    · rwa [List.length_cons, Nat.add_comm x.length, ← Nat.add_assoc]

theorem keystreamLoop_append {size : Nat} {ks : Nat → Except Stop Bytes} {x y out : Bytes} {off : Nat}
    (h : keystreamLoop size ks (x ++ y) off = .ok out) : ∃ o1 o2, keystreamLoop size ks x off = .ok o1 ∧
      keystreamLoop size ks y (off + x.length) = .ok o2 ∧ out = o1 ++ o2 := by
  induction x generalizing out off with
  | nil => exact ⟨[], out, rfl, h, rfl⟩
  | cons a x ih =>
    obtain ⟨b, hblock, h⟩ := bind_ok.1 h
    obtain ⟨k, hbyte, h⟩ := bind_ok.1 h
    obtain ⟨out', hloop, h⟩ := bind_ok.1 h
    cases h
    obtain ⟨o1, o2, hx, hy, rfl⟩ := ih hloop
    refine ⟨(a ^^^ k) :: o1, o2, ?_, ?_, rfl⟩
    · simp only [keystreamLoop, hblock, hbyte, hx, ok_bind]
      rfl
    · rwa [List.length_cons, Nat.add_comm x.length, ← Nat.add_assoc]

-- ---------------------------------------------------------------- the mode functions

/-- When a block-aligned mode function ends OK, and with what: its input is whole blocks, which its loop answers. -/
theorem blockMode_ok_iff {c : Params} {step : BlockStep} {data out : Bytes} {s t : State} :
    blockMode c step data s = .ok (out, t) ↔ data.length % c.blockSize = 0 ∧ ∃ fb,
      blockLoop step (takeBlocks c.blockSize (data.length / c.blockSize) data) s.meFb = .ok (out, fb) ∧
      t = { s.afterTransforms c (data.length / c.blockSize) with meFb := fb, meOff := s.meOff + data.length } := by
  by_cases haligned : data.length % c.blockSize = 0
  · have hlen : c.blockSize * (data.length / c.blockSize) = data.length :=
      Nat.mul_div_cancel' (Nat.dvd_of_mod_eq_zero haligned)
    simp only [blockMode, split_eq_some haligned, inDomain, ok_bind, bind_ok, takeBlocks_length, hlen, haligned,
      true_and, Prod.exists, pure, Except.pure, Except.ok.injEq, Prod.mk.injEq]
    constructor
    · rintro ⟨_, fb, hloop, rfl, rfl⟩
      exact ⟨fb, hloop, rfl⟩
    · rintro ⟨fb, hloop, rfl⟩
      exact ⟨_, fb, hloop, rfl, rfl⟩
  · simp [blockMode, split, haligned, inDomain]

/-- When OFB ends OK, and with what: its loop answers. -/
theorem ofbXform_ok_iff {c : Params} {data out : Bytes} {s t : State} :
    ofbXform c data s = .ok (out, t) ↔ ∃ fb, ofbLoop c s data s.meFb s.meOff = .ok (out, fb) ∧
      t = { s.afterTransforms c (boundaries c.blockSize s.meOff data.length) with
        meFb := fb, meOff := s.meOff + data.length } := by
  simp only [ofbXform, bind_ok, Prod.exists, pure, Except.pure, Except.ok.injEq, Prod.mk.injEq]
  constructor
  · rintro ⟨_, fb, hloop, rfl, rfl⟩
    exact ⟨fb, hloop, rfl⟩
  · rintro ⟨fb, hloop, rfl⟩
    exact ⟨_, fb, hloop, rfl, rfl⟩

/-- When CTR ends OK, and with what: rule R268 allows it and its loop answers. -/
theorem ctrXform_ok_iff {c : Params} {data out : Bytes} {s t : State} :
    ctrXform c data s = .ok (out, t) ↔ 8 ≤ c.blockSize ∧
      keystreamLoop c.blockSize (ctrKs c s) data s.meOff = .ok out ∧
      t = { s.afterTransforms c data.length with meOff := s.meOff + data.length } := by
  unfold ctrXform
  split
  next hsmall => simp [Nat.not_le_of_lt hsmall]
  next hblock =>
    simp only [bind_ok, pure, Except.pure, Except.ok.injEq, Prod.mk.injEq, Nat.le_of_not_lt hblock, true_and]
    constructor
    · rintro ⟨_, hloop, rfl, rfl⟩
      exact ⟨hloop, rfl⟩
    · rintro ⟨hloop, rfl⟩
      exact ⟨_, hloop, rfl, rfl⟩

/-- When RD encryption ends OK, and with what: its result fits a frame, and the header and the body are there. -/
theorem rdEnc_ok_iff {c : Params} {data out : Bytes} {s t : State} :
    rdEnc c data s = .ok (out, t) ↔ (s.meFirst = true → data.length + c.blockSize ≤ maxLen) ∧ ∃ hdr body,
      rdHeader c s = .ok hdr ∧ rdBody c s s.meDelta data = .ok body ∧ out = hdr ++ body ∧
      t = { s.afterTransforms c ((if s.meFirst then 1 else 0) + data.length) with
        meFirst := false, meOff := s.meOff + data.length } := by
  simp only [rdEnc, bind_ok]
  constructor
  · rintro ⟨hdr, hhdr, h⟩
    split at h
    next => cases h
    next hfits =>
      obtain ⟨body, hbody, h⟩ := bind_ok.1 h
      cases h
      exact ⟨fun hfirst => Nat.le_of_not_lt fun hlt => hfits ⟨hfirst, hlt⟩, hdr, body, hhdr, hbody, rfl, rfl⟩
  · rintro ⟨hfits, hdr, body, hhdr, hbody, rfl, rfl⟩
    refine ⟨hdr, hhdr, ?_⟩
    rw [if_neg fun ⟨hfirst, hlt⟩ => absurd (hfits hfirst) (Nat.not_le_of_lt hlt), hbody]
    rfl

/-- When RD decryption ends OK, and with what: the header, where there is one, is taken off and the body is there. -/
theorem rdDec_ok_iff {c : Params} {data out : Bytes} {s t : State} :
    rdDec c data s = .ok (out, t) ↔ ∃ delta body, rdOpen c s data = .ok (delta, body) ∧
      rdBody c s delta body = .ok out ∧
      t = { s.afterTransforms c ((if s.meFirst then 1 else 0) + body.length) with
        meDelta := delta, meFirst := false, meOff := s.meOff + body.length } := by
  simp only [rdDec, bind_ok, Prod.exists, pure, Except.pure, Except.ok.injEq, Prod.mk.injEq]
  constructor
  · rintro ⟨delta, body, hopen, _, hbody, rfl, rfl⟩
    exact ⟨delta, body, hopen, hbody, rfl⟩
  · rintro ⟨delta, body, hopen, hbody, rfl⟩
    exact ⟨delta, body, hopen, _, hbody, rfl, rfl⟩

/-- The registers a transform reads and does not write: the round keys, the session's mode and IV. -/
def State.SameSetup (s t : State) : Prop :=
  t.fnInit = s.fnInit ∧ t.fnRk = s.fnRk ∧ t.meInit = s.meInit ∧ t.meMode = s.meMode ∧ t.meIv = s.meIv

/-- The registers that carry a session on from one transform to the next, but for the latch. -/
def State.SameChain (s t : State) : Prop :=
  t.meFb = s.meFb ∧ t.meOff = s.meOff ∧ t.meDelta = s.meDelta ∧ t.meFirst = s.meFirst

/-- Where `run` answers the whole of `x ++ y`, it answers `x`, and then `y` from any state that has the registers `x` leaves,
with the same bytes and the same registers at the end. -/
def Cuts (run : Bytes → State → Except Stop (Bytes × State)) (x y : Bytes) (s : State) : Prop :=
  ∀ ⦃out : Bytes⦄ ⦃u : State⦄, run (x ++ y) s = .ok (out, u) → ∃ o1 t o2, run x s = .ok (o1, t) ∧ out = o1 ++ o2 ∧
    ∀ t', s.SameSetup t' → t.SameChain t' → ∃ v, run y t' = .ok (o2, v) ∧ u.SameChain v

/-- `f` reads of the state the set-up of the session only. -/
def ReadsSetup {α : Type} (f : State → α) : Prop := ∀ ⦃s t : State⦄, s.SameSetup t → f t = f s

theorem readsSetup_bcE (c : Params) : ReadsSetup (bcE c) := fun _ _ ⟨hinit, hkeys, _⟩ => funext (bcE_congr hinit hkeys)

theorem readsSetup_bcD (c : Params) : ReadsSetup (bcD c) := fun _ _ ⟨hinit, hkeys, _⟩ => funext (bcD_congr hinit hkeys)

theorem readsSetup_ofbLoop (c : Params) : ReadsSetup (ofbLoop c) := by
  intro s t h
  funext data fb off
  induction data generalizing fb off with
  | nil => rfl
  | cons d ds ih => simp only [ofbLoop, ofbNext, readsSetup_bcE c h, ih]

theorem readsSetup_ctrKs (c : Params) : ReadsSetup (ctrKs c) := by
  intro s t h
  have hE := readsSetup_bcE c h
  obtain ⟨_, _, _, _, hiv⟩ := h
  funext i
  rw [ctrKs, ctrKs, hiv, hE]

theorem readsSetup_rdKs (c : Params) : ReadsSetup (rdKs c) := by
  intro s t h
  have hE := readsSetup_bcE c h
  obtain ⟨_, _, _, _, hiv⟩ := h
  funext delta i
  rw [rdKs, rdKs, hiv, hE]

section
variable {c : Params} {x y : Bytes} {s : State}

/-- A block-aligned mode function may be cut at a block boundary (rule R216). -/
theorem cuts_blockMode {step : State → BlockStep} (hstep : ReadsSetup step) (hx : x.length % c.blockSize = 0) :
    Cuts (fun data t => blockMode c (step t) data t) x y s := by
  intro out u h
  obtain ⟨hwhole, fb, hloop, rfl⟩ := blockMode_ok_iff.1 h
  have hxlen : x.length = c.blockSize * (x.length / c.blockSize) :=
    (Nat.mul_div_cancel' (Nat.dvd_of_mod_eq_zero hx)).symm
  have hy : y.length % c.blockSize = 0 := by simpa [Nat.add_mod, hx] using hwhole
  have hblocks : (x ++ y).length / c.blockSize = x.length / c.blockSize + y.length / c.blockSize := by
    rw [List.length_append, Nat.add_div_of_dvd_right (Nat.dvd_of_mod_eq_zero hx)]
  rw [hblocks, takeBlocks_append _ _ hxlen] at hloop
  obtain ⟨o1, fb1, o2, hxs, hys, rfl⟩ := blockLoop_append hloop
  refine ⟨o1, _, o2, blockMode_ok_iff.2 ⟨hx, fb1, hxs, rfl⟩, rfl, fun t' hsetup ⟨hfb, hoff, hdelta, hfirst⟩ => ?_⟩
  refine ⟨_, blockMode_ok_iff.2 ⟨hy, fb, by rw [hstep hsetup, hfb]; exact hys, rfl⟩, ?_⟩
  simp [State.SameChain, hoff, hdelta, hfirst, Nat.add_assoc]

/-- OFB may be cut anywhere: `ME.FB` and `ME.OFF` say which keystream byte comes next (rule R37). -/
theorem cuts_ofbXform (c : Params) : Cuts (ofbXform c) x y s := by
  intro out u h
  obtain ⟨fb, hloop, rfl⟩ := ofbXform_ok_iff.1 h
  obtain ⟨o1, fb1, o2, hx, hy, rfl⟩ := ofbLoop_append hloop
  refine ⟨o1, _, o2, ofbXform_ok_iff.2 ⟨fb1, hx, rfl⟩, rfl, fun t' hsetup ⟨hfb, hoff, hdelta, hfirst⟩ => ?_⟩
  refine ⟨_, ofbXform_ok_iff.2 ⟨fb, by rw [readsSetup_ofbLoop c hsetup, hfb, hoff]; exact hy, rfl⟩, ?_⟩
  simp [State.SameChain, hoff, hdelta, hfirst, Nat.add_assoc]

/-- CTR may be cut anywhere: `ME.OFF` says which keystream byte comes next. -/
theorem cuts_ctrXform (c : Params) : Cuts (ctrXform c) x y s := by
  intro out u h
  obtain ⟨hblock, hloop, rfl⟩ := ctrXform_ok_iff.1 h
  obtain ⟨o1, o2, hx, hy, rfl⟩ := keystreamLoop_append hloop
  refine ⟨o1, _, o2, ctrXform_ok_iff.2 ⟨hblock, hx, rfl⟩, rfl, fun t' hsetup ⟨hfb, hoff, hdelta, hfirst⟩ => ?_⟩
  refine ⟨_, ctrXform_ok_iff.2 ⟨hblock, by rw [readsSetup_ctrKs c hsetup, hoff]; exact hy, rfl⟩, ?_⟩
  simp [State.SameChain, hfb, hoff, hdelta, hfirst, Nat.add_assoc]

/-- The body of RD from a state that has the set-up of the session, at its offset. -/
theorem rdBody_eq {t' : State} (hsetup : s.SameSetup t') (delta data : Bytes) :
    rdBody c t' delta data = keystreamLoop c.blockSize (rdKs c s delta) data t'.meOff := by
  rw [rdBody, readsSetup_rdKs c hsetup]

/-- RD encryption may be cut anywhere: the header stands before the first part, and `ME.FIRST` is clear for the second. -/
theorem cuts_rdEnc (c : Params) : Cuts (rdEnc c) x y s := by
  intro out u h
  obtain ⟨hfits, hdr, body, hhdr, hbody, rfl, rfl⟩ := rdEnc_ok_iff.1 h
  obtain ⟨b1, b2, hx, hy, rfl⟩ := keystreamLoop_append hbody
  have hxfits : s.meFirst = true → x.length + c.blockSize ≤ maxLen := fun hf => by
    have := hfits hf
    rw [List.length_append] at this
    omega
  refine ⟨hdr ++ b1, _, b2, rdEnc_ok_iff.2 ⟨hxfits, hdr, b1, hhdr, hx, rfl, rfl⟩, (List.append_assoc ..).symm,
    fun t' hsetup ⟨hfb, hoff, hdelta, hfirst⟩ => ?_⟩
  replace hdelta : t'.meDelta = s.meDelta := by simpa using hdelta
  replace hfirst : t'.meFirst = false := hfirst
  refine ⟨_, rdEnc_ok_iff.2 ⟨by simp [hfirst], [], b2, by simp [rdHeader, hfirst], ?_, rfl, rfl⟩, ?_⟩
  · rw [rdBody_eq hsetup, hdelta, hoff]
    exact hy
  · simp [State.SameChain, hfb, hoff, hdelta, Nat.add_assoc]

/-- Taking the header off the front of the first part takes it off the whole (rule R288). -/
theorem rdOpen_append {delta body : Bytes} (hx : s.meFirst = true → c.blockSize ≤ x.length)
    (h : rdOpen c s (x ++ y) = .ok (delta, body)) : ∃ b, rdOpen c s x = .ok (delta, b) ∧ body = b ++ y := by
  unfold rdOpen at h ⊢
  cases hfirst : s.meFirst with
  | false =>
    rw [hfirst] at h
    cases h
    exact ⟨x, rfl, rfl⟩
  | true =>
    have hlen := hx hfirst
    rw [hfirst, if_pos rfl, if_neg (by rw [List.length_append]; omega), List.take_append_of_le_length hlen,
      List.drop_append_of_le_length hlen] at h
    obtain ⟨delta', hport, h⟩ := bind_ok.1 h
    cases h
    refine ⟨x.drop c.blockSize, ?_, rfl⟩
    rw [if_pos rfl, if_neg (Nat.not_lt_of_le hlen), hport]
    rfl

/-- RD decryption may be cut anywhere but inside the header of a session's first call (rules R288, R405). -/
theorem cuts_rdDec (hx : s.meFirst = true → c.blockSize ≤ x.length) : Cuts (rdDec c) x y s := by
  intro out u h
  obtain ⟨delta, body, hopen, hbody, rfl⟩ := rdDec_ok_iff.1 h
  obtain ⟨b, hopenx, rfl⟩ := rdOpen_append hx hopen
  obtain ⟨b1, b2, hb, hy, rfl⟩ := keystreamLoop_append hbody
  refine ⟨b1, _, b2, rdDec_ok_iff.2 ⟨delta, b, hopenx, hb, rfl⟩, rfl, fun t' hsetup ⟨hfb, hoff, hdelta, hfirst⟩ => ?_⟩
  replace hfirst : t'.meFirst = false := hfirst
  replace hdelta : t'.meDelta = delta := hdelta
  refine ⟨_, rdDec_ok_iff.2 ⟨delta, y, by simp [rdOpen, hfirst, hdelta], ?_, rfl⟩, ?_⟩
  · rw [rdBody_eq hsetup, hoff]
    exact hy
  · simp [State.SameChain, hfb, hoff, Nat.add_assoc]

/-- Cutting goes by the session's mode, which the second part finds as the first did. -/
theorem Cuts.of_mode {run run' : Bytes → State → Except Stop (Bytes × State)} (h : Cuts run x y s)
    (hrun : ∀ data t, t.meMode = s.meMode → run' data t = run data t) : Cuts run' x y s := by
  intro out u hwhole
  obtain ⟨o1, t, o2, hx, hout, hrest⟩ := h ((hrun _ s rfl).symm.trans hwhole)
  refine ⟨o1, t, o2, (hrun x s rfl).trans hx, hout, fun t' hsetup hchain => ?_⟩
  obtain ⟨v, hy, hv⟩ := hrest t' hsetup hchain
  obtain ⟨_, _, _, hmode, _⟩ := hsetup
  exact ⟨v, (hrun y t' hmode).trans hy, hv⟩

theorem readsSetup_ecbEncStep (c : Params) : ReadsSetup (ecbEncStep c) := fun s t h => by
  unfold ecbEncStep
  rw [readsSetup_bcE c h]

theorem readsSetup_ecbDecStep (c : Params) : ReadsSetup (ecbDecStep c) := fun s t h => by
  unfold ecbDecStep
  rw [readsSetup_bcD c h]

theorem readsSetup_cbcEncStep (c : Params) : ReadsSetup (cbcEncStep c) := fun s t h => by
  unfold cbcEncStep
  rw [readsSetup_bcE c h]

theorem readsSetup_cbcDecStep (c : Params) : ReadsSetup (cbcDecStep c) := fun s t h => by
  unfold cbcDecStep
  rw [readsSetup_bcD c h]

theorem readsSetup_pcbcEncStep (c : Params) : ReadsSetup (pcbcEncStep c) := fun s t h => by
  unfold pcbcEncStep
  rw [readsSetup_bcE c h]

theorem readsSetup_pcbcDecStep (c : Params) : ReadsSetup (pcbcDecStep c) := fun s t h => by
  unfold pcbcDecStep
  rw [readsSetup_bcD c h]

theorem readsSetup_cfbEncStep (c : Params) : ReadsSetup (cfbEncStep c) := fun s t h => by
  unfold cfbEncStep
  rw [readsSetup_bcE c h]

theorem readsSetup_cfbDecStep (c : Params) : ReadsSetup (cfbDecStep c) := fun s t h => by
  unfold cfbDecStep
  rw [readsSetup_bcE c h]

/-- The mode function of `ME_ENC` may be cut, at a block boundary in the block-aligned modes. -/
theorem cuts_modeEnc (hx : s.meMode.requiresPadding = true → x.length % c.blockSize = 0) : Cuts (modeEnc c) x y s := by
  cases hm : s.meMode with
  | ecb =>
    exact (cuts_blockMode (readsSetup_ecbEncStep c) (hx (by rw [hm]; rfl))).of_mode fun data t ht => by
      simp only [modeEnc, ht, hm]
  | cbc =>
    exact (cuts_blockMode (readsSetup_cbcEncStep c) (hx (by rw [hm]; rfl))).of_mode fun data t ht => by
      simp only [modeEnc, ht, hm]
  | pcbc =>
    exact (cuts_blockMode (readsSetup_pcbcEncStep c) (hx (by rw [hm]; rfl))).of_mode fun data t ht => by
      simp only [modeEnc, ht, hm]
  | cfb =>
    exact (cuts_blockMode (readsSetup_cfbEncStep c) (hx (by rw [hm]; rfl))).of_mode fun data t ht => by
      simp only [modeEnc, ht, hm]
  | ofb => exact (cuts_ofbXform c).of_mode fun data t ht => by simp only [modeEnc, ht, hm]
  | ctr => exact (cuts_ctrXform c).of_mode fun data t ht => by simp only [modeEnc, ht, hm]
  | rd => exact (cuts_rdEnc c).of_mode fun data t ht => by simp only [modeEnc, ht, hm]

/-- So may that of `ME_DEC`, but not inside a header. -/
theorem cuts_modeDec (hx : s.meMode.requiresPadding = true → x.length % c.blockSize = 0)
    (hheader : s.meMode = .rd → s.meFirst = true → c.blockSize ≤ x.length) : Cuts (modeDec c) x y s := by
  cases hm : s.meMode with
  | ecb =>
    exact (cuts_blockMode (readsSetup_ecbDecStep c) (hx (by rw [hm]; rfl))).of_mode fun data t ht => by
      simp only [modeDec, ht, hm]
  | cbc =>
    exact (cuts_blockMode (readsSetup_cbcDecStep c) (hx (by rw [hm]; rfl))).of_mode fun data t ht => by
      simp only [modeDec, ht, hm]
  | pcbc =>
    exact (cuts_blockMode (readsSetup_pcbcDecStep c) (hx (by rw [hm]; rfl))).of_mode fun data t ht => by
      simp only [modeDec, ht, hm]
  | cfb =>
    exact (cuts_blockMode (readsSetup_cfbDecStep c) (hx (by rw [hm]; rfl))).of_mode fun data t ht => by
      simp only [modeDec, ht, hm]
  | ofb => exact (cuts_ofbXform c).of_mode fun data t ht => by simp only [modeDec, ht, hm]
  | ctr => exact (cuts_ctrXform c).of_mode fun data t ht => by simp only [modeDec, ht, hm]
  | rd => exact (cuts_rdDec (hheader hm)).of_mode fun data t ht => by simp only [modeDec, ht, hm]

-- ---------------------------------------------------------------- the commands

theorem cuts_modeFn {d : Dir} (hx : s.meMode.requiresPadding = true → x.length % c.blockSize = 0)
    (hheader : s.meMode = .rd → s.meFirst = true → d = .dec → c.blockSize ≤ x.length) : Cuts (modeFn c d) x y s := by
  cases d with
  | dec => exact cuts_modeDec hx fun hm hf => hheader hm hf rfl
  | enc | none => exact cuts_modeEnc hx

/-- A mode function leaves the set-up, the latch and the responses alone, and the offset does not go back. -/
theorem modeFn_stays {d : Dir} {out : Bytes} {t : State} (h : modeFn c d x s = .ok (out, t)) :
    s.SameSetup t ∧ t.meDir = s.meDir ∧ t.responses = s.responses ∧ s.meOff ≤ t.meOff := by
  obtain ⟨_, _, _, rfl, _⟩ := modeFn_frame h
  simp [State.SameSetup]

theorem Dir.opposes_latch (d old : Dir) : Dir.opposes (d.latch old) d = Dir.opposes old d := by
  cases d <;> cases old <;> rfl

theorem Dir.latch_latch (d old : Dir) : d.latch (d.latch old) = d.latch old := by cases d <;> cases old <;> rfl

theorem State.SameSetup.trans {s t u : State} (h : s.SameSetup t) (h' : t.SameSetup u) : s.SameSetup u := by
  obtain ⟨hinit, hkeys, hsession, hmode, hiv⟩ := h
  obtain ⟨hinit', hkeys', hsession', hmode', hiv'⟩ := h'
  exact ⟨hinit'.trans hinit, hkeys'.trans hkeys, hsession'.trans hsession, hmode'.trans hmode, hiv'.trans hiv⟩

/-- The set-up, the chain and the latch are all the persistent registers. -/
theorem State.sameRegisters_of_sameChain {s u v : State} (hu : s.SameSetup u) (hv : s.SameSetup v) (h : u.SameChain v)
    (hdir : v.meDir = u.meDir) : v.SameRegisters u := by
  obtain ⟨hinit, hkeys, hsession, hmode, hiv⟩ := hu
  obtain ⟨hinit', hkeys', hsession', hmode', hiv'⟩ := hv
  obtain ⟨hfb, hoff, hdelta, hfirst⟩ := h
  exact ⟨hinit'.trans hinit.symm, hkeys'.trans hkeys.symm, hsession'.trans hsession.symm, hmode'.trans hmode.symm,
    hiv'.trans hiv.symm, hfb, hoff, hdelta, hfirst, hdir⟩

/-- A transform that has passed its checks passes them again after itself: the latch allows its own direction. -/
theorem transform_again {d : Dir} {run : Bytes → State → Except Stop (Bytes × State)} {out : Bytes} {t v : State}
    (hsession : s.meInit = true) (hcore : s.fnInit = true)
    (haligned : s.meMode.requiresPadding = true → y.length % c.blockSize = 0)
    (hdir : s.meMode ≠ .ecb → Dir.opposes s.meDir d = false) (hset : s.SameSetup t) (hlatch : t.meDir = d.latch s.meDir)
    (hrun : run y t = .ok (out, v)) (hbound : v.meOff ≤ c.maxOff) :
    transform c d run (some y) t = .ok (out, { v with meDir := d.latch v.meDir }) := by
  obtain ⟨hinit, _, hsess, hmode, _⟩ := hset
  refine transform_ok_iff.2
    ⟨y, v, rfl, hsess.trans hsession, hinit.trans hcore, hmode ▸ haligned, fun hecb => ?_, hrun, hbound, rfl⟩
  rw [hlatch, Dir.opposes_latch]
  exact hdir (hmode ▸ hecb)

/-- A transform of the whole that ends OK may be cut in two: both parts end OK, whatever is answered between them, with the
same bytes and the same registers. -/
theorem transform_cut {d : Dir} {out : Bytes} {u : State} (hcuts : Cuts (modeFn c d) x y s)
    (hx : s.meMode.requiresPadding = true → x.length % c.blockSize = 0)
    (h : transform c d (modeFn c d) (some (x ++ y)) s = .ok (out, u)) :
    ∃ o1 t o2, transform c d (modeFn c d) (some x) s = .ok (o1, t) ∧ t.responses = s.responses ∧ out = o1 ++ o2 ∧
      ∀ r, ∃ v, transform c d (modeFn c d) (some y) (t.respond r) = .ok (o2, v) ∧
        v.responses = t.responses ++ [r] ∧ v.SameRegisters u := by
  obtain ⟨_, w, ⟨⟩, hsession, hcore, haligned, hdir, hrun, hbound, rfl⟩ := transform_ok_iff.1 h
  obtain ⟨hsetw, hdirw, _, _⟩ := modeFn_stays hrun
  obtain ⟨o1, t, o2, hrunx, hout, hrest⟩ := hcuts hrun
  obtain ⟨hset, hdirt, hresp, _⟩ := modeFn_stays hrunx
  have hlatch : d.latch t.meDir = d.latch s.meDir := by rw [hdirt]
  have hy : s.meMode.requiresPadding = true → y.length % c.blockSize = 0 := fun hp => by
    simpa [Nat.add_mod, hx hp] using haligned hp
  have hafter : ∀ r, ∃ v, modeFn c d y (State.respond { t with meDir := d.latch t.meDir } r) = .ok (o2, v) ∧
      w.SameChain v := fun r => hrest _ hset ⟨rfl, rfl, rfl, rfl⟩
  have hboundt : t.meOff ≤ c.maxOff := by
    obtain ⟨v, hruny, _, hoff, _⟩ := hafter (.ok [])
    obtain ⟨_, _, _, hle⟩ := modeFn_stays hruny
    exact hle.trans (hoff.trans_le hbound)
  refine ⟨o1, { t with meDir := d.latch t.meDir }, o2,
    transform_ok_iff.2 ⟨x, t, rfl, hsession, hcore, hx, hdir, hrunx, hboundt, rfl⟩, hresp, hout, fun r => ?_⟩
  obtain ⟨v, hruny, hchain⟩ := hafter r
  obtain ⟨hsetv, hdirv, hrespv, _⟩ := modeFn_stays hruny
  have hboundv : v.meOff ≤ c.maxOff := by
    obtain ⟨_, hoff, _⟩ := hchain
    exact hoff.trans_le hbound
  have hdirs : d.latch v.meDir = d.latch w.meDir := by
    rw [hdirv, hdirw, State.respond_meDir, hlatch, Dir.latch_latch]
  exact ⟨_, transform_again hsession hcore hy hdir hset hlatch hruny hboundv, hrespv,
    State.sameRegisters_of_sameChain (s := s) hsetw (State.SameSetup.trans hset hsetv) hchain hdirs⟩

end

/-- Settles O46: the mode functions may be cut (`cuts_modeFn`), and so may the commands (`transform_cut`). -/
theorem splitInputGivesTheSameSession : Obligations.SplitInputGivesTheSameSession := by
  intro c s x y d hd h hx hheader
  obtain ⟨out, u, hrun, hwhole⟩ := transform_ready hd h
  obtain ⟨_, _, hrespu, _⟩ := modeFn_stays hrun
  obtain ⟨o1, t, o2, hfirst, hresp, rfl, hrest⟩ := transform_cut (cuts_modeFn hx hheader) hx hwhole
  obtain ⟨v, hsecond, hrespv, hsame⟩ := hrest (.ok o1)
  exact ⟨_, _, _, o1, o2, execOn_of_transform hd hfirst, by simp [hresp], execOn_of_transform hd hsecond,
    by simp [hrespv], execOn_of_transform hd hwhole, by simp [hrespu], hsame⟩

end Sys2Proof.Machine
end

section
/-! SUPPORT. The statements about the block-aligned modes and about whole sessions (spec/43_modes_block.md): on a ready core
a block step is a function of the block and the feedback, from which each mode's formulas are read off; the decrypting
function undoes the encrypting one, and so do the mode functions of a session in every mode but RD, from which sessions
round-trip and different inputs have different ciphertexts. -/

namespace Sys2Proof.Machine

-- ---------------------------------------------------------------- the block functions

/-- What an encrypting block step answers on an input block and the feedback (rules R230, R233, R236, R240); the stream
modes have no block step, and the value there is never used. -/
def encBlock (c : Params) (rks : List Bytes) (m : Mode) (x fb : Bytes) : Bytes × Bytes :=
  match m with
  | .ecb => (cipherEnc c rks x, fb)
  | .cbc => (cipherEnc c rks (zipXor x fb), cipherEnc c rks (zipXor x fb))
  | .pcbc => (cipherEnc c rks (zipXor x fb), zipXor x (cipherEnc c rks (zipXor x fb)))
  | .cfb => (zipXor x (cipherEnc c rks fb), zipXor x (cipherEnc c rks fb))
  | .ofb | .ctr | .rd => (x, fb)

/-- What a decrypting block step answers (rules R231, R234, R237, R241). -/
def decBlock (c : Params) (rks : List Bytes) (m : Mode) (x fb : Bytes) : Bytes × Bytes :=
  match m with
  | .ecb => (cipherDec c rks x, fb)
  | .cbc => (zipXor (cipherDec c rks x) fb, x)
  | .pcbc => (zipXor (cipherDec c rks x) fb, zipXor (zipXor (cipherDec c rks x) fb) x)
  | .cfb => (zipXor x (cipherEnc c rks fb), x)
  | .ofb | .ctr | .rd => (x, fb)

/-- The block function of a direction. -/
def blockFn (c : Params) (rks : List Bytes) (m : Mode) : Dir → Bytes → Bytes → Bytes × Bytes
  | .dec => decBlock c rks m
  | .enc => encBlock c rks m
  | .none => encBlock c rks m

/-- In a block-aligned mode on a ready core, the mode function is the block loop of a step that answers `blockFn`. -/
theorem modeFn_eq_blockMode {c : Params} {s : State} (d : Dir) (hf : s.FnReady c)
    (hp : s.meMode.requiresPadding = true) :
    ∃ step, (∀ data, modeFn c d data s = blockMode c step data s) ∧ Answers c step (blockFn c s.fnRk s.meMode d) := by
  have henc : ∃ step, (∀ data, modeEnc c data s = blockMode c step data s) ∧
      Answers c step (encBlock c s.fnRk s.meMode) := by
    unfold modeEnc
    cases hm : s.meMode with
    | ecb => exact ⟨_, fun _ => rfl, ecbEncStep_answers hf⟩
    | cbc => exact ⟨_, fun _ => rfl, cbcEncStep_answers hf⟩
    | pcbc => exact ⟨_, fun _ => rfl, pcbcEncStep_answers hf⟩
    | cfb => exact ⟨_, fun _ => rfl, cfbEncStep_answers hf⟩
    | ofb | ctr | rd => simp [hm, Mode.requiresPadding] at hp
  have hdec : ∃ step, (∀ data, modeDec c data s = blockMode c step data s) ∧
      Answers c step (decBlock c s.fnRk s.meMode) := by
    unfold modeDec
    cases hm : s.meMode with
    | ecb => exact ⟨_, fun _ => rfl, ecbDecStep_answers hf⟩
    | cbc => exact ⟨_, fun _ => rfl, cbcDecStep_answers hf⟩
    | pcbc => exact ⟨_, fun _ => rfl, pcbcDecStep_answers hf⟩
    | cfb => exact ⟨_, fun _ => rfl, cfbDecStep_answers hf⟩
    | ofb | ctr | rd => simp [hm, Mode.requiresPadding] at hp
  cases d with
  | dec => exact hdec
  | enc | none => exact henc

/-- A block-aligned mode function on whole blocks: the block function folded over them, from `ME.FB` on. -/
theorem modeFn_blocks {c : Params} {s : State} {data : Bytes} (d : Dir) (hf : s.FnReady c)
    (hfb : s.meFb.length = c.blockSize) (hp : s.meMode.requiresPadding = true) (hm : data.length % c.blockSize = 0) :
    let r := foldBlocks (blockFn c s.fnRk s.meMode d) (takeBlocks c.blockSize (data.length / c.blockSize) data) s.meFb
    modeFn c d data s = .ok (r.1, { s.afterTransforms c (data.length / c.blockSize) with
      meFb := r.2, meOff := s.meOff + data.length }) := by
  obtain ⟨step, hrun, hanswers⟩ := modeFn_eq_blockMode d hf hp
  rw [hrun]
  exact blockMode_answers hanswers hm hfb

-- ---------------------------------------------------------------- block by block

/-- A ready transform of a block-aligned mode, block by block: there is a sequence of feedback values from `ME.FB` before to
`ME.FB` after, each step of which is the block function's. -/
theorem transform_blocks {c : Params} {s : State} {data : Bytes} {d : Dir} (hd : d ≠ .none) (h : s.Ready c d data)
    (hp : s.meMode.requiresPadding = true) :
    ∃ t out, execOn c (transformCommand d data) s = .next t ∧ t.responses = s.responses ++ [.ok out] ∧
      out.length = data.length ∧ t.meOff = s.meOff + data.length ∧
      ∃ F : Nat → Bytes, F 0 = s.meFb ∧ t.meFb = F (data.length / c.blockSize) ∧
        ∀ i, i < data.length / c.blockSize →
          blockAt c out i = (blockFn c s.fnRk s.meMode d (blockAt c data i) (F i)).1 ∧
          F (i + 1) = (blockFn c s.fnRk s.meMode d (blockAt c data i) (F i)).2 := by
  obtain ⟨out, t, hrun, hok⟩ := transform_ready hd h
  obtain ⟨_, _, hanswers⟩ := modeFn_eq_blockMode d h.fn hp
  have hlen : data.length = c.blockSize * (data.length / c.blockSize) :=
    (Nat.mul_div_cancel' (Nat.dvd_of_mod_eq_zero (h.aligned hp))).symm
  obtain ⟨F, hfirst, hlast, hout, _, hF⟩ := foldBlocks_spec hanswers hlen h.shaped.fb
  cases (modeFn_blocks d h.fn h.shaped.fb hp (h.aligned hp)).symm.trans hrun
  exact ⟨_, _, execOn_of_transform hd hok, by simp, hout, rfl, F, hfirst, hlast, hF⟩

/-- A sequence of feedback values that goes on with the blocks of `chain` is that chain. -/
theorem eq_chainBlock {c : Params} {F : Nat → Bytes} {fb chain : Bytes} {n : Nat} (hfirst : F 0 = fb)
    (hnext : ∀ i, i < n → F (i + 1) = blockAt c chain i) : ∀ i, i ≤ n → F i = chainBlock c fb chain i
  | 0, _ => hfirst
  | i + 1, hi => hnext i hi

/-- A ready transform of a mode that chains: where block `i` of `chain out` is the feedback that the block function answers
with block `i` of the output, the feedback is that chain. -/
theorem transform_chains {c : Params} {s : State} {data : Bytes} {d : Dir} {m : Mode} (hd : d ≠ .none)
    (h : s.Ready c d data) (hm : s.meMode = m) (hp : m.requiresPadding = true) (chain : Bytes → Bytes)
    (hchain : ∀ out i fb, blockAt c out i = (blockFn c s.fnRk m d (blockAt c data i) fb).1 →
      blockAt c (chain out) i = (blockFn c s.fnRk m d (blockAt c data i) fb).2) :
    ∃ t out, execOn c (transformCommand d data) s = .next t ∧ t.responses = s.responses ++ [.ok out] ∧
      out.length = data.length ∧ t.meOff = s.meOff + data.length ∧
      t.meFb = chainBlock c s.meFb (chain out) (data.length / c.blockSize) ∧
      ∀ i, i < data.length / c.blockSize →
        blockAt c out i = (blockFn c s.fnRk m d (blockAt c data i) (chainBlock c s.meFb (chain out) i)).1 := by
  subst hm
  obtain ⟨t, out, hexec, hresp, hlen, hoff, F, hfirst, hlast, hF⟩ := transform_blocks hd h hp
  have hFchain := eq_chainBlock hfirst fun i hi => by
    obtain ⟨hout, hnext⟩ := hF i hi
    exact hnext.trans (hchain out i (F i) hout).symm
  refine ⟨t, out, hexec, hresp, hlen, hoff, hlast.trans (hFchain _ le_rfl), fun i hi => ?_⟩
  rw [← hFchain i hi.le]
  exact (hF i hi).1

/-- A ready transform of ECB: every block by itself, whatever the feedback, which stands. -/
theorem transform_ecb {c : Params} {s : State} {data : Bytes} {d : Dir} (hd : d ≠ .none) (h : s.Ready c d data)
    (hm : s.meMode = .ecb) :
    ∃ t out, execOn c (transformCommand d data) s = .next t ∧ t.responses = s.responses ++ [.ok out] ∧
      out.length = data.length ∧ t.meOff = s.meOff + data.length ∧ t.meFb = s.meFb ∧
      ∀ i, i < data.length / c.blockSize → blockAt c out i = (blockFn c s.fnRk .ecb d (blockAt c data i) []).1 := by
  have hstands : ∀ x fb, (blockFn c s.fnRk .ecb d x fb).2 = fb ∧
      (blockFn c s.fnRk .ecb d x fb).1 = (blockFn c s.fnRk .ecb d x []).1 := by
    cases d <;> exact fun _ _ => ⟨rfl, rfl⟩
  obtain ⟨t, out, hexec, hresp, hlen, hoff, F, hfirst, hlast, hF⟩ := transform_blocks hd h (by rw [hm]; rfl)
  simp only [hm, hstands] at hF
  have hsame : ∀ i, i ≤ data.length / c.blockSize → F i = s.meFb := by
    intro i hi
    induction i with
    | zero => exact hfirst
    | succ i ih => exact (hF i hi).2.trans (ih (Nat.le_of_succ_le hi))
  refine ⟨t, out, hexec, hresp, hlen, hoff, hlast.trans (hsame _ le_rfl), fun i hi => ?_⟩
  rw [(hF i hi).1, (hstands _ _).2]

/-- Settles O33: `transform_ecb`, in both directions. -/
theorem ecbTransformsEachBlock : Obligations.EcbTransformsEachBlock := fun _ _ _ hm =>
  ⟨fun h => transform_ecb (by decide) h hm, fun h => transform_ecb (by decide) h hm⟩

/-- Settles O34: `transform_chains` on the ciphertext, the output of one direction and the input of the other. -/
theorem cbcChainsOnTheCiphertext : Obligations.CbcChainsOnTheCiphertext := fun _ _ data hm =>
  ⟨fun h => transform_chains (by decide) h hm rfl (fun out => out) fun _ _ _ hout => hout,
    fun h => transform_chains (by decide) h hm rfl (fun _ => data) fun _ _ _ _ => rfl⟩

/-- Settles O35: `transform_chains` on the exclusive-or of plaintext and ciphertext. -/
theorem pcbcChainsOnBothTexts : Obligations.PcbcChainsOnBothTexts := fun c _ data hm =>
  ⟨fun h => transform_chains (by decide) h hm rfl (fun out => zipXor data out) fun out i _ hout =>
      (blockAt_zipXor c data out i).trans (congrArg (zipXor _) hout),
    fun h => transform_chains (by decide) h hm rfl (fun out => zipXor out data) fun out i _ hout =>
      (blockAt_zipXor c out data i).trans (congrArg (zipXor · _) hout)⟩

/-- Settles O36: `transform_chains` on the ciphertext, under the encrypting cipher both ways. -/
theorem cfbChainsOnTheCiphertext : Obligations.CfbChainsOnTheCiphertext := fun _ _ data hm =>
  ⟨fun h => transform_chains (by decide) h hm rfl (fun out => out) fun _ _ _ hout => hout,
    fun h => transform_chains (by decide) h hm rfl (fun _ => data) fun _ _ _ _ => rfl⟩

-- ---------------------------------------------------------------- decryption undoes encryption

/-- The block cipher's Decrypt undoes its Encrypt on blocks (rule R182). -/
theorem cipherDec_cipherEnc {c : Params} (rks : List Bytes) {b : Bytes} (hb : b.length = c.blockSize) :
    cipherDec c rks (cipherEnc c rks b) = b := by
  rw [cipherDec, blockEnc_eq_some_iff_blockDec.1 (blockEnc_some rks hb).1, Option.getD_some]

/-- A decrypting block step on the answer of the encrypting one gives the block back and goes on with the same feedback,
from the feedback the encrypting step had; in ECB from any. -/
theorem decBlock_encBlock {c : Params} (rks : List Bytes) {m : Mode} {x fb fb' : Bytes} (hx : x.length = c.blockSize)
    (hfb : fb.length = c.blockSize) (hsame : m ≠ .ecb → fb' = fb) :
    (decBlock c rks m (encBlock c rks m x fb).1 fb').1 = x ∧
      (m ≠ .ecb → (decBlock c rks m (encBlock c rks m x fb).1 fb').2 = (encBlock c rks m x fb).2) := by
  have hlen : x.length ≤ fb.length := (hx.trans hfb.symm).le
  have hport : zipXor (cipherDec c rks (cipherEnc c rks (zipXor x fb))) fb = x := by
    rw [cipherDec_cipherEnc rks (zipXor_block hx hfb), zipXor_cancel hlen]
  cases m with
  | ecb => exact ⟨cipherDec_cipherEnc rks hx, fun h => absurd rfl h⟩
  | cbc =>
    obtain rfl := hsame (by decide)
    exact ⟨hport, fun _ => rfl⟩
  | pcbc =>
    obtain rfl := hsame (by decide)
    exact ⟨hport, fun _ => congrArg (zipXor · _) hport⟩
  | cfb =>
    obtain rfl := hsame (by decide)
    exact ⟨zipXor_cancel (hx.trans (cipherEnc_length rks hfb).symm).le, fun _ => rfl⟩
  | ofb | ctr | rd => exact ⟨rfl, fun h => hsame h⟩

/-- So does a loop of decrypting block steps. -/
theorem foldBlocks_decBlock {c : Params} {step : BlockStep} {rks : List Bytes} {m : Mode}
    (ha : Answers c step (encBlock c rks m)) {n : Nat} {d fb fb' : Bytes} (hd : d.length = c.blockSize * n)
    (hfb : fb.length = c.blockSize) (hsame : m ≠ .ecb → fb' = fb) :
    (foldBlocks (decBlock c rks m)
      (takeBlocks c.blockSize n (foldBlocks (encBlock c rks m) (takeBlocks c.blockSize n d) fb).1) fb').1 = d := by
  induction n generalizing d fb fb' with
  | zero => exact (List.eq_nil_of_length_eq_zero hd).symm
  | succ n ih =>
    have hx : (d.take c.blockSize).length = c.blockSize := by
      rw [List.length_take, hd, Nat.min_eq_left (Nat.le_mul_of_pos_right _ n.succ_pos)]
    have hrest : (d.drop c.blockSize).length = c.blockSize * n := by
      rw [List.length_drop, hd, Nat.mul_succ, Nat.add_sub_cancel]
    obtain ⟨_, hy, hfb1⟩ := ha _ fb hx hfb
    obtain ⟨hblock, hnext⟩ := decBlock_encBlock rks hx hfb hsame
    simp only [takeBlocks, foldBlocks, List.take_left' hy, List.drop_left' hy, hblock, ih hrest hfb1 hnext,
      List.take_append_drop]

/-- The OFB loop undoes itself: its keystream does not depend on the data. -/
theorem ofbLoop_undo {c : Params} {s : State} {data fb out fb2 : Bytes} {off : Nat}
    (h : ofbLoop c s data fb off = .ok (out, fb2)) : ofbLoop c s out fb off = .ok (data, fb2) := by
  induction data generalizing fb out off with
  | nil => cases h; rfl
  | cons d ds ih =>
    obtain ⟨fb1, hnext, h⟩ := bind_ok.1 h
    obtain ⟨k, hbyte, h⟩ := bind_ok.1 h
    obtain ⟨⟨out', _⟩, hloop, h⟩ := bind_ok.1 h
    cases h
    simp only [ofbLoop, hnext, hbyte, ih hloop, ok_bind, BitVec.xor_assoc, BitVec.xor_self, BitVec.xor_zero]
    rfl

/-- So does the loop of CTR and RD. -/
theorem keystreamLoop_undo {size : Nat} {ks : Nat → Except Stop Bytes} {data out : Bytes} {off : Nat}
    (h : keystreamLoop size ks data off = .ok out) : keystreamLoop size ks out off = .ok data := by
  induction data generalizing out off with
  | nil => cases h; rfl
  | cons d ds ih =>
    obtain ⟨b, hblock, h⟩ := bind_ok.1 h
    obtain ⟨k, hbyte, h⟩ := bind_ok.1 h
    obtain ⟨out', hloop, h⟩ := bind_ok.1 h
    cases h
    simp only [keystreamLoop, hblock, hbyte, ih hloop, ok_bind, BitVec.xor_assoc, BitVec.xor_self, BitVec.xor_zero]
    rfl

/-- Two sessions from which a transform answers alike: of one mode at one offset on one set of round keys, and, but for ECB,
which looks at neither, with one IV and feedback. -/
structure State.StartsAlike (s t : State) : Prop where
  fnInit : t.fnInit = s.fnInit
  fnRk : t.fnRk = s.fnRk
  meInit : t.meInit = s.meInit
  meMode : t.meMode = s.meMode
  meOff : t.meOff = s.meOff
  meIv : s.meMode ≠ .ecb → t.meIv = s.meIv
  meFb : s.meMode ≠ .ecb → t.meFb = s.meFb

theorem State.StartsAlike.refl (s : State) : s.StartsAlike s :=
  ⟨rfl, rfl, rfl, rfl, rfl, fun _ => rfl, fun _ => rfl⟩

/-- The core stays ready as long as its registers stand. -/
theorem State.FnReady.of_eq {c : Params} {s t : State} (h : s.FnReady c) (hinit : t.fnInit = s.fnInit)
    (hkeys : t.fnRk = s.fnRk) : t.FnReady c :=
  ⟨hinit.trans h.1, hkeys ▸ h.2⟩

section
variable {c : Params} {s s' t : State} {data out : Bytes}

theorem State.StartsAlike.sameSetup (h : s.StartsAlike s') (hm : s.meMode ≠ .ecb) : s.SameSetup s' :=
  ⟨h.fnInit, h.fnRk, h.meInit, h.meMode, h.meIv hm⟩

/-- In the block-aligned modes the mode function of `ME_DEC` undoes that of `ME_ENC` (rule R244). -/
theorem modeDec_blocks_undo (hf : s.FnReady c) (hfb : s.meFb.length = c.blockSize) (hfb' : s'.meFb.length = c.blockSize)
    (halike : s.StartsAlike s') (hp : s.meMode.requiresPadding = true) (h : modeEnc c data s = .ok (out, t)) :
    ∃ t', modeDec c out s' = .ok (data, t') := by
  obtain ⟨_, _, _, _, haligned, _⟩ := modeEnc_frame h
  obtain ⟨_, _, hanswers⟩ := modeFn_eq_blockMode .enc hf hp
  have hlen : data.length = c.blockSize * (data.length / c.blockSize) :=
    (Nat.mul_div_cancel' (Nat.dvd_of_mod_eq_zero (haligned hp))).symm
  obtain ⟨_, _, _, hout, _⟩ := foldBlocks_spec hanswers hlen hfb
  have hback := foldBlocks_decBlock hanswers hlen hfb halike.meFb
  cases (modeFn_blocks .enc hf hfb hp (haligned hp)).symm.trans h
  have hdec := modeFn_blocks .dec (hf.of_eq halike.fnInit halike.fnRk) hfb' (halike.meMode ▸ hp)
    (hout ▸ haligned hp)
  rw [hout, halike.fnRk, halike.meMode] at hdec
  exact ⟨_, hdec.trans (congrArg (fun d => Except.ok (d, _)) hback)⟩

/-- In every mode but RD the mode function of `ME_DEC` undoes that of `ME_ENC` (rules R244, R262, R265). -/
theorem modeDec_modeEnc (hf : s.FnReady c) (hfb : s.meFb.length = c.blockSize) (hfb' : s'.meFb.length = c.blockSize)
    (halike : s.StartsAlike s') (hrd : s.meMode ≠ .rd) (h : modeEnc c data s = .ok (out, t)) :
    ∃ t', modeDec c out s' = .ok (data, t') := by
  cases hm : s.meMode with
  | ecb | cbc | pcbc | cfb => exact modeDec_blocks_undo hf hfb hfb' halike (by rw [hm]; rfl) h
  | ofb =>
    have hchained : s.meMode ≠ .ecb := by simp [hm]
    simp only [modeEnc, modeDec, halike.meMode, hm] at h ⊢
    obtain ⟨fb, hloop, rfl⟩ := ofbXform_ok_iff.1 h
    refine ⟨_, ofbXform_ok_iff.2 ⟨fb, ?_, rfl⟩⟩
    rw [readsSetup_ofbLoop c (halike.sameSetup hchained), halike.meFb hchained, halike.meOff]
    exact ofbLoop_undo hloop
  | ctr =>
    have hsetup := halike.sameSetup (by simp [hm])
    simp only [modeEnc, modeDec, halike.meMode, hm] at h ⊢
    obtain ⟨hblock, hloop, rfl⟩ := ctrXform_ok_iff.1 h
    refine ⟨_, ctrXform_ok_iff.2 ⟨hblock, ?_, rfl⟩⟩
    rw [readsSetup_ctrKs c hsetup, halike.meOff]
    exact keystreamLoop_undo hloop
  | rd => exact absurd hm hrd

end

-- ---------------------------------------------------------------- different inputs

/-- Readiness looks at the length of the input only. -/
theorem State.Ready.of_length_eq {c : Params} {s : State} {d : Dir} {x y : Bytes} (h : s.Ready c d x)
    (hlen : x.length = y.length) : s.Ready c d y := by
  have hbody : s.bodyLen c d y = s.bodyLen c d x := by simp only [State.bodyLen, hlen]
  obtain ⟨shaped, fn, session, direction, aligned, bound, ctrBlock, rdIndex, rdLong, rdHeader⟩ := h
  exact ⟨shaped, fn, session, direction, hlen ▸ aligned, hbody ▸ bound, ctrBlock, hbody ▸ rdIndex, hlen ▸ rdLong,
    hlen ▸ rdHeader⟩

/-- The mode function of `ME_ENC` answers different inputs differently: its answer can be decrypted, in RD behind a header
that does not depend on the input. -/
theorem modeEnc_injective {c : Params} {s t u : State} {x y out : Bytes} (hf : s.FnReady c)
    (hfb : s.meFb.length = c.blockSize) (hx : modeEnc c x s = .ok (out, t)) (hy : modeEnc c y s = .ok (out, u)) :
    x = y := by
  by_cases hm : s.meMode = .rd
  · simp only [modeEnc, hm] at hx hy
    obtain ⟨_, hdr, body, hhdr, hbody, rfl, _⟩ := rdEnc_ok_iff.1 hx
    obtain ⟨_, hdr', body', hhdr', hbody', hout, _⟩ := rdEnc_ok_iff.1 hy
    cases hhdr.symm.trans hhdr'
    obtain rfl : body = body' := List.append_cancel_left hout
    exact Except.ok.inj ((keystreamLoop_undo hbody).symm.trans (keystreamLoop_undo hbody'))
  · obtain ⟨_, hdecx⟩ := modeDec_modeEnc hf hfb hfb (.refl s) hm hx
    obtain ⟨_, hdecy⟩ := modeDec_modeEnc hf hfb hfb (.refl s) hm hy
    cases hdecx.symm.trans hdecy
    rfl

/-- Settles O47: both inputs are ready, and `modeEnc_injective`. -/
theorem differentInputsEncryptDifferently : Obligations.DifferentInputsEncryptDifferently := by
  intro c s x y hlen hne hx
  obtain ⟨o1, t, hrunx, hokx⟩ := transform_ready (by decide) hx
  obtain ⟨o2, u, hruny, hoky⟩ := transform_ready (by decide) (hx.of_length_eq hlen)
  obtain ⟨_, _, hrespt, _⟩ := modeFn_stays hrunx
  obtain ⟨_, _, hrespu, _⟩ := modeFn_stays hruny
  refine ⟨_, _, o1, o2, execOn_of_transform (by decide) hokx, by simp [hrespt], execOn_of_transform (by decide) hoky,
    by simp [hrespu], ?_⟩
  rintro rfl
  exact hne (modeEnc_injective hx.fn hx.shaped.fb hrunx hruny)

-- ---------------------------------------------------------------- whole sessions

/-- Two commands that are answered, one after the other. -/
theorem runCommands_pair {run : Instr → State → Result} {i j : Instr} {s t u : State} (hi : run i s = .next t)
    (hj : run j t = .next u) : runCommands run [i, j] s = .next u := by
  simp only [runCommands, hi, hj]

/-- Opening a session of mode `m` under `iv` has taken `s` to `t`: the registers a transform looks at. -/
structure State.Opened (c : Params) (m : Mode) (iv : Bytes) (s t : State) : Prop where
  fnInit : t.fnInit = s.fnInit
  fnRk : t.fnRk = s.fnRk
  meInit : t.meInit = true
  meMode : t.meMode = m
  meOff : t.meOff = 0
  meDir : t.meDir = .none
  meIv : m ≠ .ecb → t.meIv = iv
  meFb : m ≠ .ecb → t.meFb = iv
  shaped : t.Shaped c

section
variable {c : Params} {m : Mode} {iv data : Bytes} {s : State}

/-- `ME_INIT` with an IV of one block opens a session, in every mode but CTR on a small block (rules R202, R268). -/
theorem meInit_opens (seed : Option (BitVec 64)) (s : State) (hiv : iv.length = c.blockSize)
    (hctr : m = .ctr → 8 ≤ c.blockSize) :
    ∃ t, execOn c (.meInit m.sel (some iv) seed) s = .next t ∧ t.responses = s.responses ++ [.ok []] ∧
      s.Opened c m iv t := by
  have hsel := Mode.ofSel_sel m
  by_cases hmode : m = .ecb
  · subst hmode
    exact ⟨_, meInit_ecb (seed := seed) hsel (some iv), rfl, rfl, rfl, rfl, rfl, rfl, rfl, fun h => absurd rfl h,
      fun h => absurd rfl h, tabulate_length _ _, tabulate_length _ _, tabulate_length _ _⟩
  · have hblock : ¬(m = .ctr ∧ c.blockSize < 8) := fun ⟨hm, hlt⟩ => absurd (hctr hm) (Nat.not_le_of_lt hlt)
    have hexec : execOn c (.meInit m.sel (some iv) seed) s = finish [] (openWithIv c m iv seed s) := by
      refine (meInit_some hsel hmode iv).trans ?_
      rw [if_neg hblock, if_neg (not_not_intro hiv)]
    rw [openWithIv_eq] at hexec
    refine ⟨_, hexec, rfl, rfl, rfl, rfl, rfl, rfl, rfl, fun _ => rfl, fun _ => rfl, hiv, hiv, ?_⟩
    show (if m = .rd then _ else _ : Bytes).length = c.blockSize
    split
    · exact rdInitialDelta_length c iv seed
    · exact tabulate_length _ _

/-- A session just opened on a ready core is ready for input within the offset limit. -/
theorem State.Opened.ready {t : State} (h : s.Opened c m iv t) (d : Dir) (hf : s.FnReady c) (hrd : m ≠ .rd)
    (hctr : m = .ctr → 8 ≤ c.blockSize) (haligned : m.requiresPadding = true → data.length % c.blockSize = 0)
    (hbound : data.length ≤ c.maxOff) : t.Ready c d data := by
  obtain ⟨hinit, hkeys, hsession, rfl, hoff, hdir, _, _, hshaped⟩ := h
  exact {
    shaped := hshaped
    fn := hf.of_eq hinit hkeys
    session := hsession
    direction := fun _ => by rw [hdir]; rfl
    aligned := haligned
    bound := by simpa [hoff, State.bodyLen, hrd] using hbound
    ctrBlock := hctr
    rdIndex := fun hm => absurd hm hrd
    rdLong := fun hm => absurd hm hrd
    rdHeader := fun hm => absurd hm hrd }

/-- Two sessions of one mode and IV, opened on one set of round keys, start alike. -/
theorem State.Opened.startsAlike {s' t t' : State} (h : s.Opened c m iv t) (h' : s'.Opened c m iv t')
    (hinit : s'.fnInit = s.fnInit) (hkeys : s'.fnRk = s.fnRk) : t.StartsAlike t' where
  fnInit := h'.fnInit.trans (hinit.trans h.fnInit.symm)
  fnRk := h'.fnRk.trans (hkeys.trans h.fnRk.symm)
  meInit := h'.meInit.trans h.meInit.symm
  meMode := h'.meMode.trans h.meMode.symm
  meOff := h'.meOff.trans h.meOff.symm
  meIv hm := (h'.meIv (h.meMode ▸ hm)).trans (h.meIv (h.meMode ▸ hm)).symm
  meFb hm := (h'.meFb (h.meMode ▸ hm)).trans (h.meFb (h.meMode ▸ hm)).symm

/-- A fresh session and one transform in it run on a ready core, in every mode but RD, and answer as many bytes as they are
given. -/
theorem freshSession_runs {d : Dir} (hd : d ≠ .none) (hf : s.FnReady c) (hrd : m ≠ .rd) (hiv : iv.length = c.blockSize)
    (hctr : m = .ctr → 8 ≤ c.blockSize) (haligned : m.requiresPadding = true → data.length % c.blockSize = 0)
    (hbound : data.length ≤ c.maxOff) :
    ∃ s1 t1 t out, s.Opened c m iv s1 ∧ modeFn c d data s1 = .ok (out, t1) ∧
      runCommands (execOn c) [.meInit m.sel (some iv) none, transformCommand d data] s = .next t ∧
      t.responses = s.responses ++ [.ok [], .ok out] ∧ out.length = data.length ∧
      t.fnInit = s.fnInit ∧ t.fnRk = s.fnRk := by
  obtain ⟨s1, hinit, hresp, hopened⟩ := meInit_opens none s hiv hctr
  obtain ⟨out, t1, hrun, hok⟩ := transform_ready hd (hopened.ready d hf hrd hctr haligned hbound)
  obtain ⟨_, _, _, _, _, _, hlen⟩ := modeFn_frame hrun
  obtain ⟨⟨hcore, hkeys, _⟩, _, hresp1, _⟩ := modeFn_stays hrun
  have hout : out.length = data.length := by
    rw [(hlen hopened.shaped.fb).2, State.outLen, if_neg fun ⟨hm, _⟩ => hrd (hopened.meMode.symm.trans hm)]
  exact ⟨s1, t1, _, out, hopened, hrun, runCommands_pair hinit (execOn_of_transform hd hok), by simp [hresp1, hresp],
    hout, hcore.trans hopened.fnInit, hkeys.trans hopened.fnRk⟩

end

/-- Settles O43: both sessions run (`freshSession_runs`), and from sessions that start alike the mode function of `ME_DEC`
undoes that of `ME_ENC`. -/
theorem sessionRoundTrip : Obligations.SessionRoundTrip := by
  intro c s m iv data hrd hf _ hiv hctr haligned hbound
  obtain ⟨s1, _, t, out, hopened, hrun, hexec, hresp, hlen, hcore, hkeys⟩ :=
    freshSession_runs (d := .enc) (by decide) hf hrd hiv hctr haligned hbound
  obtain ⟨u1, _, u, back, hopened', hrun', hexec', hresp', _⟩ :=
    freshSession_runs (d := .dec) (by decide) (hf.of_eq hcore hkeys) hrd hiv hctr (hlen.symm ▸ haligned)
      (hlen.symm ▸ hbound)
  obtain ⟨_, hback⟩ := modeDec_modeEnc (hf.of_eq hopened.fnInit hopened.fnRk) hopened.shaped.fb hopened'.shaped.fb
    (hopened.startsAlike hopened' hcore hkeys) (fun hm => hrd (hopened.meMode.symm.trans hm)) hrun
  cases hback.symm.trans hrun'
  exact ⟨t, out, hexec, hresp, u, hexec', hresp'⟩

end Sys2Proof.Machine
end

section
/-! SUPPORT. The statements about the stream modes (spec/44_modes_stream.md): both directions run one function, which
puts the input under a keystream. In OFB the keystream is chained: `ME.FB` holds the last block generated, so the loop
from a feedback that goes with the offset is the keystream loop over the chain, and ends with a feedback that goes with
the new offset. -/

namespace Sys2Proof.Machine

section
variable {c : Params} {s : State} {data iv : Bytes} {d : Dir} {off : Nat}

-- ---------------------------------------------------------------- one function for both directions

theorem modeFn_ofb (hm : s.meMode = .ofb) : modeFn c d data s = ofbXform c data s := by
  cases d <;> simp only [modeFn, modeEnc, modeDec, hm]

theorem modeFn_ctr (hm : s.meMode = .ctr) : modeFn c d data s = ctrXform c data s := by
  cases d <;> simp only [modeFn, modeEnc, modeDec, hm]

-- ---------------------------------------------------------------- the OFB chain

/-- The feedback that goes with offset `off`: the last keystream block that the first `off` bytes use, the IV if there
is none (rule R37). `State.OfbSync` says that `ME.FB` is this at `ME.OFF`. -/
def ofbFeedback (c : Params) (rks : List Bytes) (iv : Bytes) (off : Nat) : Bytes :=
  ofbChain c rks iv ((off + c.blockSize - 1) / c.blockSize)

theorem State.ofbSync_iff : s.OfbSync c ↔ s.meFb = ofbFeedback c s.fnRk s.meIv s.meOff := Iff.rfl

theorem ofbChain_length (rks : List Bytes) (hiv : iv.length = c.blockSize) (i : Nat) :
    (ofbChain c rks iv i).length = c.blockSize := by
  induction i with
  | zero => exact hiv
  | succ i ih => exact cipherEnc_length rks ih

/-- On a block boundary the next keystream block is still to come; elsewhere the one in use is the last. -/
theorem ofbFeedback_eq (rks : List Bytes) (iv : Bytes) (off : Nat) : ofbFeedback c rks iv off =
    ofbChain c rks iv (if off % c.blockSize = 0 then off / c.blockSize else off / c.blockSize + 1) := by
  have hpos := c.blockSize_pos
  have hlt : c.blockSize - 1 < c.blockSize := Nat.sub_lt hpos Nat.one_pos
  have hindex : (off + c.blockSize - 1) / c.blockSize =
      if off % c.blockSize = 0 then off / c.blockSize else off / c.blockSize + 1 := by
    rw [Nat.add_sub_assoc hpos, Nat.add_div hpos, Nat.div_eq_of_lt hlt, Nat.mod_eq_of_lt hlt]
    split <;> split <;> omega
  rw [ofbFeedback, hindex]

theorem ofbFeedback_succ (rks : List Bytes) (iv : Bytes) (off : Nat) :
    ofbFeedback c rks iv (off + 1) = ofbChain c rks iv (off / c.blockSize + 1) := by
  rw [ofbFeedback, Nat.add_right_comm, Nat.add_sub_cancel, Nat.add_div_right _ c.blockSize_pos]

/-- The byte at `off` uses the keystream block that goes with `off + 1`: on a boundary the next of the chain, elsewhere
the one in `ME.FB` (rule R262). -/
theorem ofbNext_feedback (hf : s.FnReady c) (hiv : iv.length = c.blockSize) (off : Nat) :
    ofbNext c s (ofbFeedback c s.fnRk iv off) off = .ok (ofbFeedback c s.fnRk iv (off + 1)) := by
  rw [ofbNext, ofbFeedback_eq, ofbFeedback_succ]
  by_cases hboundary : off % c.blockSize = 0
  · simp only [if_pos hboundary]
    exact bcE_ok hf.1 hf.2 (ofbChain_length _ hiv _)
  · simp only [if_neg hboundary]

/-- From a feedback that goes with the offset the OFB loop is the keystream loop over the chain, and keeps the feedback
in step. -/
theorem ofbLoop_of_keystreamLoop (hf : s.FnReady c) (hiv : iv.length = c.blockSize) {out : Bytes}
    (h : keystreamLoop c.blockSize (fun i => .ok (ofbChain c s.fnRk iv (i + 1))) data off = .ok out) :
    ofbLoop c s data (ofbFeedback c s.fnRk iv off) off = .ok (out, ofbFeedback c s.fnRk iv (off + data.length)) := by
  induction data generalizing off out with
  | nil => cases h; rfl
  | cons x xs ih =>
    obtain ⟨_, hblock, h⟩ := bind_ok.1 h
    cases hblock
    obtain ⟨k, hbyte, h⟩ := bind_ok.1 h
    obtain ⟨out', hloop, h⟩ := bind_ok.1 h
    cases h
    rw [← ofbFeedback_succ] at hbyte
    simp only [ofbLoop, ofbNext_feedback hf hiv, hbyte, ih hloop, ok_bind]
    rw [List.length_cons, Nat.add_comm xs.length, ← Nat.add_assoc]
    rfl

/-- The OFB transform on a ready core, in step with its keystream: the data under the chain, and still in step. -/
theorem ofbXform_ok (hf : s.FnReady c) (hiv : s.meIv.length = c.blockSize) (hsync : s.OfbSync c) (data : Bytes) :
    ∃ out, UnderKeystream c (fun i => ofbChain c s.fnRk s.meIv (i + 1)) s.meOff data out ∧
      ofbXform c data s = .ok (out, { s.afterTransforms c (boundaries c.blockSize s.meOff data.length) with
        meFb := ofbFeedback c s.fnRk s.meIv (s.meOff + data.length), meOff := s.meOff + data.length }) := by
  obtain ⟨out, hloop, hunder⟩ := keystreamLoop_ok c.blockSize_pos (data := data) (off := s.meOff)
    (ks := fun i => .ok (ofbChain c s.fnRk s.meIv (i + 1))) fun i _ => ⟨rfl, ofbChain_length s.fnRk hiv (i + 1)⟩
  refine ⟨out, hunder, ofbXform_ok_iff.2 ⟨_, ?_, rfl⟩⟩
  rw [State.ofbSync_iff.1 hsync]
  exact ofbLoop_of_keystreamLoop hf hiv hloop

end

-- ---------------------------------------------------------------- the statements

/-- Settles O37: `ofbXform_ok`, in both directions. -/
theorem ofbStaysInStepWithItsKeystream : Obligations.OfbStaysInStepWithItsKeystream := by
  intro c s data d hd hm hsync h
  obtain ⟨out, t, hrun, hok⟩ := transform_ready hd h
  obtain ⟨_, hunder, hxform⟩ := ofbXform_ok h.fn h.shaped.iv hsync data
  cases ((modeFn_ofb hm).trans hxform).symm.trans hrun
  exact ⟨_, out, execOn_of_transform hd hok, by simp, hunder, rfl, by simp [State.ofbSync_iff]⟩

/-- Settles O38: `ctrXform_ok`, in both directions. -/
theorem ctrUsesItsCounterKeystream : Obligations.CtrUsesItsCounterKeystream := by
  intro c s data d hd hm h
  obtain ⟨out, t, hrun, hok⟩ := transform_ready hd h
  obtain ⟨_, hunder, hxform⟩ := ctrXform_ok h.fn h.shaped.iv (h.ctrBlock hm) data
  cases ((modeFn_ctr hm).trans hxform).symm.trans hrun
  exact ⟨_, out, execOn_of_transform hd hok, by simp, hunder, rfl, by simp, by simp⟩

end Sys2Proof.Machine
end

section
/-! SUPPORT. The statements about the Random-Delta mode (spec/45_mode_rd.md): its counter block is the IV plus the stride
times the index as numbers, so that the body is the input under the keystream of the stride in force; the header carries
that stride from the encrypting side to the decrypting one, which is why the seed of the latter does not matter and that of
the former shows in the first block. -/

namespace Sys2Proof.Machine

section
variable {c : Params} {s s' t : State} {data iv delta : Bytes}

-- ---------------------------------------------------------------- the keystream

/-- The counter block of RD in numbers: `AddMod` and `MulMod32` are the sum and the product modulo `256^B` (rule R284). -/
theorem rdCounter_eq {i : Nat} (hiv : iv.length = c.blockSize) (hdelta : delta.length = c.blockSize) (hi : i < 2 ^ 32) :
    rdCounter iv delta i =
      some (beBytes c.blockSize ((be iv + be delta * i % 256 ^ c.blockSize) % 256 ^ c.blockSize)) := by
  have hpos : 1 ≤ c.blockSize := c.blockSize_pos
  have hmul := mulMod32MultipliesModuloThePower delta i (hdelta.symm ▸ hpos)
  rw [if_pos hi, hdelta] at hmul
  have hadd := addModAddsModuloThePower iv (beBytes c.blockSize (be delta * i % 256 ^ c.blockSize))
    (hiv.trans (beBytes_length _ _).symm) (hiv.symm ▸ hpos)
  rw [hiv, be_beBytes, Nat.mod_mod] at hadd
  rw [rdCounter, hmul]
  exact hadd

theorem rdBlock_length (rks : List Bytes) (iv delta : Bytes) (i : Nat) :
    (rdBlock c rks iv delta i).length = c.blockSize := cipherEnc_length rks (beBytes_length _ _)

/-- The keystream of RD on a ready core, up to the index limit (rules R284, R285). -/
theorem rdKs_eq_rdBlock {i : Nat} (hf : s.FnReady c) (hiv : s.meIv.length = c.blockSize)
    (hdelta : delta.length = c.blockSize) (hi : i < 2 ^ 32) :
    rdKs c s delta i = .ok (rdBlock c s.fnRk s.meIv delta i) := by
  obtain ⟨b, hcounter, _, hks⟩ := rdKs_ok hf hiv hdelta hi
  cases (rdCounter_eq hiv hdelta hi).symm.trans hcounter
  exact hks

/-- The body of RD on a ready core, up to the index limit: the data under the keystream of the stride (rule R287). -/
theorem rdBody_underKeystream (hf : s.FnReady c) (hiv : s.meIv.length = c.blockSize) (hdelta : delta.length = c.blockSize)
    (hindex : s.meOff + data.length ≤ 2 ^ 32 * c.blockSize) :
    ∃ out, rdBody c s delta data = .ok out ∧
      UnderKeystream c (rdBlock c s.fnRk s.meIv delta) s.meOff data out := by
  refine keystreamLoop_ok c.blockSize_pos fun i hi => ⟨rdKs_eq_rdBlock hf hiv hdelta ?_, rdBlock_length _ _ _ i⟩
  exact Nat.lt_of_mul_lt_mul_right (hi.trans_le hindex)

-- ---------------------------------------------------------------- both directions, ready

theorem modeFn_enc_rd (hm : s.meMode = .rd) : modeFn c .enc data s = rdEnc c data s := by
  simp only [modeFn, modeEnc, hm]

theorem modeFn_dec_rd (hm : s.meMode = .rd) : modeFn c .dec data s = rdDec c data s := by
  simp only [modeFn, modeDec, hm]

/-- The header of a ready encryption (rule R286). -/
theorem rdHeader_eq (hf : s.FnReady c) (hdelta : s.meDelta.length = c.blockSize) :
    rdHeader c s = .ok (if s.meFirst = true then cipherEnc c s.fnRk s.meDelta else []) := by
  rw [rdHeader, bcE_ok hf.1 hf.2 hdelta]
  split <;> rfl

/-- The stride in force after the header of a decryption, where there is one (rule R288). -/
def State.rdStride (c : Params) (s : State) (data : Bytes) : Bytes :=
  if s.meFirst = true then cipherDec c s.fnRk (data.take c.blockSize) else s.meDelta

/-- What is left of the input of a decryption behind that header. -/
def State.rdRest (c : Params) (s : State) (data : Bytes) : Bytes :=
  if s.meFirst = true then data.drop c.blockSize else data

theorem State.rdStride_length (hdelta : s.meDelta.length = c.blockSize)
    (hheader : s.meFirst = true → c.blockSize ≤ data.length) : (s.rdStride c data).length = c.blockSize := by
  unfold State.rdStride
  split
  next hfirst => exact cipherDec_length _ (List.length_take_of_le (hheader hfirst))
  next => exact hdelta

theorem State.rdRest_length (hm : s.meMode = .rd) : (s.rdRest c data).length = s.bodyLen c .dec data := by
  simp only [State.rdRest, State.bodyLen, hm, true_and, apply_ite List.length, List.length_drop]

/-- What a ready decryption takes off the front of its input (rule R288). -/
theorem rdOpen_eq (hf : s.FnReady c) (hheader : s.meFirst = true → c.blockSize ≤ data.length) :
    rdOpen c s data = .ok (s.rdStride c data, s.rdRest c data) := by
  unfold rdOpen State.rdStride State.rdRest
  by_cases hfirst : s.meFirst = true
  · have hblock : (data.take c.blockSize).length = c.blockSize := List.length_take_of_le (hheader hfirst)
    simp only [if_pos hfirst, if_neg (Nat.not_lt_of_le (hheader hfirst)), bcD_ok hf.1 hf.2 hblock, ok_bind]
    rfl
  · simp only [if_neg hfirst]

/-- A ready encryption of an RD session: the header on the first call, and the body under the session's stride. -/
theorem rdEnc_ready (hm : s.meMode = .rd) (h : s.Ready c .enc data) :
    ∃ body, UnderKeystream c (rdBlock c s.fnRk s.meIv s.meDelta) s.meOff data body ∧
      rdEnc c data s = .ok ((if s.meFirst = true then cipherEnc c s.fnRk s.meDelta else []) ++ body,
        { s.afterTransforms c ((if s.meFirst then 1 else 0) + data.length) with
          meFirst := false, meOff := s.meOff + data.length }) := by
  have hindex : s.meOff + data.length ≤ 2 ^ 32 * c.blockSize := by simpa [State.bodyLen] using h.rdIndex hm
  obtain ⟨body, hbody, hunder⟩ := rdBody_underKeystream h.fn h.shaped.iv h.shaped.delta hindex
  exact ⟨body, hunder, rdEnc_ok_iff.2
    ⟨fun hfirst => h.rdLong hm hfirst rfl, _, body, rdHeader_eq h.fn h.shaped.delta, hbody, rfl, rfl⟩⟩

/-- A ready decryption of an RD session: the stride out of the header on the first call, and the body under it. -/
theorem rdDec_ready (hm : s.meMode = .rd) (h : s.Ready c .dec data) :
    ∃ out, UnderKeystream c (rdBlock c s.fnRk s.meIv (s.rdStride c data)) s.meOff (s.rdRest c data) out ∧
      rdDec c data s = .ok (out, { s.afterTransforms c ((if s.meFirst then 1 else 0) + out.length) with
        meDelta := s.rdStride c data, meFirst := false, meOff := s.meOff + out.length }) := by
  have hheader : s.meFirst = true → c.blockSize ≤ data.length := fun hfirst => h.rdHeader hm hfirst rfl
  have hindex : s.meOff + (s.rdRest c data).length ≤ 2 ^ 32 * c.blockSize := (State.rdRest_length hm).symm ▸ h.rdIndex hm
  obtain ⟨out, hbody, hunder⟩ :=
    rdBody_underKeystream h.fn h.shaped.iv (State.rdStride_length h.shaped.delta hheader) hindex
  refine ⟨out, hunder, rdDec_ok_iff.2 ⟨_, _, rdOpen_eq h.fn hheader, hbody, ?_⟩⟩
  rw [keystreamLoop_length hbody]

-- ---------------------------------------------------------------- decryption undoes encryption

/-- On the answer of a session's first encryption, the first decryption of a session of the same set-up, whatever its own
stride, recovers the stride and the input (rule R292). -/
theorem rdDec_rdEnc {out : Bytes} (hfirst : s.meFirst = true) (hfirst' : s'.meFirst = true) (hsetup : s.SameSetup s')
    (hoff : s'.meOff = s.meOff) (h : rdEnc c data s = .ok (out, t)) :
    ∃ t', rdDec c out s' = .ok (data, t') ∧ t'.meDelta = t.meDelta ∧ t'.meOff = s.meOff + data.length := by
  obtain ⟨_, hdr, body, hhdr, hbody, rfl, rfl⟩ := rdEnc_ok_iff.1 h
  rw [rdHeader, if_pos hfirst] at hhdr
  have hblock : hdr.length = c.blockSize := bcE_length hhdr
  have hrecover : bcD c s' (some hdr) = .ok s.meDelta := by
    rw [readsSetup_bcD c hsetup]
    exact bcE_eq_ok_iff_bcD.1 hhdr
  have hopen : rdOpen c s' (hdr ++ body) = .ok (s.meDelta, body) := by
    rw [rdOpen, if_pos hfirst', if_neg (by simp [hblock]), List.take_left' hblock, List.drop_left' hblock, hrecover]
    rfl
  have hback : rdBody c s' s.meDelta body = .ok data := by
    rw [rdBody_eq hsetup, hoff]
    exact keystreamLoop_undo hbody
  exact ⟨_, rdDec_ok_iff.2 ⟨_, body, hopen, hback, rfl⟩, by simp, by simp [hoff, keystreamLoop_length hbody]⟩

-- ---------------------------------------------------------------- fresh sessions

/-- `ME_INIT RD` opens a session with the initial stride of its seed and the header to come (rules R202, R282). -/
theorem meInit_rd_opens (seed : Option (BitVec 64)) (s : State) (hiv : iv.length = c.blockSize) :
    ∃ t, execOn c (.meInit 6 (some iv) seed) s = .next t ∧ t.responses = s.responses ++ [.ok []] ∧
      s.Opened c .rd iv t ∧ t.meFirst = true ∧ t.meDelta = rdInitialDelta c iv seed := by
  obtain ⟨t, hexec, hresp, hopened⟩ := meInit_opens (m := .rd) seed s hiv (by simp)
  have hrd : execOn c (.meInit 6 (some iv) seed) s = finish [] (openWithIv c .rd iv seed s) := by
    refine (meInit_some (Mode.ofSel_sel .rd) (by decide) iv).trans ?_
    rw [if_neg (by simp), if_neg (not_not_intro hiv)]
  cases hrd.symm.trans hexec
  exact ⟨_, hexec, hresp, hopened, rfl, rfl⟩

/-- A session just opened on a ready core is ready to encrypt within the limits (93 U2, U5, U9). -/
theorem State.Opened.ready_rd (h : s.Opened c .rd iv t) (hf : s.FnReady c) (hbound : data.length ≤ c.maxOff)
    (hindex : data.length ≤ 2 ^ 32 * c.blockSize) (hlong : data.length + c.blockSize ≤ maxLen) :
    t.Ready c .enc data := by
  obtain ⟨hinit, hkeys, hsession, hmode, hoff, hdir, _, _, hshaped⟩ := h
  exact {
    shaped := hshaped
    fn := hf.of_eq hinit hkeys
    session := hsession
    direction := fun _ => by rw [hdir]; rfl
    aligned := fun hp => by rw [hmode] at hp; cases hp
    bound := by simpa [hoff, State.bodyLen] using hbound
    ctrBlock := fun hm => by rw [hmode] at hm; cases hm
    rdIndex := fun _ => by simpa [hoff, State.bodyLen] using hindex
    rdLong := fun _ _ _ => hlong
    rdHeader := fun _ _ hd => by cases hd }

/-- The first transform of a session just opened on an initialised core passes the checks in either direction. -/
theorem State.Opened.transform_ok {m : Mode} {d : Dir} {out : Bytes} {u : State} (h : s.Opened c m iv t)
    (hcore : s.fnInit = true) (haligned : m.requiresPadding = true → data.length % c.blockSize = 0)
    (hrun : modeFn c d data t = .ok (out, u)) (hbound : u.meOff ≤ c.maxOff) :
    transform c d (modeFn c d) (some data) t = .ok (out, { u with meDir := d.latch u.meDir }) :=
  transform_ok_iff.2 ⟨data, u, rfl, h.meInit, h.fnInit.trans hcore, h.meMode ▸ haligned,
    fun _ => by rw [h.meDir]; rfl, hrun, hbound, rfl⟩

/-- Commands are answered exactly when the first is, and then the others (rule R72). -/
theorem runCommands_cons_iff {run : Instr → State → Result} {i : Instr} {is : List Instr} {s u : State} :
    runCommands run (i :: is) s = .next u ↔ ∃ t, run i s = .next t ∧ runCommands run is t = .next u := by
  cases hi : run i s <;> simp [runCommands, hi]

/-- A transform that answers the bytes `out` has them from its mode function. -/
theorem modeFn_of_answer {d : Dir} {out : Bytes} (hd : d ≠ .none) (h : execOn c (transformCommand d data) s = .next t)
    (hout : t.responses = s.responses ++ [.ok out]) : ∃ u, modeFn c d data s = .ok (out, u) := by
  rw [execOn_transformCommand c hd] at h
  rcases commit_cases s (transform c d (modeFn c d) (some data) s) with
    ⟨o, v, hok, hfinish⟩ | ⟨k, _, hfail⟩ | ⟨_, _, hrefused⟩
  · cases hfinish.symm.trans h
    obtain ⟨_, u, ⟨⟩, _, _, _, _, hrun, _, rfl⟩ := transform_ok_iff.1 hok
    obtain ⟨_, _, hresp, _⟩ := modeFn_stays hrun
    obtain rfl : o = out := by simpa [hresp] using hout
    exact ⟨u, hrun⟩
  · cases hfail.symm.trans h
    simp [State.respond] at hout
  · cases hrefused.symm.trans h

/-- The first block of an RD ciphertext is the initial stride of its seed through the block-cipher port (rule R286). -/
theorem rdSession_firstBlock {seed : Option (BitVec 64)} {out : Bytes} (hiv : iv.length = c.blockSize)
    (h : runCommands (execOn c) [.meInit 6 (some iv) seed, .meEnc (some data)] s = .next t)
    (hout : t.responses = s.responses ++ [.ok [], .ok out]) :
    bcE c s (some (rdInitialDelta c iv seed)) = .ok (out.take c.blockSize) := by
  obtain ⟨s1, hinit, h⟩ := runCommands_cons_iff.1 h
  obtain ⟨_, henc, ⟨⟩⟩ := runCommands_cons_iff.1 h
  obtain ⟨_, hexec, hresp, hopened, hfirst, hdelta⟩ := meInit_rd_opens seed s hiv
  cases hexec.symm.trans hinit
  obtain ⟨u, hrun⟩ := modeFn_of_answer (d := .enc) (by decide) henc (by simpa [hresp] using hout)
  rw [modeFn_enc_rd hopened.meMode] at hrun
  obtain ⟨_, hdr, body, hhdr, _, rfl, _⟩ := rdEnc_ok_iff.1 hrun
  rw [rdHeader, if_pos hfirst, bcE_congr hopened.fnInit hopened.fnRk, hdelta] at hhdr
  rwa [List.take_left' (bcE_length hhdr)]

end

-- ---------------------------------------------------------------- the statements

/-- Settles O39: `rdEnc_ready`. -/
theorem rdEncryptsUnderItsStride : Obligations.RdEncryptsUnderItsStride := by
  intro c s data hm h
  obtain ⟨out, t, hrun, hok⟩ := transform_ready (d := .enc) (by decide) h
  obtain ⟨body, hunder, henc⟩ := rdEnc_ready hm h
  cases ((modeFn_enc_rd hm).trans henc).symm.trans hrun
  exact ⟨_, body, execOn_of_transform (by decide) hok, by simp, hunder, rfl, by simp, rfl⟩

/-- Settles O40: `rdDec_ready`. -/
theorem rdDecryptsUnderTheStrideOfItsHeader : Obligations.RdDecryptsUnderTheStrideOfItsHeader := by
  intro c s data hm h
  obtain ⟨out, t, hrun, hok⟩ := transform_ready (d := .dec) (by decide) h
  obtain ⟨_, hunder, hdec⟩ := rdDec_ready hm h
  cases ((modeFn_dec_rd hm).trans hdec).symm.trans hrun
  exact ⟨_, out, execOn_of_transform (by decide) hok, by simp, rfl, hunder, rfl, rfl⟩

/-- Settles O44: the encrypting session is ready, and `rdDec_rdEnc` from the decrypting one, whose seed its first call
overrides. -/
theorem rdRoundTripUnderAnySeed : Obligations.RdRoundTripUnderAnySeed := by
  intro c s iv data seedEnc seedDec hf hiv hbound hindex hlong
  obtain ⟨s1, hinit, hresp1, hopened, hfirst, _⟩ := meInit_rd_opens seedEnc s hiv
  obtain ⟨out, t, hrun, hok⟩ := transform_ready (d := .enc) (by decide) (hopened.ready_rd hf hbound hindex hlong)
  obtain ⟨⟨hcore, hkeys, _⟩, _, hrespt, _⟩ := modeFn_stays hrun
  obtain ⟨s2, hinit', hresp2, hopened', hfirst', _⟩ :=
    meInit_rd_opens seedDec (State.respond { t with meDir := Dir.enc.latch t.meDir } (.ok out)) hiv
  have hsetup : s1.SameSetup s2 :=
    (hopened.startsAlike hopened' (hcore.trans hopened.fnInit) (hkeys.trans hopened.fnRk)).sameSetup
      (by simp [hopened.meMode])
  rw [modeFn_enc_rd hopened.meMode] at hrun
  obtain ⟨u, hback, hdelta, hoff⟩ :=
    rdDec_rdEnc hfirst hfirst' hsetup (hopened'.meOff.trans hopened.meOff.symm) hrun
  rw [← modeFn_dec_rd hopened'.meMode] at hback
  rw [hopened.meOff, Nat.zero_add] at hoff
  obtain ⟨_, _, hrespu, _⟩ := modeFn_stays hback
  have hok' := hopened'.transform_ok (hcore.trans (hopened.fnInit.trans hf.1)) nofun hback (hoff.trans_le hbound)
  exact ⟨_, out, runCommands_pair hinit (execOn_of_transform (by decide) hok), by simp [hrespt, hresp1], _,
    runCommands_pair hinit' (execOn_of_transform (by decide) hok'), by simp [hrespu, hresp2], hdelta⟩

/-- Settles O45: each first block is its session's initial stride through the block-cipher port (`rdSession_firstBlock`),
which is injective. -/
theorem rdSeedsGiveDifferentCiphertexts : Obligations.RdSeedsGiveDifferentCiphertexts := by
  intro c s iv data out1 out2 t1 t2 hiv hdeltas hrun1 hout1 hrun2 hout2 hsame
  have hblock1 := bcE_eq_ok_iff_bcD.1 (rdSession_firstBlock hiv hrun1 hout1)
  have hblock2 := bcE_eq_ok_iff_bcD.1 (rdSession_firstBlock hiv hrun2 hout2)
  rw [hsame] at hblock1
  exact hdeltas (Except.ok.inj (hblock1.symm.trans hblock2))

/-- Settles O41: `meDec_shortHeader`, at the parameters of the machine. -/
theorem rdFirstDecryptNeedsTheHeader : Obligations.RdFirstDecryptNeedsTheHeader :=
  fun _ _ hsession hcore hmode hfirst hdir hshort => meDec_shortHeader hsession hcore hmode hfirst hdir hshort

end Sys2Proof.Machine
end

section
/-! SUPPORT. The statements about the padding provider of the host side (spec/46_host_padding_context.md section 1): the
length byte says how much a removal takes off, and the zero bytes of Zeros leave no trace of where the data ended. -/

namespace Sys2Proof.Machine

variable {size n : Nat} {scheme : PadScheme} {data : Bytes}

-- ---------------------------------------------------------------- the schemes with a length byte

@[simp] theorem padFill_length (filler : Nat → Byte) (hscheme : scheme ≠ .zeros) :
    (padFill filler n scheme).length = n - 1 := by
  cases scheme with
  | zeros => exact absurd rfl hscheme
  | pkcs7 => exact List.length_replicate
  | ansiX923 => exact zeros_length _
  | iso10126 => exact tabulate_length _ _

@[simp] theorem fillOk_padFill (filler : Nat → Byte) (n : Nat) (scheme : PadScheme) :
    fillOk n (padFill filler n scheme) scheme = true := by
  cases scheme with
  | zeros | iso10126 => rfl
  | pkcs7 | ansiX923 => simp [fillOk, padFill, zeros]

theorem length_add_padLen_mod (hsize : 0 < size) (data : Bytes) : (data.length + padLen size data) % size = 0 := by
  have hlt := Nat.mod_lt data.length hsize
  rw [padLen, ← Nat.mod_add_mod, Nat.add_sub_cancel' hlt.le, Nat.mod_self]

theorem padLen_pos (hsize : 0 < size) (data : Bytes) : 0 < padLen size data :=
  Nat.sub_pos_of_lt (Nat.mod_lt data.length hsize)

theorem padLen_le (size : Nat) (data : Bytes) : padLen size data ≤ size := Nat.sub_le _ _

theorem applyPad_lengthByte (filler : Nat → Byte) (hscheme : scheme ≠ .zeros) (hsize : size ≤ 255) (data : Bytes) :
    applyPad filler size scheme data =
      .ok (data ++ padFill filler (padLen size data) scheme ++ [BitVec.ofNat 8 (padLen size data)]) := by
  rw [applyPad, if_neg hscheme, if_neg (Nat.not_lt.2 hsize)]

theorem applyPad_blockTooLarge (filler : Nat → Byte) (hscheme : scheme ≠ .zeros) (hsize : 255 < size) (data : Bytes) :
    applyPad filler size scheme data = .error .padBlockTooLarge := by
  rw [applyPad, if_neg hscheme, if_pos hsize]

/-- An empty buffer has no length byte (rule R323). -/
theorem removePad_nil (hscheme : scheme ≠ .zeros) : removePad scheme [] = .error (.failure .dataIntegrity) :=
  if_neg hscheme

theorem removePad_badLengthByte {last : Byte} (hscheme : scheme ≠ .zeros) (hlast : data.getLast? = some last)
    (hbad : last.toNat < 1 ∨ data.length < last.toNat) : removePad scheme data = .error (.failure .dataIntegrity) := by
  simp only [removePad, if_neg hscheme, hlast, if_pos hbad]

/-- A length byte `n` that counts the accepted filling and itself takes off these `n` bytes. -/
theorem removePad_append {fill : Bytes} (hscheme : scheme ≠ .zeros) (hpos : 0 < n) (hbyte : n ≤ 255)
    (hlen : fill.length = n - 1) (hfill : fillOk n fill scheme = true) (data : Bytes) :
    removePad scheme (data ++ fill ++ [BitVec.ofNat 8 n]) = .ok data := by
  have hvalue : (BitVec.ofNat 8 n).toNat = n := by simp; omega
  have htotal : (data ++ fill ++ [BitVec.ofNat 8 n]).length = data.length + n := by simp; omega
  have hgood : ¬ (n < 1 ∨ data.length + n < n) := by omega
  simp only [removePad, if_neg hscheme, List.getLast?_concat, hvalue, htotal, if_neg hgood, Nat.add_sub_cancel]
  simp [List.append_assoc, ← hlen, hfill]

-- ---------------------------------------------------------------- Zeros

theorem applyZeros_of_aligned (haligned : data.length % size = 0) : applyZeros size data = data := if_pos haligned

theorem applyZeros_of_not_aligned (haligned : data.length % size ≠ 0) :
    applyZeros size data = data ++ zeros (padLen size data) := if_neg haligned

theorem applyZeros_length_mod (hsize : 0 < size) (data : Bytes) : (applyZeros size data).length % size = 0 := by
  by_cases haligned : data.length % size = 0
  · rwa [applyZeros_of_aligned haligned]
  · rw [applyZeros_of_not_aligned haligned, List.length_append, zeros_length, length_add_padLen_mod hsize]

theorem removeZeros_eq_rdropWhile (data : Bytes) : removeZeros data = data.rdropWhile (· == 0) := rfl

@[simp] theorem removeZeros_append_zeros (data : Bytes) (k : Nat) : removeZeros (data ++ zeros k) = removeZeros data := by
  simp only [removeZeros_eq_rdropWhile, zeros]
  induction k with
  | zero => rw [List.replicate_zero, List.append_nil]
  | succ k ih => rw [List.replicate_succ', ← List.append_assoc, List.rdropWhile_concat_pos _ _ _ rfl, ih]

theorem removeZeros_applyZeros (size : Nat) (data : Bytes) : removeZeros (applyZeros size data) = removeZeros data := by
  by_cases haligned : data.length % size = 0
  · rw [applyZeros_of_aligned haligned]
  · rw [applyZeros_of_not_aligned haligned, removeZeros_append_zeros]

theorem removeZeros_eq_self_iff : removeZeros data = data ↔ data.getLast? ≠ some 0 := by
  rw [removeZeros_eq_rdropWhile, List.rdropWhile_eq_self_iff]
  cases data using List.reverseRecOn with
  | nil => simp
  | append_singleton => simp

theorem applyPad_zeros (filler : Nat → Byte) (size : Nat) (data : Bytes) :
    applyPad filler size .zeros data = .ok (applyZeros size data) := rfl

theorem removePad_zeros (data : Bytes) : removePad .zeros data = .ok (removeZeros data) := rfl

-- ---------------------------------------------------------------- the statements

/-- Settles O59: `removePad_append` on what the scheme put there; for Zeros the removal takes the appended bytes and goes
on through the data's own zero bytes (`removeZeros_applyZeros`). -/
theorem paddingComesOffAgain : Obligations.PaddingComesOffAgain := by
  intro filler size data hsize
  refine ⟨fun scheme hscheme hle => ?_, fun scheme hscheme hlarge => applyPad_blockTooLarge filler hscheme hlarge data, ?_⟩
  · have hpos := padLen_pos hsize data
    have hpad := padLen_le size data
    have hlen : (data ++ padFill filler (padLen size data) scheme ++ [BitVec.ofNat 8 (padLen size data)]).length =
        data.length + padLen size data := by simp [hscheme]; omega
    refine ⟨_, applyPad_lengthByte filler hscheme hle data,
      removePad_append hscheme hpos (hpad.trans hle) (padFill_length filler hscheme) (fillOk_padFill filler _ _) data, ?_⟩
    rw [hlen]
    exact ⟨length_add_padLen_mod hsize data, by omega, by omega⟩
  · refine ⟨_, applyPad_zeros filler size data, applyZeros_length_mod hsize data, ?_⟩
    rw [removePad_zeros, removeZeros_applyZeros, Except.ok.injEq, removeZeros_eq_self_iff]

/-- Settles O60: an empty buffer is `removePad_nil`, a byte out of bounds `removePad_badLengthByte`. -/
theorem badLengthBytesAreRejected : Obligations.BadLengthBytesAreRejected := by
  rintro scheme data hscheme (rfl | ⟨last, hlast, hbad⟩)
  · exact removePad_nil hscheme
  · refine removePad_badLengthByte hscheme hlast (hbad.imp_left ?_)
    rintro rfl
    exact Nat.zero_lt_one

end Sys2Proof.Machine
end

section
/-! SUPPORT. The statements about failures and refusals (spec/60_exceptions.md): the kinds a command of the engine can fail
with, and, under the invariant, the cases in which a model refuses one. -/

namespace Sys2Proof.Machine

variable {c : Params} {i : Instr} {s t u : State} {op : Operand} {data : Bytes} {d : Dir} {k : FailKind} {why : Refusal}
  {r : Result} {out : Bytes}

-- ---------------------------------------------------------------- failures

/-- A command that answers a failure has written nothing else: the successes answer OK. -/
theorem Answered.eq_respond_failure (h : Answered c i s t) (hresp : t.responses = s.responses ++ [.failure k]) :
    t = s.respond (.failure k) := by
  rcases h with ⟨k', rfl⟩ | ⟨out, u, hw, rfl⟩
  · obtain rfl : k' = k := by simpa using hresp
    rfl
  · simp [hw.streams.2] at hresp

/-- The result `r` of a command run in `s`, if it is a failure, is none of the two kinds that arise on the host side only
(rules R354, R355). -/
def NoHostFailure (r : Result) (s : State) : Prop := ∀ k, r = fail k s → k ≠ .dataIntegrity ∧ k ≠ .io

theorem NoHostFailure.of_fail (hr : r = fail k s) (hk : k ≠ .dataIntegrity ∧ k ≠ .io) : NoHostFailure r s := by
  intro k' h
  obtain rfl : k = k' := by simpa [hr, fail_eq] using h
  exact hk

theorem NoHostFailure.of_fail_invalid (hr : r = fail k s) (hk : k = .invalidState ∨ k = .invalidArgument) :
    NoHostFailure r s :=
  .of_fail hr (by rcases hk with rfl | rfl <;> decide)

theorem NoHostFailure.of_finish (hr : r = finish out u) : NoHostFailure r s := by
  intro k h
  simp [hr, finish_eq, fail_eq] at h

theorem NoHostFailure.of_refused (hr : r = .refused why) : NoHostFailure r s := fun _ h => by cases hr.symm.trans h

theorem NoHostFailure.of_commit {x : Except Stop (Bytes × State)} (hx : OnlyInvalid x) :
    NoHostFailure (commit s x) s := by
  rcases commit_cases s x with ⟨out, t, _, hr⟩ | ⟨k, hk, hr⟩ | ⟨why, _, hr⟩
  · exact .of_finish hr
  · exact .of_fail_invalid hr (hx k hk)
  · exact .of_refused hr

/-- No command of the engine fails with DataIntegrity or IO (rules R354, R355). -/
theorem execOn_noHostFailure (c : Params) (i : Instr) (s : State) : NoHostFailure (execOn c i s) s := by
  cases i with
  | sysReset => exact .of_finish rfl
  | fnInit key =>
    rcases fnInit_cases c key s with ⟨k, hk, hr⟩ | ⟨_, _, _, _, hr⟩
    · exact .of_fail_invalid hr hk
    · exact .of_finish hr
  | fnEnc block =>
    rcases fnEnc_cases c block s with ⟨_, _, _, _, _, hr⟩ | ⟨k, hk, hr⟩
    · exact .of_finish hr
    · exact .of_fail_invalid hr hk
  | fnDec block =>
    rcases fnDec_cases c block s with ⟨_, _, _, _, _, hr⟩ | ⟨k, hk, hr⟩
    · exact .of_finish hr
    · exact .of_fail_invalid hr hk
  | fnCaps => exact .of_finish rfl
  | meInit sel iv seed =>
    rcases meInit_cases c sel iv seed s with ⟨k, hk, hr⟩ | ⟨_, _, hr⟩ | ⟨_, hr⟩ | ⟨_, _, _, _, _, _, _, hr⟩
    · exact .of_fail hr (by rcases hk with rfl | rfl <;> decide)
    · exact .of_refused hr
    · exact .of_finish hr
    · exact .of_finish hr
  | meEnc data => exact .of_commit (onlyInvalid_transform (onlyInvalid_modeEnc c) data s)
  | meDec data => exact .of_commit (onlyInvalid_transform (onlyInvalid_modeDec c) data s)
  | meCaps sel =>
    change NoHostFailure (meCaps sel s) s
    unfold meCaps
    split
    · exact .of_fail rfl (by decide)
    · exact .of_finish rfl

/-- Settles O48: such a command has failed (`Answered.eq_respond_failure`), with one of the engine's own kinds
(`execOn_noHostFailure`). -/
theorem failureChangesNoState : Obligations.FailureChangesNoState := by
  intro i s t k h hresp
  obtain rfl := (exec_next h).eq_respond_failure hresp
  rw [exec_eq_execOn] at h
  exact ⟨rfl, rfl, execOn_noHostFailure Config.params i s k h⟩

-- ---------------------------------------------------------------- refusals

theorem State.bodyLen_le (c : Params) (s : State) (d : Dir) (data : Bytes) : s.bodyLen c d data ≤ data.length := by
  unfold State.bodyLen
  split
  · exact Nat.sub_le _ _
  · exact Nat.le_refl _

theorem Dir.opposes_iff (old d : Dir) : Dir.opposes old d = true ↔ d = .enc ∧ old = .dec ∨ d = .dec ∧ old = .enc := by
  cases old <;> cases d <;> decide

theorem Mode.sel_of_ofSel : ∀ sel : Byte, ∀ m ∈ Mode.ofSel sel, m.sel = sel := by decide

theorem commit_refused {x : Except Stop (Bytes × State)} (h : commit s x = .refused why) : x = .error (.refusal why) := by
  rcases commit_cases s x with ⟨out, t, _, hr⟩ | ⟨k, _, hr⟩ | ⟨why', hx, hr⟩ <;> cases hr.symm.trans h
  exact hx

/-- A refused command is `ME_INIT CTR` on a small block (rule R268), or a transform whose pseudocode stops in a refusal. -/
theorem execOn_refused (h : execOn c i s = .refused why) :
    (why = .ctrBlockTooSmall ∧ i.opcode = .meInit ∧ i.sel = 5 ∧ c.blockSize < 8) ∨
    ∃ d, (d = .enc ∧ i.opcode = .meEnc ∨ d = .dec ∧ i.opcode = .meDec) ∧
      transform c d (modeFn c d) i.operand s = .error (.refusal why) := by
  cases i with
  | sysReset | fnCaps => cases h
  | fnInit key =>
    rcases fnInit_cases c key s with ⟨_, _, hr⟩ | ⟨_, _, _, _, hr⟩ <;> cases hr.symm.trans h
  | fnEnc block =>
    rcases fnEnc_cases c block s with ⟨_, _, _, _, _, hr⟩ | ⟨_, _, hr⟩ <;> cases hr.symm.trans h
  | fnDec block =>
    rcases fnDec_cases c block s with ⟨_, _, _, _, _, hr⟩ | ⟨_, _, hr⟩ <;> cases hr.symm.trans h
  | meInit sel iv seed =>
    rcases meInit_cases c sel iv seed s with
      ⟨_, _, hr⟩ | ⟨hsel, hsmall, hr⟩ | ⟨_, hr⟩ | ⟨_, _, _, _, _, _, _, hr⟩ <;> cases hr.symm.trans h
    exact .inl ⟨rfl, rfl, (Mode.sel_of_ofSel sel _ hsel).symm, hsmall⟩
  | meEnc data => exact .inr ⟨.enc, .inl ⟨rfl, rfl⟩, commit_refused h⟩
  | meDec data => exact .inr ⟨.dec, .inr ⟨rfl, rfl⟩, commit_refused h⟩
  | meCaps sel => cases (meCaps_eq sel s).symm.trans h

/-- A mode function on a ready core, the block registers holding blocks, is refused in RD only: past the index limit, or
for a first result that no frame carries (93 U5, U9). -/
theorem modeFn_refused (hf : s.FnReady c) (hs : s.Shaped c)
    (ha : s.meMode.requiresPadding = true → data.length % c.blockSize = 0) (h8 : s.meMode = .ctr → 8 ≤ c.blockSize)
    (h : modeFn c d data s = .error (.refusal why)) :
    (why = .rdIndexTooLarge ∧ s.meMode = .rd ∧ 2 ^ 32 * c.blockSize < s.meOff + data.length) ∨
    (why = .resultTooLong ∧ s.meMode = .rd ∧ s.meFirst = true ∧ d ≠ .dec ∧ maxLen < data.length + c.blockSize) := by
  cases d with
  | dec =>
    rcases modeDec_error hf hs ha h8 h with ⟨hwhy, hm, hlim⟩ | ⟨hwhy, _⟩
    · cases hwhy
      exact .inl ⟨rfl, hm, hlim.trans_le (Nat.add_le_add_left (State.bodyLen_le c s .dec data) _)⟩
    · cases hwhy
  | enc | none =>
    rcases modeEnc_error hf hs ha h8 h with ⟨hwhy, hm, hlim⟩ | ⟨hwhy, hm, hfirst, hlong⟩ <;> cases hwhy
    · exact .inl ⟨rfl, hm, hlim⟩
    · exact .inr ⟨rfl, hm, hfirst, by decide, hlong⟩

/-- Under the invariant a transform is refused against the session's direction, past the offset limit, or where its mode
function is (93 U1, U2, U5, U9). -/
theorem transform_refused (hs : s.Inv c) (h : transform c d (modeFn c d) op s = .error (.refusal why)) :
    ∃ data, op = some data ∧
      ((why = .directionMixed ∧ s.meInit = true ∧ s.meMode ≠ .ecb ∧ Dir.opposes s.meDir d = true) ∨
       (why = .offsetOverflow ∧ c.maxOff < s.meOff + data.length) ∨
       (why = .rdIndexTooLarge ∧ s.meMode = .rd ∧ 2 ^ 32 * c.blockSize < s.meOff + data.length) ∨
       (why = .resultTooLong ∧ s.meMode = .rd ∧ s.meFirst = true ∧ d ≠ .dec ∧
         maxLen < data.length + c.blockSize)) := by
  rcases transform_error h with hfail | ⟨data, hop, hsession, hcore, ha, hstop⟩
  · rcases hfail with hfail | hfail <;> cases hfail
  refine ⟨data, hop, ?_⟩
  rcases hstop with ⟨hwhy, hmode, hopposed⟩ | hrun | ⟨hwhy, out, u, hrun, hover⟩
  · cases hwhy
    exact .inl ⟨rfl, hsession, hmode, hopposed⟩
  · exact .inr (.inr (modeFn_refused ⟨hcore, hs.keys hcore⟩ hs.shaped ha (hs.ctrBlock hsession) hrun))
  · cases hwhy
    obtain ⟨n, fb, delta, rfl, _⟩ := modeFn_frame hrun
    exact .inr (.inl ⟨rfl, hover.trans_le (Nat.add_le_add_left (State.bodyLen_le c s d data) _)⟩)

/-- Settles O58: only `ME_INIT` and the transforms are refused (`execOn_refused`), these as `transform_refused` says. -/
theorem refusalsAreTheSpecsOwn : Obligations.RefusalsAreTheSpecsOwn := by
  intro s i why hs h
  rw [exec_eq_execOn] at h
  rcases execOn_refused h with hctr | ⟨d, hd, h⟩
  · exact .inr (.inr (.inl hctr))
  obtain ⟨data, hop, h⟩ := transform_refused hs h
  have hpay : i.payload = data := by rw [Instr.payload, hop]; rfl
  have htransform : i.opcode ∈ [Opcode.meEnc, .meDec] := by rcases hd with ⟨_, hi⟩ | ⟨_, hi⟩ <;> simp [hi]
  rw [hpay]
  rcases h with ⟨hwhy, hsession, hmode, hopposed⟩ | ⟨hwhy, hover⟩ | ⟨hwhy, hm, hlim⟩ | ⟨hwhy, hm, hfirst, hdec, hlong⟩
  · refine .inl ⟨hwhy, hsession, hmode, ?_⟩
    rcases hd with ⟨rfl, hi⟩ | ⟨rfl, hi⟩
    · exact .inl ⟨hi, by simpa using (Dir.opposes_iff _ _).1 hopposed⟩
    · exact .inr ⟨hi, by simpa using (Dir.opposes_iff _ _).1 hopposed⟩
  · exact .inr (.inl ⟨hwhy, htransform, hover⟩)
  · exact .inr (.inr (.inr (.inl ⟨hwhy, hm, htransform, hlim⟩)))
  · refine .inr (.inr (.inr (.inr ⟨hwhy, hm, hfirst, ?_, hlong⟩)))
    rcases hd with ⟨_, hi⟩ | ⟨rfl, _⟩
    · exact hi
    · exact absurd rfl hdec

end Sys2Proof.Machine
end

section
/-! SUPPORT. The encoder's frames and the command stream (spec/30_encoding.md): the decoder takes the frame of a command for
that command, a step runs it, and with less than a whole frame the engine waits. -/

namespace Sys2Proof

open Machine

-- ---------------------------------------------------------------- the frame of a command

/-- The frame of a command as its fields; `readFrame_encode` reads it off the encoder's bytes (rules R101, R103). -/
def Instr.frame (i : Instr) : Frame where
  cw := BitVec.ofNat 32 (be [i.opcode.code, i.flags, i.sel, 0])
  seed := i.seed.getD 0
  pay := i.payload

/-- `NP` stands in a command's flags exactly where its operand is null (rule R103). -/
theorem Instr.flags_getLsbD_zero (i : Instr) : i.flags.getLsbD 0 = i.operand.isNone := by
  unfold Instr.flags
  generalize i.operand.isNone = np, i.seed.isSome = sv
  revert np sv
  decide

/-- `SV` stands in a command's flags exactly where it carries a seed (rule R103). -/
theorem Instr.flags_getLsbD_one (i : Instr) : i.flags.getLsbD 1 = i.seed.isSome := by
  unfold Instr.flags
  generalize i.operand.isNone = np, i.seed.isSome = sv
  revert np sv
  decide

@[simp] theorem Instr.frame_opc (i : Instr) : i.frame.opc = i.opcode.code := Frame.opc_eq rfl

@[simp] theorem Instr.frame_sel (i : Instr) : i.frame.sel = i.sel := Frame.sel_eq rfl

@[simp] theorem Instr.frame_np (i : Instr) : i.frame.np = i.operand.isNone :=
  (Frame.np_eq rfl).trans i.flags_getLsbD_zero

@[simp] theorem Instr.frame_sv (i : Instr) : i.frame.sv = i.seed.isSome := (Frame.sv_eq rfl).trans i.flags_getLsbD_one

/-- The operand of a command's frame, the empty and the null one told apart by `NP` (rule R103). -/
@[simp] theorem Instr.frame_operand (i : Instr) : i.frame.operand = i.operand := by
  rw [Frame.operand, Instr.frame_np, Instr.frame, Instr.payload]
  cases i.operand <;> rfl

/-- The seed of a command's frame, the seed 0 and no seed told apart by `SV` (rule R103). -/
theorem Instr.frame_seed (i : Instr) : (if i.frame.sv then some i.frame.seed else none) = i.seed := by
  rw [Instr.frame_sv, Instr.frame]
  cases i.seed <;> rfl

/-- Flags that must be zero are zero: a null operand and a seed are there only where the command may have them (rule
R105). -/
theorem Instr.flags_and_mbz (i : Instr) : i.flags &&& i.opcode.mbz.extractLsb' 16 8 = 0#8 := by
  unfold Instr.flags
  cases i with
  | sysReset | fnCaps | meCaps => simp [Instr.operand, Instr.seed]
  | fnInit op | fnEnc op | fnDec op | meEnc op | meDec op =>
    cases op <;> simp [Instr.operand, Instr.seed, Instr.opcode, Opcode.mbz]
  | meInit sel iv seed => cases iv <;> cases seed <;> simp [Instr.operand, Instr.seed, Instr.opcode, Opcode.mbz]

/-- `SEL` is 0 where the command does not use it (rule R105). -/
theorem Instr.sel_and_mbz (i : Instr) : i.sel &&& i.opcode.mbz.extractLsb' 8 8 = 0#8 := by
  cases i with
  | meInit | meCaps => simp [Instr.opcode, Opcode.mbz]
  | sysReset | fnInit | fnEnc | fnDec | fnCaps | meEnc | meDec => exact BitVec.zero_and

/-- A command's frame sets no must-be-zero bit of its command word (rule R105). -/
theorem Instr.frame_cw_and_mbz (i : Instr) : i.frame.cw &&& i.opcode.mbz = 0 :=
  (cw_and_mbz_eq_zero_iff ..).2 ⟨i.flags_and_mbz, i.sel_and_mbz, BitVec.zero_and⟩

/-- A command's frame passes the checks of rule R108. -/
theorem checkFrame_frame (i : Instr) : checkFrame i.frame = .ok i.opcode := by
  refine checkFrame_ok_iff.2 ⟨i.frame_opc, i.frame_cw_and_mbz, fun hnull => ?_, fun hnone => ?_⟩
  · rw [Instr.frame_np, Option.isNone_iff_eq_none] at hnull
    rw [Instr.frame, Instr.payload, hnull, Option.getD_none]
  · cases i with
    | sysReset | fnCaps | meCaps => rfl
    | fnInit | fnEnc | fnDec | meInit | meEnc | meDec => cases hnone

/-- The command of a command's frame is that command. -/
theorem Frame.instr_frame (i : Instr) : i.frame.instr i.opcode = i := by
  have hop := i.frame_operand
  have hsel := i.frame_sel
  cases i with
  | sysReset | fnCaps => rfl
  | fnInit key => exact congrArg Instr.fnInit hop
  | fnEnc block => exact congrArg Instr.fnEnc hop
  | fnDec block => exact congrArg Instr.fnDec hop
  | meInit sel iv seed =>
    have hseed := (Instr.meInit sel iv seed).frame_seed
    simp only [Instr.opcode, Frame.instr, hop, hsel, hseed]
    rfl
  | meEnc data => exact congrArg Instr.meEnc hop
  | meDec data => exact congrArg Instr.meDec hop
  | meCaps sel => exact congrArg Instr.meCaps hsel

/-- Settles O1: the decoder reads the command's frame (`readFrame_encode`), which passes its checks and names the command. -/
theorem decodeOfEncodeIsTheCommand : Obligations.DecodeOfEncodeIsTheCommand := by
  intro i rest hwf
  have hread : readFrame (encode i ++ rest) = some (i.frame, rest) := readFrame_encode hwf rest
  rw [decode_command hread (checkFrame_frame i), Frame.instr_frame]

/-- Settles O8, by evaluating the decoder on the six words. -/
theorem writtenOutWordsDecode : Obligations.WrittenOutWordsDecode := by
  unfold Obligations.WrittenOutWordsDecode
  decide

-- ---------------------------------------------------------------- the command stream

/-- Settles O6: the decoder answers the command (`decodeOfEncodeIsTheCommand`), and the step runs it on the rest. -/
theorem stepRunsTheDecodedCommand : Obligations.StepRunsTheDecodedCommand := by
  intro s i rest hwf hstream
  rw [step, runNext, hstream, decodeOfEncodeIsTheCommand i rest hwf]
  rfl

/-- A frame that is read has wholly arrived: its 16 bytes of header and the `LEN` bytes they count (rules R100, R102). -/
theorem wholeFrame_of_readFrame {stream rest : Bytes} {f : Frame} (h : readFrame stream = some (f, rest)) :
    16 + be ((stream.drop 4).take 4) ≤ stream.length := by
  obtain ⟨hdr, hlen, _, hcount, _, rfl⟩ := exists_header_of_readFrame h
  rw [List.drop_append_of_le_length (by omega), List.take_append_of_le_length (by simp [hlen]), hcount]
  simp [hlen]

/-- Settles O5: a frame that is read has wholly arrived (`wholeFrame_of_readFrame`), so here none is. -/
theorem engineWaitsForAWholeFrame : Obligations.EngineWaitsForAWholeFrame := by
  intro s hshort
  rcases decode_cases s.cmdStream with ⟨_, hwait⟩ | ⟨f, rest, hread, _⟩
  · rw [step, runNext, hwait]
  · have hwhole := wholeFrame_of_readFrame hread
    omega

end Sys2Proof
end

section
/-! SUPPORT. The statements about `SYS_RESET` (spec/70_reset_and_hazards.md rule R391), and the machine's own parameters
(spec/00_scope.md section 4). -/

namespace Sys2Proof.Machine

/-- Settles O18: `exec` is `execOn` at the machine's own parameters, command by command (`exec_eq_execOn`). -/
theorem execIsExecOnTheInstance : Obligations.ExecIsExecOnTheInstance := exec_eq_execOn

/-- `SYS_RESET` answers OK in every state, from the registers of `State.sysReset` (rule R391). -/
theorem exec_sysReset (s : State) : exec .sysReset s = .next ((s.sysReset Config.params).respond (.ok [])) := rfl

/-- Settles O53: `exec_sysReset`, and the registers of `State.sysReset`. -/
theorem sysResetRestoresResetValues : Obligations.SysResetRestoresResetValues := fun s =>
  ⟨_, exec_sysReset s, by simp⟩

/-- On a core that is not initialised `FnCheck` fails InvalidState on every operand (rule R174). -/
theorem fnCheck_of_not_fnInit {s : State} (h : s.fnInit = false) (c : Params) (op : Operand) :
    fnCheck c s op = .error (.failure .invalidState) := if_pos (by rw [h]; rfl)

/-- Outside a session `MeCheck` fails InvalidState on every operand (rule R210). -/
theorem meCheck_of_not_meInit {s : State} (h : s.meInit = false) (c : Params) (op : Operand) :
    meCheck c s op = .error (.failure .invalidState) := if_pos (by rw [h]; rfl)

/-- Settles O54: neither core nor session is initialised after the reset, so `FnCheck` and `MeCheck` fail. -/
theorem nothingRunsAfterSysReset : Obligations.NothingRunsAfterSysReset := by
  intro s t op h i hi
  obtain ⟨t', ht', _, _, hcore, _, hsession, _⟩ := sysResetRestoresResetValues s
  cases ht'.symm.trans h
  obtain ⟨hfnEnc, hfnDec⟩ := fnEnc_fnDec_of_fnCheck (fnCheck_of_not_fnInit hcore Config.params op)
  obtain ⟨hmeEnc, hmeDec⟩ := meEnc_meDec_of_meCheck (meCheck_of_not_meInit hsession Config.params op)
  simp only [List.mem_cons, List.not_mem_nil, or_false] at hi
  rcases hi with rfl | rfl | rfl | rfl
  · exact hfnEnc
  · exact hfnDec
  · exact hmeEnc
  · exact hmeDec

end Sys2Proof.Machine
end
